-- ==== Sys2Proof/Word.lean ====
section
/-! DEFINITION. The words of the machine: the width of a register, of `pc` and of an address (XLEN = 32, 00_scope.md R5),
the byte that one address names (20_memory.md R40), and a register number (10_state.md R20). -/

namespace Sys2Proof

/-- One byte of memory (20_memory.md R40). -/
abbrev Byte := BitVec 8

/-- A register value, a `pc` value or an address: a string of XLEN = 32 bits (00_scope.md R5, R9). -/
abbrev Word := BitVec 32

/-- A register number, 0 to 31 (10_state.md R20; 30_encoding.md R87). -/
abbrev Reg := Fin 32

end Sys2Proof
end

