-- ==== Sys2Proof/Machine/Flags.lean ====
section
/-! DEFINITION. There are no flags and no condition codes (10_state.md R27). What takes their place: the comparisons, whose
result, 0 or 1, goes to a general register (R27) or decides a branch, and the arithmetic that records no carry and no overflow
(44_op.md R171). -/

namespace Sys2Proof.Machine

/-- `signed(a) < signed(b)` (00_scope.md R9). -/
def lessSigned (a b : Word) : Bool := decide (a.toInt < b.toInt)

/-- `unsigned(a) < unsigned(b)` (00_scope.md R9). -/
def lessUnsigned (a b : Word) : Bool := decide (a.toNat < b.toNat)

/-- The 32-bit value 1 or 0 of a comparison (41_op_imm.md R133). -/
def boolWord (b : Bool) : Word := if b then 0x00000001#32 else 0x00000000#32

/-- `a + b` modulo 2^32; nothing records a carry or an overflow (00_scope.md R9; 44_op.md R171). -/
def addWord (a b : Word) : Word := a + b

/-- `a - b` modulo 2^32 (00_scope.md R9; 44_op.md R171). -/
def subWord (a b : Word) : Word := a - b

/-- `a << n`, filling with zeros (00_scope.md R9). -/
def shiftLeft (a : Word) (n : Nat) : Word := a <<< n

/-- `a >>u n`, filling with zeros (00_scope.md R9). -/
def shiftRightLogical (a : Word) (n : Nat) : Word := a >>> n

/-- `a >>s n`, filling with copies of bit 31 (00_scope.md R9; 90_conflicts.md C4). -/
def shiftRightArith (a : Word) (n : Nat) : Word := a.sshiftRight n

end Sys2Proof.Machine
end

