-- ==== Sys2Proof/Config.lean ====
section
/-! DEFINITION. The parameters of the machine (00_scope.md R5), as plain data. A parameter marked OPEN there takes every
value it may have; `Config.default` holds the spec's defaults, and for the two parameters without one (`MEM_VALID`,
`RESET_PC`) the values of log entry 2. -/

namespace Sys2Proof

/-- `NREGS`: 32 integer registers (RV32I) or 16 (the RV32-E option) (10_state.md R28). -/
inductive BaseIsa
  | rv32i
  | rv32e
deriving DecidableEq, Repr

/-- `MISALIGNED_DATA`: what a data access does that is not aligned to its size (20_memory.md R43). -/
inductive MisalignedData
  | fault
  | split
deriving DecidableEq, Repr

/-- `BRANCH_FUNC3`: which func3 values select `blt`, `bge`, `bltu`, `bgeu` (30_encoding.md R99; 90_conflicts.md C8). -/
inductive BranchFunc3
  | ratified
  | asPrinted
deriving DecidableEq, Repr

/-- A run of byte addresses that memory backs: `base` to `base + size - 1` (20_memory.md R50). -/
structure Region where
  base : Nat
  size : Nat
deriving DecidableEq, Repr

/-- The parameters of 00_scope.md R5. `memValid` is the set `MEM_VALID`, written as regions (log entry 10). -/
structure Config where
  baseIsa : BaseIsa
  misalignedData : MisalignedData
  memValid : List Region
  resetPc : Word
  branchFunc3 : BranchFunc3
  jalrClearBit0 : Bool
  admitSupplement : Bool
deriving DecidableEq, Repr

/-- `NREGS` (00_scope.md R5). -/
def Config.nregs (c : Config) : Nat :=
  match c.baseIsa with
  | .rv32i => 32
  | .rv32e => 16

/-- The demands the spec puts on the parameters: `RESET_PC` is a multiple of 4 (10_state.md R34), and `MEM_VALID` is a set
of 32-bit addresses (20_memory.md R40, R50). -/
def Config.wf (c : Config) : Bool :=
  c.resetPc.toNat % 4 == 0 && c.memValid.all (fun r => decide (r.base + r.size ≤ 2 ^ 32))

/-- The defaults of 00_scope.md R5. DESIGN CHOICE, unsafe (log entry 2): R5 gives `MEM_VALID` and `RESET_PC` no value; here
memory backs every address and `pc` starts at 0. -/
def Config.default : Config where
  baseIsa := .rv32i
  misalignedData := .fault
  memValid := [⟨0, 2 ^ 32⟩]
  resetPc := 0
  branchFunc3 := .ratified
  jalrClearBit0 := true
  admitSupplement := true

end Sys2Proof
end

