-- ==== Sys2Proof/Syntax.lean ====
section
/-! DEFINITION. The instructions: one constructor for each of the 40 rows of spec/opcode_table.json, in the order of the
source's listing, then the supplement (00_scope.md R2). Operands stand in the order of the assembler form (30_encoding.md R106). -/

namespace Sys2Proof

/-- An instruction. `imm` of a load, store, immediate ALU instruction or `jalr` is the 12-bit field; the offset of a branch
has 13 bits and that of `jal` 21, their bit 0 included (30_encoding.md R80 to R84); `upimm` has 20 bits, `uimm` 5 (R83, R85). -/
inductive Instr
  -- loads (40_loads.md)
  | lb (rd : Reg) (imm : BitVec 12) (rs1 : Reg)
  | lh (rd : Reg) (imm : BitVec 12) (rs1 : Reg)
  | lw (rd : Reg) (imm : BitVec 12) (rs1 : Reg)
  | lbu (rd : Reg) (imm : BitVec 12) (rs1 : Reg)
  | lhu (rd : Reg) (imm : BitVec 12) (rs1 : Reg)
  -- immediate ALU (41_op_imm.md)
  | addi (rd rs1 : Reg) (imm : BitVec 12)
  | slli (rd rs1 : Reg) (uimm : BitVec 5)
  | slti (rd rs1 : Reg) (imm : BitVec 12)
  | sltiu (rd rs1 : Reg) (imm : BitVec 12)
  | xori (rd rs1 : Reg) (imm : BitVec 12)
  | srli (rd rs1 : Reg) (uimm : BitVec 5)
  | srai (rd rs1 : Reg) (uimm : BitVec 5)
  | ori (rd rs1 : Reg) (imm : BitVec 12)
  | andi (rd rs1 : Reg) (imm : BitVec 12)
  -- add upper immediate to pc (42_auipc.md)
  | auipc (rd : Reg) (upimm : BitVec 20)
  -- stores (43_stores.md)
  | sb (rs2 : Reg) (imm : BitVec 12) (rs1 : Reg)
  | sh (rs2 : Reg) (imm : BitVec 12) (rs1 : Reg)
  | sw (rs2 : Reg) (imm : BitVec 12) (rs1 : Reg)
  -- register-register ALU (44_op.md)
  | add (rd rs1 rs2 : Reg)
  | sub (rd rs1 rs2 : Reg)
  | sll (rd rs1 rs2 : Reg)
  | slt (rd rs1 rs2 : Reg)
  | sltu (rd rs1 rs2 : Reg)
  | xor (rd rs1 rs2 : Reg)
  | srl (rd rs1 rs2 : Reg)
  | sra (rd rs1 rs2 : Reg)
  | or (rd rs1 rs2 : Reg)
  | and (rd rs1 rs2 : Reg)
  -- load upper immediate (45_lui.md)
  | lui (rd : Reg) (upimm : BitVec 20)
  -- conditional branches (46_branches.md)
  | beq (rs1 rs2 : Reg) (offset : BitVec 13)
  | bne (rs1 rs2 : Reg) (offset : BitVec 13)
  | blt (rs1 rs2 : Reg) (offset : BitVec 13)
  | bge (rs1 rs2 : Reg) (offset : BitVec 13)
  | bltu (rs1 rs2 : Reg) (offset : BitVec 13)
  | bgeu (rs1 rs2 : Reg) (offset : BitVec 13)
  -- jumps (47_jumps.md)
  | jalr (rd rs1 : Reg) (imm : BitVec 12)
  | jal (rd : Reg) (offset : BitVec 21)
  -- supplement (48_supplement_system.md); the `rs1` and `rd` fields of `fence` are ignored bits, not register numbers
  | fence (fm pred succ : BitVec 4) (rs1Field rdField : BitVec 5)
  | ecall
  | ebreak
deriving DecidableEq, Repr

end Sys2Proof
end

