-- ==== Sys2Proof/WellFormed.lean ====
section
/-! DEFINITION. Which instructions have an encoding under a setting of the parameters: every register they name exists
(10_state.md R28), a branch or jump offset is even (30_encoding.md R82, R84, R107), and an instruction of the supplement is
admitted (48_supplement_system.md R200). -/

namespace Sys2Proof

/-- The register numbers an instruction uses: its `rd`, `rs1`, `rs2` fields where its format has them; `fence` uses none
(30_encoding.md R103). -/
def Instr.registers : Instr → List Reg
  | .lb rd _ rs1 | .lh rd _ rs1 | .lw rd _ rs1 | .lbu rd _ rs1 | .lhu rd _ rs1 => [rd, rs1]
  | .addi rd rs1 _ | .slli rd rs1 _ | .slti rd rs1 _ | .sltiu rd rs1 _ | .xori rd rs1 _ | .srli rd rs1 _
  | .srai rd rs1 _ | .ori rd rs1 _ | .andi rd rs1 _ => [rd, rs1]
  | .auipc rd _ | .lui rd _ => [rd]
  | .sb rs2 _ rs1 | .sh rs2 _ rs1 | .sw rs2 _ rs1 => [rs2, rs1]
  | .add rd rs1 rs2 | .sub rd rs1 rs2 | .sll rd rs1 rs2 | .slt rd rs1 rs2 | .sltu rd rs1 rs2 | .xor rd rs1 rs2
  | .srl rd rs1 rs2 | .sra rd rs1 rs2 | .or rd rs1 rs2 | .and rd rs1 rs2 => [rd, rs1, rs2]
  | .beq rs1 rs2 _ | .bne rs1 rs2 _ | .blt rs1 rs2 _ | .bge rs1 rs2 _ | .bltu rs1 rs2 _ | .bgeu rs1 rs2 _ => [rs1, rs2]
  | .jalr rd rs1 _ => [rd, rs1]
  | .jal rd _ => [rd]
  | .fence _ _ _ _ _ | .ecall | .ebreak => []

/-- Every register the instruction uses exists: its number is below `NREGS` (10_state.md R28). -/
def Instr.registersExist (c : Config) (i : Instr) : Bool :=
  i.registers.all (fun r => decide (r.val < c.nregs))

/-- Bit 0 of a branch or jump offset is 0 (30_encoding.md R75, R77, R107). -/
def Instr.offsetEven : Instr → Bool
  | .beq _ _ o | .bne _ _ o | .blt _ _ o | .bge _ _ o | .bltu _ _ o | .bgeu _ _ o => !(o.getLsbD 0)
  | .jal _ o => !(o.getLsbD 0)
  | .lb _ _ _ | .lh _ _ _ | .lw _ _ _ | .lbu _ _ _ | .lhu _ _ _
  | .addi _ _ _ | .slli _ _ _ | .slti _ _ _ | .sltiu _ _ _ | .xori _ _ _ | .srli _ _ _ | .srai _ _ _ | .ori _ _ _
  | .andi _ _ _ | .auipc _ _ | .sb _ _ _ | .sh _ _ _ | .sw _ _ _
  | .add _ _ _ | .sub _ _ _ | .sll _ _ _ | .slt _ _ _ | .sltu _ _ _ | .xor _ _ _ | .srl _ _ _ | .sra _ _ _
  | .or _ _ _ | .and _ _ _ | .lui _ _ | .jalr _ _ _ | .fence _ _ _ _ _ | .ecall | .ebreak => true

/-- The instruction is one of the supplement's three (00_scope.md R2). -/
def Instr.isSupplement : Instr → Bool
  | .fence _ _ _ _ _ | .ecall | .ebreak => true
  | .lb _ _ _ | .lh _ _ _ | .lw _ _ _ | .lbu _ _ _ | .lhu _ _ _
  | .addi _ _ _ | .slli _ _ _ | .slti _ _ _ | .sltiu _ _ _ | .xori _ _ _ | .srli _ _ _ | .srai _ _ _ | .ori _ _ _
  | .andi _ _ _ | .auipc _ _ | .sb _ _ _ | .sh _ _ _ | .sw _ _ _
  | .add _ _ _ | .sub _ _ _ | .sll _ _ _ | .slt _ _ _ | .sltu _ _ _ | .xor _ _ _ | .srl _ _ _ | .sra _ _ _
  | .or _ _ _ | .and _ _ _ | .lui _ _ | .beq _ _ _ | .bne _ _ _ | .blt _ _ _ | .bge _ _ _ | .bltu _ _ _ | .bgeu _ _ _
  | .jalr _ _ _ | .jal _ _ => false

/-- The instruction is admitted: the supplement only with `ADMIT_SUPPLEMENT` (48_supplement_system.md R200). -/
def Instr.admitted (c : Config) (i : Instr) : Bool := !i.isSupplement || c.admitSupplement

/-- The instruction has an encoding under the parameters `c`. -/
def Instr.wf (c : Config) (i : Instr) : Bool := i.registersExist c && i.offsetEven && i.admitted c

end Sys2Proof
end

