-- ==== Sys2Proof/Decode.lean ====
section
/-! DEFINITION. The encoding of the instructions (30_encoding.md): the fields and immediates of an instruction word, the
decoder of R103, total on every word and every list of bytes, and the encoder, written from the same formats. -/

namespace Sys2Proof

/-! ## Fields of an instruction word (30_encoding.md R71) -/

/-- The register a 5-bit field names (30_encoding.md R87). -/
def regOfBits (b : BitVec 5) : Reg := ⟨b.toNat, b.isLt⟩

/-- The 5-bit field that names a register (30_encoding.md R87). -/
def regBits (r : Reg) : BitVec 5 := BitVec.ofNat 5 r.val

/-- `op = inst[6:0]`. -/
def opField (inst : Word) : BitVec 7 := inst.extractLsb' 0 7

/-- The bits `inst[11:7]`. -/
def rdBits (inst : Word) : BitVec 5 := inst.extractLsb' 7 5

/-- `func3 = inst[14:12]`. -/
def func3Field (inst : Word) : BitVec 3 := inst.extractLsb' 12 3

/-- The bits `inst[19:15]`. -/
def rs1Bits (inst : Word) : BitVec 5 := inst.extractLsb' 15 5

/-- The bits `inst[24:20]`: `rs2`, or the shift amount `uimm` (30_encoding.md R85). -/
def rs2Bits (inst : Word) : BitVec 5 := inst.extractLsb' 20 5

/-- `func7 = inst[31:25]`. -/
def func7Field (inst : Word) : BitVec 7 := inst.extractLsb' 25 7

/-- `rd`. -/
def rdField (inst : Word) : Reg := regOfBits (rdBits inst)

/-- `rs1`. -/
def rs1Field (inst : Word) : Reg := regOfBits (rs1Bits inst)

/-- `rs2`. -/
def rs2Field (inst : Word) : Reg := regOfBits (rs2Bits inst)

/-- The I-TYPE immediate field `inst[31:20]` (30_encoding.md R73, R80). -/
def immIField (inst : Word) : BitVec 12 := inst.extractLsb' 20 12

/-- The S-TYPE immediate field, inst[31:25] above inst[11:7] (30_encoding.md R74, R81). -/
def immSField (inst : Word) : BitVec 12 := inst.extractLsb' 25 7 ++ inst.extractLsb' 7 5

/-- The SB-TYPE offset: inst[31], inst[7], inst[30:25], inst[11:8] and a zero bit (30_encoding.md R75, R82). -/
def immBField (inst : Word) : BitVec 13 :=
  inst.extractLsb' 31 1 ++ inst.extractLsb' 7 1 ++ inst.extractLsb' 25 6 ++ inst.extractLsb' 8 4 ++ 0#1

/-- The U-TYPE field `upimm = inst[31:12]` (30_encoding.md R76, R83). -/
def immUField (inst : Word) : BitVec 20 := inst.extractLsb' 12 20

/-- The UJ-TYPE offset: inst[31], inst[19:12], inst[20], inst[30:21] and a zero bit (30_encoding.md R77, R84). -/
def immJField (inst : Word) : BitVec 21 :=
  inst.extractLsb' 31 1 ++ inst.extractLsb' 12 8 ++ inst.extractLsb' 20 1 ++ inst.extractLsb' 21 10 ++ 0#1

/-! ## The decoder (30_encoding.md R103) -/

/-- Why a word, or a list of bytes, is no instruction. The spec names the outcome only (`IllegalInstruction`, R104); the
reasons are this model's names (log entry 15). -/
inductive Reject
  /-- `op` is none of the values of R88 and R102. -/
  | opcode
  /-- `func3` selects no instruction of this `op`. -/
  | func3
  /-- `func7`, or `inst[31:25]` of a shift-immediate word, selects no instruction. -/
  | func7
  /-- A word of `op` 1110011 that is neither `ecall` nor `ebreak`. -/
  | system
  /-- A word of the supplement while `ADMIT_SUPPLEMENT` is false. -/
  | supplement
  /-- A register number that is not below `NREGS`. -/
  | register
  /-- Fewer than four bytes. -/
  | tooFewBytes
deriving DecidableEq, Repr

/-- func3 of `blt` (30_encoding.md R99). -/
def func3Blt : BranchFunc3 → BitVec 3
  | .ratified => 0b100#3
  | .asPrinted => 0b010#3

/-- func3 of `bge` (30_encoding.md R99). -/
def func3Bge : BranchFunc3 → BitVec 3
  | .ratified => 0b101#3
  | .asPrinted => 0b011#3

/-- func3 of `bltu` (30_encoding.md R99). -/
def func3Bltu : BranchFunc3 → BitVec 3
  | .ratified => 0b110#3
  | .asPrinted => 0b100#3

/-- func3 of `bgeu` (30_encoding.md R99). -/
def func3Bgeu : BranchFunc3 → BitVec 3
  | .ratified => 0b111#3
  | .asPrinted => 0b101#3

/-- `op` 0000011 (30_encoding.md R93). -/
def decodeLoad (inst : Word) : Except Reject Instr :=
  let rd := rdField inst
  let rs1 := rs1Field inst
  let imm := immIField inst
  if func3Field inst = 0b000#3 then .ok (.lb rd imm rs1)
  else if func3Field inst = 0b001#3 then .ok (.lh rd imm rs1)
  else if func3Field inst = 0b010#3 then .ok (.lw rd imm rs1)
  else if func3Field inst = 0b100#3 then .ok (.lbu rd imm rs1)
  else if func3Field inst = 0b101#3 then .ok (.lhu rd imm rs1)
  else .error .func3

/-- `op` 0010011 (30_encoding.md R94; the shifts, R85). -/
def decodeOpImm (inst : Word) : Except Reject Instr :=
  let rd := rdField inst
  let rs1 := rs1Field inst
  let imm := immIField inst
  let uimm := rs2Bits inst
  if func3Field inst = 0b000#3 then .ok (.addi rd rs1 imm)
  else if func3Field inst = 0b010#3 then .ok (.slti rd rs1 imm)
  else if func3Field inst = 0b011#3 then .ok (.sltiu rd rs1 imm)
  else if func3Field inst = 0b100#3 then .ok (.xori rd rs1 imm)
  else if func3Field inst = 0b110#3 then .ok (.ori rd rs1 imm)
  else if func3Field inst = 0b111#3 then .ok (.andi rd rs1 imm)
  else if func3Field inst = 0b001#3 then
    if func7Field inst = 0b0000000#7 then .ok (.slli rd rs1 uimm) else .error .func7
  else if func7Field inst = 0b0000000#7 then .ok (.srli rd rs1 uimm)
  else if func7Field inst = 0b0100000#7 then .ok (.srai rd rs1 uimm)
  else .error .func7

/-- `op` 0100011 (30_encoding.md R96). -/
def decodeStore (inst : Word) : Except Reject Instr :=
  let rs2 := rs2Field inst
  let rs1 := rs1Field inst
  let imm := immSField inst
  if func3Field inst = 0b000#3 then .ok (.sb rs2 imm rs1)
  else if func3Field inst = 0b001#3 then .ok (.sh rs2 imm rs1)
  else if func3Field inst = 0b010#3 then .ok (.sw rs2 imm rs1)
  else .error .func3

/-- `op` 0110011 (30_encoding.md R97). -/
def decodeOp (inst : Word) : Except Reject Instr :=
  let rd := rdField inst
  let rs1 := rs1Field inst
  let rs2 := rs2Field inst
  if func7Field inst = 0b0000000#7 then
    if func3Field inst = 0b000#3 then .ok (.add rd rs1 rs2)
    else if func3Field inst = 0b001#3 then .ok (.sll rd rs1 rs2)
    else if func3Field inst = 0b010#3 then .ok (.slt rd rs1 rs2)
    else if func3Field inst = 0b011#3 then .ok (.sltu rd rs1 rs2)
    else if func3Field inst = 0b100#3 then .ok (.xor rd rs1 rs2)
    else if func3Field inst = 0b101#3 then .ok (.srl rd rs1 rs2)
    else if func3Field inst = 0b110#3 then .ok (.or rd rs1 rs2)
    else .ok (.and rd rs1 rs2)
  else if func7Field inst = 0b0100000#7 then
    if func3Field inst = 0b000#3 then .ok (.sub rd rs1 rs2)
    else if func3Field inst = 0b101#3 then .ok (.sra rd rs1 rs2)
    else .error .func7
  else .error .func7

/-- `op` 1100011, under either value of `BRANCH_FUNC3` (30_encoding.md R99). -/
def decodeBranch (b : BranchFunc3) (inst : Word) : Except Reject Instr :=
  let rs1 := rs1Field inst
  let rs2 := rs2Field inst
  let offset := immBField inst
  if func3Field inst = 0b000#3 then .ok (.beq rs1 rs2 offset)
  else if func3Field inst = 0b001#3 then .ok (.bne rs1 rs2 offset)
  else if func3Field inst = func3Blt b then .ok (.blt rs1 rs2 offset)
  else if func3Field inst = func3Bge b then .ok (.bge rs1 rs2 offset)
  else if func3Field inst = func3Bltu b then .ok (.bltu rs1 rs2 offset)
  else if func3Field inst = func3Bgeu b then .ok (.bgeu rs1 rs2 offset)
  else .error .func3

/-- `op` 0001111 (30_encoding.md R102; 48_supplement_system.md R201): every value of the other 22 bits is accepted. -/
def decodeFence (inst : Word) : Except Reject Instr :=
  if func3Field inst = 0b000#3 then
    .ok (.fence (inst.extractLsb' 28 4) (inst.extractLsb' 24 4) (inst.extractLsb' 20 4) (rs1Bits inst) (rdBits inst))
  else .error .func3

/-- `op` 1110011: two words and no other (30_encoding.md R102; 48_supplement_system.md R202 to R204). -/
def decodeSystem (inst : Word) : Except Reject Instr :=
  if inst = 0x00000073#32 then .ok .ecall
  else if inst = 0x00100073#32 then .ok .ebreak
  else .error .system

/-- The choice by `op` (30_encoding.md R88, R103), before the checks that depend on parameters other than `BRANCH_FUNC3`. -/
def decodeByOp (b : BranchFunc3) (inst : Word) : Except Reject Instr :=
  if opField inst = 0b0000011#7 then decodeLoad inst
  else if opField inst = 0b0010011#7 then decodeOpImm inst
  else if opField inst = 0b0010111#7 then .ok (.auipc (rdField inst) (immUField inst))
  else if opField inst = 0b0100011#7 then decodeStore inst
  else if opField inst = 0b0110011#7 then decodeOp inst
  else if opField inst = 0b0110111#7 then .ok (.lui (rdField inst) (immUField inst))
  else if opField inst = 0b1100011#7 then decodeBranch b inst
  else if opField inst = 0b1100111#7 then
    if func3Field inst = 0b000#3 then .ok (.jalr (rdField inst) (rs1Field inst) (immIField inst)) else .error .func3
  else if opField inst = 0b1101111#7 then .ok (.jal (rdField inst) (immJField inst))
  else if opField inst = 0b0001111#7 then decodeFence inst
  else if opField inst = 0b1110011#7 then decodeSystem inst
  else .error .opcode

/-- The checks of R103 that depend on `ADMIT_SUPPLEMENT` and `NREGS`. -/
def checkAdmitted (c : Config) (i : Instr) : Except Reject Instr :=
  if i.admitted c = false then .error .supplement
  else if i.registersExist c = false then .error .register
  else .ok i

/-- The decoder (30_encoding.md R103): total on all 2^32 words under every setting of the parameters. -/
def decode (c : Config) (inst : Word) : Except Reject Instr :=
  match decodeByOp c.branchFunc3 inst with
  | .ok i => checkAdmitted c i
  | .error e => .error e

/-- The word of four bytes, the byte at the lowest address first: bits 7:0 are the first byte (20_memory.md R42, R46). -/
def wordOfBytes (b0 b1 b2 b3 : Byte) : Word := b3 ++ b2 ++ b1 ++ b0

/-- The four bytes of a word, the one for the lowest address first (20_memory.md R42). -/
def bytesOfWord (w : Word) : List Byte :=
  [w.extractLsb' 0 8, w.extractLsb' 8 8, w.extractLsb' 16 8, w.extractLsb' 24 8]

/-- The decoder on any bytes, the lowest address first: the instruction and the bytes after it (30_encoding.md R70). -/
def decodeBytes (c : Config) : List Byte → Except Reject (Instr × List Byte)
  | b0 :: b1 :: b2 :: b3 :: rest =>
    match decode c (wordOfBytes b0 b1 b2 b3) with
    | .ok i => .ok (i, rest)
    | .error e => .error e
  | [] | [_] | [_, _] | [_, _, _] => .error .tooFewBytes

/-! ## The encoder (30_encoding.md R72 to R77) -/

/-- R-TYPE (30_encoding.md R72). -/
def encodeR (func7 : BitVec 7) (rs2 rs1 : Reg) (func3 : BitVec 3) (rd : Reg) (op : BitVec 7) : Word :=
  func7 ++ regBits rs2 ++ regBits rs1 ++ func3 ++ regBits rd ++ op

/-- I-TYPE (30_encoding.md R73). -/
def encodeI (imm : BitVec 12) (rs1 : Reg) (func3 : BitVec 3) (rd : Reg) (op : BitVec 7) : Word :=
  imm ++ regBits rs1 ++ func3 ++ regBits rd ++ op

/-- I-TYPE with a shift amount (30_encoding.md R85). -/
def encodeShift (func7 : BitVec 7) (uimm : BitVec 5) (rs1 : Reg) (func3 : BitVec 3) (rd : Reg) (op : BitVec 7) : Word :=
  func7 ++ uimm ++ regBits rs1 ++ func3 ++ regBits rd ++ op

/-- S-TYPE (30_encoding.md R74). -/
def encodeS (imm : BitVec 12) (rs2 rs1 : Reg) (func3 : BitVec 3) (op : BitVec 7) : Word :=
  imm.extractLsb' 5 7 ++ regBits rs2 ++ regBits rs1 ++ func3 ++ imm.extractLsb' 0 5 ++ op

/-- SB-TYPE (30_encoding.md R75). -/
def encodeB (offset : BitVec 13) (rs2 rs1 : Reg) (func3 : BitVec 3) (op : BitVec 7) : Word :=
  offset.extractLsb' 12 1 ++ offset.extractLsb' 5 6 ++ regBits rs2 ++ regBits rs1 ++ func3 ++ offset.extractLsb' 1 4
    ++ offset.extractLsb' 11 1 ++ op

/-- U-TYPE (30_encoding.md R76). -/
def encodeU (upimm : BitVec 20) (rd : Reg) (op : BitVec 7) : Word := upimm ++ regBits rd ++ op

/-- UJ-TYPE (30_encoding.md R77). -/
def encodeJ (offset : BitVec 21) (rd : Reg) (op : BitVec 7) : Word :=
  offset.extractLsb' 20 1 ++ offset.extractLsb' 1 10 ++ offset.extractLsb' 11 1 ++ offset.extractLsb' 12 8 ++ regBits rd ++ op

/-- `fence` (30_encoding.md R102; 48_supplement_system.md R201). -/
def encodeFence (fm pred succ : BitVec 4) (rs1Field rdField : BitVec 5) : Word :=
  fm ++ pred ++ succ ++ rs1Field ++ 0b000#3 ++ rdField ++ 0b0001111#7

/-- The word of an instruction (30_encoding.md R93 to R102). The parameters matter for the branches only (R99). -/
def encode (c : Config) : Instr → Word
  | .lb rd imm rs1 => encodeI imm rs1 0b000#3 rd 0b0000011#7
  | .lh rd imm rs1 => encodeI imm rs1 0b001#3 rd 0b0000011#7
  | .lw rd imm rs1 => encodeI imm rs1 0b010#3 rd 0b0000011#7
  | .lbu rd imm rs1 => encodeI imm rs1 0b100#3 rd 0b0000011#7
  | .lhu rd imm rs1 => encodeI imm rs1 0b101#3 rd 0b0000011#7
  | .addi rd rs1 imm => encodeI imm rs1 0b000#3 rd 0b0010011#7
  | .slli rd rs1 uimm => encodeShift 0b0000000#7 uimm rs1 0b001#3 rd 0b0010011#7
  | .slti rd rs1 imm => encodeI imm rs1 0b010#3 rd 0b0010011#7
  | .sltiu rd rs1 imm => encodeI imm rs1 0b011#3 rd 0b0010011#7
  | .xori rd rs1 imm => encodeI imm rs1 0b100#3 rd 0b0010011#7
  | .srli rd rs1 uimm => encodeShift 0b0000000#7 uimm rs1 0b101#3 rd 0b0010011#7
  | .srai rd rs1 uimm => encodeShift 0b0100000#7 uimm rs1 0b101#3 rd 0b0010011#7
  | .ori rd rs1 imm => encodeI imm rs1 0b110#3 rd 0b0010011#7
  | .andi rd rs1 imm => encodeI imm rs1 0b111#3 rd 0b0010011#7
  | .auipc rd upimm => encodeU upimm rd 0b0010111#7
  | .sb rs2 imm rs1 => encodeS imm rs2 rs1 0b000#3 0b0100011#7
  | .sh rs2 imm rs1 => encodeS imm rs2 rs1 0b001#3 0b0100011#7
  | .sw rs2 imm rs1 => encodeS imm rs2 rs1 0b010#3 0b0100011#7
  | .add rd rs1 rs2 => encodeR 0b0000000#7 rs2 rs1 0b000#3 rd 0b0110011#7
  | .sub rd rs1 rs2 => encodeR 0b0100000#7 rs2 rs1 0b000#3 rd 0b0110011#7
  | .sll rd rs1 rs2 => encodeR 0b0000000#7 rs2 rs1 0b001#3 rd 0b0110011#7
  | .slt rd rs1 rs2 => encodeR 0b0000000#7 rs2 rs1 0b010#3 rd 0b0110011#7
  | .sltu rd rs1 rs2 => encodeR 0b0000000#7 rs2 rs1 0b011#3 rd 0b0110011#7
  | .xor rd rs1 rs2 => encodeR 0b0000000#7 rs2 rs1 0b100#3 rd 0b0110011#7
  | .srl rd rs1 rs2 => encodeR 0b0000000#7 rs2 rs1 0b101#3 rd 0b0110011#7
  | .sra rd rs1 rs2 => encodeR 0b0100000#7 rs2 rs1 0b101#3 rd 0b0110011#7
  | .or rd rs1 rs2 => encodeR 0b0000000#7 rs2 rs1 0b110#3 rd 0b0110011#7
  | .and rd rs1 rs2 => encodeR 0b0000000#7 rs2 rs1 0b111#3 rd 0b0110011#7
  | .lui rd upimm => encodeU upimm rd 0b0110111#7
  | .beq rs1 rs2 offset => encodeB offset rs2 rs1 0b000#3 0b1100011#7
  | .bne rs1 rs2 offset => encodeB offset rs2 rs1 0b001#3 0b1100011#7
  | .blt rs1 rs2 offset => encodeB offset rs2 rs1 (func3Blt c.branchFunc3) 0b1100011#7
  | .bge rs1 rs2 offset => encodeB offset rs2 rs1 (func3Bge c.branchFunc3) 0b1100011#7
  | .bltu rs1 rs2 offset => encodeB offset rs2 rs1 (func3Bltu c.branchFunc3) 0b1100011#7
  | .bgeu rs1 rs2 offset => encodeB offset rs2 rs1 (func3Bgeu c.branchFunc3) 0b1100011#7
  | .jalr rd rs1 imm => encodeI imm rs1 0b000#3 rd 0b1100111#7
  | .jal rd offset => encodeJ offset rd 0b1101111#7
  | .fence fm pred succ rs1Field rdField => encodeFence fm pred succ rs1Field rdField
  | .ecall => 0x00000073#32
  | .ebreak => 0x00100073#32

/-- The instruction the decoder reads, under the default parameters, from `nbits` bits numbered as spec/opcode_table.json
numbers them, every bit above them 0. The word is laid out as memory holds it, the byte of bits 7:0 first (20_memory.md R42). -/
def decodeTableWord (nbits w : Nat) : Option Instr :=
  match decodeBytes Config.default (bytesOfWord (BitVec.ofNat 32 (w % 2 ^ nbits))) with
  | .ok (i, _) => some i
  | .error _ => none

end Sys2Proof
end

