-- ==== Sys2Proof/Machine/State.lean ====
section
/-! DEFINITION. The state of the machine (10_state.md R35), the exceptions that stop it (60_exceptions.md R210), and the state
after reset (10_state.md R34; 70_reset_and_hazards.md R240). -/

namespace Sys2Proof.Machine

/-- Memory: the bytes that differ from what an unlisted address reads as, by rising address. `Memory.wf` of Machine/Ops.lean
says when the list is in this one form. -/
abbrev Memory := List Host.Cell

/-- A set of byte addresses, listed by rising address. -/
abbrev AddrSet := List Nat

/-- The state: the tuple of 10_state.md R35 and the model's own two fields. There are no flags (R27), no control and status
registers (R29), no floating-point registers (R30), no hidden state (R33) and no mode (60_exceptions.md R218). -/
structure State where
  /-- `x1` to `x31`, `x1` first; `x0` is no state (10_state.md R21). With `NREGS` = 16 the last sixteen are held and no
  instruction the decoder admits can name them (R28; log entry 8). -/
  regs : Vector Word 31
  /-- The address of the instruction being executed (10_state.md R23, R24). -/
  pc : Word
  /-- Memory (10_state.md R32; 20_memory.md R40). -/
  mem : Memory
  /-- The bytes that a store of this run has written: what the fetch of 20_memory.md R46 asks for (R54; log entry 5). -/
  stored : AddrSet
  /-- The parameters of the machine (00_scope.md R5); no step writes them (log entry 1). -/
  cfg : Config
deriving DecidableEq, Repr

/-- The exceptions (60_exceptions.md R210), each with the info it records. Every one is fatal: the step that raises it has no
next state (R213) and has changed nothing (R214). Each is safe: hardware with a handler might continue where the machine
stops, so a fault makes a claim unprovable and never proves a false one (log entry 7). -/
inductive Fault
  /-- Raised by a taken branch, `jal` or `jalr` whose target is not a multiple of 4, with the target; and by a fetch at a `pc`
  that is not, with `pc`. Safe. -/
  | instructionAddressMisaligned (address : Word)
  /-- Raised by a fetch any byte of which is outside `MEM_VALID`, with `pc`. Safe. -/
  | instructionAccessFault (pc : Word)
  /-- Raised by the step whose fetched word the decoder maps to no instruction, with the word. Safe. -/
  | illegalInstruction (inst : Word)
  /-- Raised by `ebreak`, with `pc`. Safe. -/
  | breakpoint (pc : Word)
  /-- Raised by `lh`, `lhu` and `lw` at an address that is not a multiple of the size, with `MISALIGNED_DATA` = `fault`, with
  the address. Safe. -/
  | loadAddressMisaligned (address : Word)
  /-- Raised by a load any byte of which is outside `MEM_VALID`, with the address. Safe. -/
  | loadAccessFault (address : Word)
  /-- Raised by `sh` and `sw` at an address that is not a multiple of the size, with `MISALIGNED_DATA` = `fault`, with the
  address. Safe. -/
  | storeAddressMisaligned (address : Word)
  /-- Raised by a store any byte of which is outside `MEM_VALID`, with the address. Safe. -/
  | storeAccessFault (address : Word)
  /-- Raised by `ecall`, with `pc`; the normal end of a run (70_reset_and_hazards.md R242). Safe. -/
  | environmentCall (pc : Word)
  /-- Raised by a fetch from a byte that a store of this run has written, with `pc`: a refusal of the model, not a hardware
  exception (20_memory.md R54). Safe. -/
  | fetchAfterStore (pc : Word)
deriving DecidableEq, Repr

/-- Reasons for having no meaning at all. A step has two outcomes only, the next state or a fault (60_exceptions.md R225), so
nothing raises one. -/
inductive Refusal
  /-- Raised by `exec` for an instruction without a meaning: none is left. Safe. -/
  | notModelled (mnemonic : String)
deriving DecidableEq, Repr

/-- What a step answers (60_exceptions.md R225). -/
abbrev Result := Host.Outcome State Fault Refusal

/-- A start state as 10_state.md R34 and 70_reset_and_hazards.md R240 describe it: `pc` = `RESET_PC`, any values in `x1` to
`x31`, any memory, no store made yet. Claims about a program quantify over the values. -/
def State.start (c : Config) (regs : Vector Word 31) (mem : Memory) : State where
  regs := regs
  pc := c.resetPc
  mem := mem
  stored := []
  cfg := c

/-- The machine right after reset, under the default parameters. DESIGN CHOICE, unsafe: the spec leaves `x1` to `x31` (log
entry 3) and memory (log entry 4) unspecified; here the registers are 0 and no byte is listed. -/
def State.reset : State := State.start Config.default (Vector.replicate 31 0#32) []

end Sys2Proof.Machine
end

