-- ==== Sys2Proof/Machine/Ops.lean ====
section
/-! DEFINITION. The named operations over registers, `pc` and memory (00_scope.md R10), and raising an exception
(60_exceptions.md R213). -/

namespace Sys2Proof.Machine

/-! ## Registers and pc -/

/-- `x[r]`: register 0 reads 0 in every state (10_state.md R21). -/
def State.reg (s : State) (r : Reg) : Word :=
  if h : r.val = 0 then 0 else s.regs[r.val - 1]'(by omega)

/-- The registers after `x[r] <- v`: a write to register 0 is discarded (10_state.md R21). -/
def writeRegs (regs : Vector Word 31) (r : Reg) (v : Word) : Vector Word 31 :=
  if h : r.val = 0 then regs else regs.set (r.val - 1) v (by omega)

/-- `x[r] <- v` (10_state.md R21). -/
def State.setReg (s : State) (r : Reg) (v : Word) : State := { s with regs := writeRegs s.regs r v }

/-- `pc <- t`. -/
def State.setPc (s : State) (t : Word) : State := { s with pc := t }

/-- The last action of an instruction that does not write `pc`: `pc <- pc + 4`, modulo 2^32 (10_state.md R25). -/
def State.advance (s : State) : State := s.setPc (s.pc + 4#32)

/-! ## Exceptions -/

/-- `raise E(info)`: the machine stops with the exception, and there is no next state (60_exceptions.md R213). The instruction
has changed nothing: the final state is the state before it (R214). No trap vector, saved `pc`, cause register or mode exists,
so nothing else happens, and there is no return from it (R217). -/
def raise (e : Fault) : Result := .fault e

/-- The numeric label of an exception; `FetchAfterStore` has none (60_exceptions.md R210). No instruction can read it. -/
def Fault.code : Fault → Option Nat
  | .instructionAddressMisaligned _ => some 0
  | .instructionAccessFault _ => some 1
  | .illegalInstruction _ => some 2
  | .breakpoint _ => some 3
  | .loadAddressMisaligned _ => some 4
  | .loadAccessFault _ => some 5
  | .storeAddressMisaligned _ => some 6
  | .storeAccessFault _ => some 7
  | .environmentCall _ => some 11
  | .fetchAfterStore _ => none

/-! ## Memory as a list of cells -/

/-- What an address reads as that is not listed. DESIGN CHOICE, unsafe (log entry 4): the spec leaves a byte the loader did
not set unspecified (10_state.md R34). -/
def Memory.unlisted : Byte := 0x00#8

/-- The byte at an address. -/
def Memory.read : Memory → Nat → Byte
  | [], _ => Memory.unlisted
  | (k, b) :: m, a => if k = a then b else Memory.read m a

/-- No cell for the address: it reads as an unlisted one. -/
def Memory.erase (m : Memory) (a : Nat) : Memory := m.filter (fun c => c.1 != a)

/-- A cell put at its place by rising address, in a memory that has none for the address. -/
def Memory.place : Memory → Nat → Byte → Memory
  | [], a, v => [(a, v)]
  | (k, b) :: m, a, v => if a < k then (a, v) :: (k, b) :: m else (k, b) :: Memory.place m a v

/-- Change the byte at one address; a byte that an unlisted address reads as is not listed. -/
def Memory.write (m : Memory) (a : Nat) (v : Byte) : Memory :=
  if v = Memory.unlisted then m.erase a else (m.erase a).place a v

/-- The canonical form: addresses strictly rising and below 2^32 (20_memory.md R40), no byte that an unlisted address would
read as. -/
def Memory.wf : Memory → Bool
  | [] => true
  | (k, b) :: m => decide (k < 2 ^ 32) && b != Memory.unlisted && m.all (fun c => decide (k < c.1)) && Memory.wf m

/-- Add an address to a set. -/
def AddrSet.insert : AddrSet → Nat → AddrSet
  | [], a => [a]
  | k :: m, a => if a < k then a :: k :: m else if a = k then k :: m else k :: AddrSet.insert m a

/-- The one form of a set: addresses strictly rising and below 2^32. -/
def AddrSet.wf : AddrSet → Bool
  | [] => true
  | k :: m => decide (k < 2 ^ 32) && m.all (fun a => decide (k < a)) && AddrSet.wf m

/-! ## The address space -/

/-- The byte address is in `MEM_VALID` (20_memory.md R50). -/
def validAt (c : Config) (a : Nat) : Bool :=
  decide (a < 2 ^ 32) && c.memValid.any (fun r => decide (r.base ≤ a) && decide (a < r.base + r.size))

/-- `(addr + i) mod 2^32`, the address of byte `i` of an access (20_memory.md R44, R45). -/
def byteAddr (addr : Word) (i : Nat) : Nat := (addr + BitVec.ofNat 32 i).toNat

/-- The addresses of the `n` bytes of an access. -/
def accessAddrs (addr : Word) (n : Nat) : List Nat := (List.range n).map (byteAddr addr)

/-- Every byte of the access is in `MEM_VALID` (20_memory.md R50). -/
def accessValid (c : Config) (addr : Word) (n : Nat) : Bool := (accessAddrs addr n).all (validAt c)

/-- The byte of memory at an address. -/
def State.byteAt (s : State) (a : Nat) : Byte := s.mem.read a

/-! ## The access primitives (20_memory.md R44, R45) -/

/-- How much an access moves (20_memory.md R47). -/
inductive Width
  | byte
  | half
  | word
deriving DecidableEq, Repr

/-- `n`. -/
def Width.bytes : Width → Nat
  | .byte => 1
  | .half => 2
  | .word => 4

/-- `8n`. -/
abbrev Width.bits : Width → Nat
  | .byte => 8
  | .half => 16
  | .word => 32

/-- The access is not aligned to its size and `MISALIGNED_DATA` = `fault` (20_memory.md R43): byte accesses are always
aligned. -/
def misalignedFaults (c : Config) (w : Width) (addr : Word) : Bool :=
  c.misalignedData == .fault && addr.toNat % w.bytes != 0

/-- The little-endian value of the bytes of an access (20_memory.md R42, R44). -/
def State.valueAt (s : State) (addr : Word) : (w : Width) → BitVec w.bits
  | .byte => s.byteAt (byteAddr addr 0)
  | .half => s.byteAt (byteAddr addr 1) ++ s.byteAt (byteAddr addr 0)
  | .word => s.byteAt (byteAddr addr 3) ++ s.byteAt (byteAddr addr 2) ++ s.byteAt (byteAddr addr 1) ++ s.byteAt (byteAddr addr 0)

/-- The bytes of a value, bits 7:0 first (20_memory.md R42, R45). -/
def valueBytes : (w : Width) → BitVec w.bits → List Byte
  | .byte, v => [v]
  | .half, v => [v.extractLsb' 0 8, v.extractLsb' 8 8]
  | .word, v => [v.extractLsb' 0 8, v.extractLsb' 8 8, v.extractLsb' 16 8, v.extractLsb' 24 8]

/-- Store one byte, and note that a store of this run has written it (20_memory.md R46, R54). -/
def State.storeByte (s : State) (a : Nat) (v : Byte) : State :=
  { s with mem := s.mem.write a v, stored := s.stored.insert a }

/-- Store bytes from `addr` on, in increasing address order, modulo 2^32 (20_memory.md R43, R45). -/
def State.storeBytes (s : State) (addr : Word) : List Byte → State
  | [] => s
  | b :: bs => State.storeBytes (s.storeByte addr.toNat b) (addr + 1#32) bs

/-- `MemRead(addr, n)` (20_memory.md R44): alignment first, then validity. -/
def memRead (s : State) (w : Width) (addr : Word) : Except Fault (BitVec w.bits) :=
  if misalignedFaults s.cfg w addr then .error (.loadAddressMisaligned addr)
  else if accessValid s.cfg addr w.bytes then .ok (s.valueAt addr w)
  else .error (.loadAccessFault addr)

/-- `MemWrite(addr, n, v)` (20_memory.md R45): every check comes before the first byte is written. -/
def memWrite (s : State) (w : Width) (addr : Word) (v : BitVec w.bits) : Except Fault State :=
  if misalignedFaults s.cfg w addr then .error (.storeAddressMisaligned addr)
  else if accessValid s.cfg addr w.bytes then .ok (s.storeBytes addr (valueBytes w v))
  else .error (.storeAccessFault addr)

end Sys2Proof.Machine
end

