-- ==== Sys2Proof/Machine/Operands.lean ====
section
/-! DEFINITION. The operand forms: the five immediates as 32-bit values (30_encoding.md R80 to R84), the shift amount (R85),
the effective address (20_memory.md R41), and the targets of branches and jumps (00_scope.md R12). -/

namespace Sys2Proof.Machine

/-- `imm_I = sext_32(imm[11:0])` (30_encoding.md R80). -/
def immI (imm : BitVec 12) : Word := imm.signExtend 32

/-- `imm_S = sext_32(imm[11:0])` (30_encoding.md R81). -/
def immS (imm : BitVec 12) : Word := imm.signExtend 32

/-- `imm_B`: the 13-bit offset, sign-extended (30_encoding.md R82). -/
def immB (offset : BitVec 13) : Word := offset.signExtend 32

/-- `imm_U = {upimm, 12'b0}` (30_encoding.md R83). -/
def immU (upimm : BitVec 20) : Word := upimm ++ 0#12

/-- `imm_J`: the 21-bit offset, sign-extended (30_encoding.md R84). -/
def immJ (offset : BitVec 21) : Word := offset.signExtend 32

/-- The shift amount in an instruction: `uimm`, 0 to 31, not extended (30_encoding.md R85). -/
def shamtImm (uimm : BitVec 5) : Nat := uimm.toNat

/-- The shift amount in a register: its low five bits (44_op.md R163, R167, R168). -/
def shamtReg (v : Word) : Nat := (v.extractLsb' 0 5).toNat

/-- The effective address of a load: `x[rs1] + imm_I` modulo 2^32 (20_memory.md R41). -/
def loadAddress (s : State) (rs1 : Reg) (imm : BitVec 12) : Word := s.reg rs1 + immI imm

/-- The effective address of a store: `x[rs1] + imm_S` modulo 2^32 (20_memory.md R41). -/
def storeAddress (s : State) (rs1 : Reg) (imm : BitVec 12) : Word := s.reg rs1 + immS imm

/-- `BTA = pc + imm_B` (00_scope.md R12; 46_branches.md R180). -/
def branchTarget (s : State) (offset : BitVec 13) : Word := s.pc + immB offset

/-- `JTA = pc + imm_J` (00_scope.md R12; 47_jumps.md R192). -/
def jumpTarget (s : State) (offset : BitVec 21) : Word := s.pc + immJ offset

/-- The target of `jalr`: `x[rs1] + imm_I`, its bit 0 cleared when `JALR_CLEAR_BIT0` (47_jumps.md R191). -/
def jalrTarget (s : State) (rs1 : Reg) (imm : BitVec 12) : Word :=
  let t := s.reg rs1 + immI imm
  if s.cfg.jalrClearBit0 then t.extractLsb' 1 31 ++ 0#1 else t

/-- The low `8n` bits of a register, what a store moves (20_memory.md R47; 43_stores.md R150). -/
def lowBits (w : Width) (v : Word) : BitVec w.bits := v.setWidth w.bits

end Sys2Proof.Machine
end

