-- ==== Sys2Proof/Machine/Alu.lean ====
section
/-! DEFINITION. The arithmetic, logic and shift instructions: with an immediate (41_op_imm.md), with two registers (44_op.md),
and with an upper immediate (42_auipc.md, 45_lui.md). -/

namespace Sys2Proof.Machine

/-- `x[rd] <- v; pc <- pc + 4`, the form these instructions share: no flag, no exception (41_op_imm.md R130; 44_op.md R160). -/
def writeRd (rd : Reg) (v : Word) (s : State) : Result := .next (s.setReg rd v).advance

/-! ## Immediate ALU (41_op_imm.md) -/

/-- `addi` (41_op_imm.md R131). -/
def execAddi (rd rs1 : Reg) (imm : BitVec 12) (s : State) : Result := writeRd rd (addWord (s.reg rs1) (immI imm)) s

/-- `slli` (41_op_imm.md R132). -/
def execSlli (rd rs1 : Reg) (uimm : BitVec 5) (s : State) : Result := writeRd rd (shiftLeft (s.reg rs1) (shamtImm uimm)) s

/-- `slti` (41_op_imm.md R133). -/
def execSlti (rd rs1 : Reg) (imm : BitVec 12) (s : State) : Result :=
  writeRd rd (boolWord (lessSigned (s.reg rs1) (immI imm))) s

/-- `sltiu` (41_op_imm.md R134): the immediate is sign-extended first, then the comparison is unsigned. -/
def execSltiu (rd rs1 : Reg) (imm : BitVec 12) (s : State) : Result :=
  writeRd rd (boolWord (lessUnsigned (s.reg rs1) (immI imm))) s

/-- `xori` (41_op_imm.md R135). -/
def execXori (rd rs1 : Reg) (imm : BitVec 12) (s : State) : Result := writeRd rd (s.reg rs1 ^^^ immI imm) s

/-- `srli` (41_op_imm.md R136). -/
def execSrli (rd rs1 : Reg) (uimm : BitVec 5) (s : State) : Result :=
  writeRd rd (shiftRightLogical (s.reg rs1) (shamtImm uimm)) s

/-- `srai` (41_op_imm.md R137). -/
def execSrai (rd rs1 : Reg) (uimm : BitVec 5) (s : State) : Result :=
  writeRd rd (shiftRightArith (s.reg rs1) (shamtImm uimm)) s

/-- `ori` (41_op_imm.md R138). -/
def execOri (rd rs1 : Reg) (imm : BitVec 12) (s : State) : Result := writeRd rd (s.reg rs1 ||| immI imm) s

/-- `andi` (41_op_imm.md R139). -/
def execAndi (rd rs1 : Reg) (imm : BitVec 12) (s : State) : Result := writeRd rd (s.reg rs1 &&& immI imm) s

/-! ## Register-register ALU (44_op.md) -/

/-- `add` (44_op.md R161). -/
def execAdd (rd rs1 rs2 : Reg) (s : State) : Result := writeRd rd (addWord (s.reg rs1) (s.reg rs2)) s

/-- `sub` (44_op.md R162). -/
def execSub (rd rs1 rs2 : Reg) (s : State) : Result := writeRd rd (subWord (s.reg rs1) (s.reg rs2)) s

/-- `sll` (44_op.md R163). -/
def execSll (rd rs1 rs2 : Reg) (s : State) : Result := writeRd rd (shiftLeft (s.reg rs1) (shamtReg (s.reg rs2))) s

/-- `slt` (44_op.md R164). -/
def execSlt (rd rs1 rs2 : Reg) (s : State) : Result := writeRd rd (boolWord (lessSigned (s.reg rs1) (s.reg rs2))) s

/-- `sltu` (44_op.md R165). -/
def execSltu (rd rs1 rs2 : Reg) (s : State) : Result := writeRd rd (boolWord (lessUnsigned (s.reg rs1) (s.reg rs2))) s

/-- `xor` (44_op.md R166). -/
def execXor (rd rs1 rs2 : Reg) (s : State) : Result := writeRd rd (s.reg rs1 ^^^ s.reg rs2) s

/-- `srl` (44_op.md R167). -/
def execSrl (rd rs1 rs2 : Reg) (s : State) : Result := writeRd rd (shiftRightLogical (s.reg rs1) (shamtReg (s.reg rs2))) s

/-- `sra` (44_op.md R168). -/
def execSra (rd rs1 rs2 : Reg) (s : State) : Result := writeRd rd (shiftRightArith (s.reg rs1) (shamtReg (s.reg rs2))) s

/-- `or` (44_op.md R169). -/
def execOr (rd rs1 rs2 : Reg) (s : State) : Result := writeRd rd (s.reg rs1 ||| s.reg rs2) s

/-- `and` (44_op.md R170). -/
def execAnd (rd rs1 rs2 : Reg) (s : State) : Result := writeRd rd (s.reg rs1 &&& s.reg rs2) s

/-! ## Upper immediate -/

/-- `auipc` (42_auipc.md R145): `pc` is the address of this `auipc`. -/
def execAuipc (rd : Reg) (upimm : BitVec 20) (s : State) : Result := writeRd rd (addWord s.pc (immU upimm)) s

/-- `lui` (45_lui.md R175). -/
def execLui (rd : Reg) (upimm : BitVec 20) (s : State) : Result := writeRd rd (immU upimm) s

end Sys2Proof.Machine
end

