-- ==== Sys2Proof/Machine/Control.lean ====
section
/-! DEFINITION. The conditional branches (46_branches.md) and the jumps (47_jumps.md). -/

namespace Sys2Proof.Machine

/-- What all branches share (46_branches.md R180, R181): a taken branch goes to `BTA` or, when that is no multiple of 4, raises;
a branch that is not taken advances, whatever its offset. -/
def branch (cond : Bool) (offset : BitVec 13) (s : State) : Result :=
  if cond then
    let target := branchTarget s offset
    if target.toNat % 4 ≠ 0 then raise (.instructionAddressMisaligned target) else .next (s.setPc target)
  else .next s.advance

/-- What both jumps share (47_jumps.md R190): a target that is no multiple of 4 raises; otherwise `rd` gets the address after
the jump and `pc` the target, both computed from the state before. -/
def jump (rd : Reg) (target : Word) (s : State) : Result :=
  if target.toNat % 4 ≠ 0 then raise (.instructionAddressMisaligned target)
  else .next ((s.setReg rd (s.pc + 4#32)).setPc target)

/-- `beq` (46_branches.md R182). -/
def execBeq (rs1 rs2 : Reg) (offset : BitVec 13) (s : State) : Result := branch (s.reg rs1 == s.reg rs2) offset s

/-- `bne` (46_branches.md R183). -/
def execBne (rs1 rs2 : Reg) (offset : BitVec 13) (s : State) : Result := branch (s.reg rs1 != s.reg rs2) offset s

/-- `blt` (46_branches.md R184). -/
def execBlt (rs1 rs2 : Reg) (offset : BitVec 13) (s : State) : Result :=
  branch (lessSigned (s.reg rs1) (s.reg rs2)) offset s

/-- `bge` (46_branches.md R185). -/
def execBge (rs1 rs2 : Reg) (offset : BitVec 13) (s : State) : Result :=
  branch (!lessSigned (s.reg rs1) (s.reg rs2)) offset s

/-- `bltu` (46_branches.md R186). -/
def execBltu (rs1 rs2 : Reg) (offset : BitVec 13) (s : State) : Result :=
  branch (lessUnsigned (s.reg rs1) (s.reg rs2)) offset s

/-- `bgeu` (46_branches.md R187). -/
def execBgeu (rs1 rs2 : Reg) (offset : BitVec 13) (s : State) : Result :=
  branch (!lessUnsigned (s.reg rs1) (s.reg rs2)) offset s

/-- `jalr` (47_jumps.md R191). -/
def execJalr (rd rs1 : Reg) (imm : BitVec 12) (s : State) : Result := jump rd (jalrTarget s rs1 imm) s

/-- `jal` (47_jumps.md R192). -/
def execJal (rd : Reg) (offset : BitVec 21) (s : State) : Result := jump rd (jumpTarget s offset) s

end Sys2Proof.Machine
end

