-- ==== Sys2Proof/Machine/Loads.lean ====
section
/-! DEFINITION. The loads (40_loads.md). -/

namespace Sys2Proof.Machine

/-- What all loads share (40_loads.md R120): the access, then the value, extended, to `rd`, then `pc`. -/
def load (w : Width) (ext : BitVec w.bits → Word) (rd : Reg) (imm : BitVec 12) (rs1 : Reg) (s : State) : Result :=
  match memRead s w (loadAddress s rs1 imm) with
  | .error e => raise e
  | .ok m => .next (s.setReg rd (ext m)).advance

/-- `lb` (40_loads.md R121). -/
def execLb (rd : Reg) (imm : BitVec 12) (rs1 : Reg) (s : State) : Result := load .byte (·.signExtend 32) rd imm rs1 s

/-- `lh` (40_loads.md R122). -/
def execLh (rd : Reg) (imm : BitVec 12) (rs1 : Reg) (s : State) : Result := load .half (·.signExtend 32) rd imm rs1 s

/-- `lw` (40_loads.md R123). -/
def execLw (rd : Reg) (imm : BitVec 12) (rs1 : Reg) (s : State) : Result := load .word (fun m => m) rd imm rs1 s

/-- `lbu` (40_loads.md R124). -/
def execLbu (rd : Reg) (imm : BitVec 12) (rs1 : Reg) (s : State) : Result := load .byte (·.zeroExtend 32) rd imm rs1 s

/-- `lhu` (40_loads.md R125). -/
def execLhu (rd : Reg) (imm : BitVec 12) (rs1 : Reg) (s : State) : Result := load .half (·.zeroExtend 32) rd imm rs1 s

end Sys2Proof.Machine
end

