-- ==== Sys2Proof/Machine/Stores.lean ====
section
/-! DEFINITION. The stores (43_stores.md). -/

namespace Sys2Proof.Machine

/-- What all stores share (43_stores.md R150): the low bits of `x[rs2]` to memory, then `pc`. -/
def store (w : Width) (rs2 : Reg) (imm : BitVec 12) (rs1 : Reg) (s : State) : Result :=
  match memWrite s w (storeAddress s rs1 imm) (lowBits w (s.reg rs2)) with
  | .error e => raise e
  | .ok s' => .next s'.advance

/-- `sb` (43_stores.md R151). -/
def execSb (rs2 : Reg) (imm : BitVec 12) (rs1 : Reg) (s : State) : Result := store .byte rs2 imm rs1 s

/-- `sh` (43_stores.md R152). -/
def execSh (rs2 : Reg) (imm : BitVec 12) (rs1 : Reg) (s : State) : Result := store .half rs2 imm rs1 s

/-- `sw` (43_stores.md R153). -/
def execSw (rs2 : Reg) (imm : BitVec 12) (rs1 : Reg) (s : State) : Result := store .word rs2 imm rs1 s

end Sys2Proof.Machine
end

