-- ==== Sys2Proof/Machine/System.lean ====
section
/-! DEFINITION. The supplement (48_supplement_system.md). -/

namespace Sys2Proof.Machine

/-- `fence` (48_supplement_system.md R201): every value of its fields is treated alike, and with one hart it orders nothing
that program order does not already order (20_memory.md R52, R53), so it only advances `pc`. -/
def execFence (_fm _pred _succ : BitVec 4) (_rs1Field _rdField : BitVec 5) (s : State) : Result := .next s.advance

/-- `ecall` (48_supplement_system.md R202): the run ends (70_reset_and_hazards.md R242). -/
def execEcall (s : State) : Result := raise (.environmentCall s.pc)

/-- `ebreak` (48_supplement_system.md R203). -/
def execEbreak (s : State) : Result := raise (.breakpoint s.pc)

end Sys2Proof.Machine
end

