-- ==== Sys2Proof/Machine/Dispatch.lean ====
section
/-! DEFINITION. The meaning of each instruction, by name. -/

namespace Sys2Proof.Machine

/-- The execution of one instruction by its rule (70_reset_and_hazards.md R245). -/
def exec (i : Instr) (s : State) : Host.Outcome State Fault Refusal :=
  match i with
  | .lb rd imm rs1 => Sys2Proof.Machine.execLb rd imm rs1 s
  | .lh rd imm rs1 => Sys2Proof.Machine.execLh rd imm rs1 s
  | .lw rd imm rs1 => Sys2Proof.Machine.execLw rd imm rs1 s
  | .lbu rd imm rs1 => Sys2Proof.Machine.execLbu rd imm rs1 s
  | .lhu rd imm rs1 => Sys2Proof.Machine.execLhu rd imm rs1 s
  | .addi rd rs1 imm => Sys2Proof.Machine.execAddi rd rs1 imm s
  | .slli rd rs1 uimm => Sys2Proof.Machine.execSlli rd rs1 uimm s
  | .slti rd rs1 imm => Sys2Proof.Machine.execSlti rd rs1 imm s
  | .sltiu rd rs1 imm => Sys2Proof.Machine.execSltiu rd rs1 imm s
  | .xori rd rs1 imm => Sys2Proof.Machine.execXori rd rs1 imm s
  | .srli rd rs1 uimm => Sys2Proof.Machine.execSrli rd rs1 uimm s
  | .srai rd rs1 uimm => Sys2Proof.Machine.execSrai rd rs1 uimm s
  | .ori rd rs1 imm => Sys2Proof.Machine.execOri rd rs1 imm s
  | .andi rd rs1 imm => Sys2Proof.Machine.execAndi rd rs1 imm s
  | .auipc rd upimm => Sys2Proof.Machine.execAuipc rd upimm s
  | .sb rs2 imm rs1 => Sys2Proof.Machine.execSb rs2 imm rs1 s
  | .sh rs2 imm rs1 => Sys2Proof.Machine.execSh rs2 imm rs1 s
  | .sw rs2 imm rs1 => Sys2Proof.Machine.execSw rs2 imm rs1 s
  | .add rd rs1 rs2 => Sys2Proof.Machine.execAdd rd rs1 rs2 s
  | .sub rd rs1 rs2 => Sys2Proof.Machine.execSub rd rs1 rs2 s
  | .sll rd rs1 rs2 => Sys2Proof.Machine.execSll rd rs1 rs2 s
  | .slt rd rs1 rs2 => Sys2Proof.Machine.execSlt rd rs1 rs2 s
  | .sltu rd rs1 rs2 => Sys2Proof.Machine.execSltu rd rs1 rs2 s
  | .xor rd rs1 rs2 => Sys2Proof.Machine.execXor rd rs1 rs2 s
  | .srl rd rs1 rs2 => Sys2Proof.Machine.execSrl rd rs1 rs2 s
  | .sra rd rs1 rs2 => Sys2Proof.Machine.execSra rd rs1 rs2 s
  | .or rd rs1 rs2 => Sys2Proof.Machine.execOr rd rs1 rs2 s
  | .and rd rs1 rs2 => Sys2Proof.Machine.execAnd rd rs1 rs2 s
  | .lui rd upimm => Sys2Proof.Machine.execLui rd upimm s
  | .beq rs1 rs2 offset => Sys2Proof.Machine.execBeq rs1 rs2 offset s
  | .bne rs1 rs2 offset => Sys2Proof.Machine.execBne rs1 rs2 offset s
  | .blt rs1 rs2 offset => Sys2Proof.Machine.execBlt rs1 rs2 offset s
  | .bge rs1 rs2 offset => Sys2Proof.Machine.execBge rs1 rs2 offset s
  | .bltu rs1 rs2 offset => Sys2Proof.Machine.execBltu rs1 rs2 offset s
  | .bgeu rs1 rs2 offset => Sys2Proof.Machine.execBgeu rs1 rs2 offset s
  | .jalr rd rs1 imm => Sys2Proof.Machine.execJalr rd rs1 imm s
  | .jal rd offset => Sys2Proof.Machine.execJal rd offset s
  | .fence fm pred succ rs1Field rdField => Sys2Proof.Machine.execFence fm pred succ rs1Field rdField s
  | .ecall => Sys2Proof.Machine.execEcall s
  | .ebreak => Sys2Proof.Machine.execEbreak s

end Sys2Proof.Machine
end

