-- ==== Sys2Proof/Machine/Fetch.lean ====
section
/-! DEFINITION. Instruction fetch (20_memory.md R46, R54), and placing an instruction where the next fetch reads it. -/

namespace Sys2Proof.Machine

/-- Some byte of the access was written by a store of this run (20_memory.md R46). -/
def accessStored (s : State) (addr : Word) (n : Nat) : Bool := (accessAddrs addr n).any (fun a => s.stored.contains a)

/-- The instruction word at an address, the byte at the lowest address in bits 7:0 (20_memory.md R42, R46). -/
def State.instAt (s : State) (addr : Word) : Word :=
  wordOfBytes (s.byteAt (byteAddr addr 0)) (s.byteAt (byteAddr addr 1)) (s.byteAt (byteAddr addr 2)) (s.byteAt (byteAddr addr 3))

/-- Fetch at `pc`: alignment, then validity, then the bytes stored in this run (20_memory.md R46; 60_exceptions.md R215). -/
def fetch (s : State) : Except Fault Word :=
  if s.pc.toNat % 4 ≠ 0 then .error (.instructionAddressMisaligned s.pc)
  else if accessValid s.cfg s.pc 4 = false then .error (.instructionAccessFault s.pc)
  else if accessStored s s.pc 4 then .error (.fetchAfterStore s.pc)
  else .ok (s.instAt s.pc)

/-- One byte placed by the loader: memory holds it, and it is no byte that a store of this run has written. -/
def State.loadByte (s : State) (a : Nat) (v : Byte) : State :=
  { s with mem := s.mem.write a v, stored := s.stored.filter (fun k => k != a) }

/-- Bytes placed by the loader from `addr` on (70_reset_and_hazards.md R241). -/
def State.loadBytes (s : State) (addr : Word) : List Byte → State
  | [] => s
  | b :: bs => State.loadBytes (s.loadByte addr.toNat b) (addr + 1#32) bs

/-- A word placed by the loader, little-endian (70_reset_and_hazards.md R241). -/
def State.loadWord (s : State) (addr : Word) (w : Word) : State := s.loadBytes addr (bytesOfWord w)

end Sys2Proof.Machine
end

