-- ==== Sys2Proof/Machine/Step.lean ====
section
/-! DEFINITION. The step (70_reset_and_hazards.md R245), and a state whose next fetch reads a given instruction. -/

namespace Sys2Proof.Machine

/-- One step: fetch at `pc`, decode, execute; the first of them to raise decides the outcome (70_reset_and_hazards.md R245;
60_exceptions.md R215, R225). -/
def step (s : State) : Host.Outcome State Fault Refusal :=
  match fetch s with
  | .error e => raise e
  | .ok inst =>
    match decode s.cfg inst with
    | .error _ => raise (.illegalInstruction inst)
    | .ok i => exec i s

/-- The state with the instruction of `nbits` bits `w`, numbered as spec/opcode_table.json numbers them, placed at `pc` as the
loader would place it (70_reset_and_hazards.md R241; log entry 6): every bit above `nbits` is 0. -/
def State.withFetchWord (s : State) (nbits w : Nat) : State := s.loadWord s.pc (BitVec.ofNat 32 (w % 2 ^ nbits))

end Sys2Proof.Machine
end

