-- ==== Sys2Proof/Safety.lean ====
section
/-! DEFINITION. The terms in which claims about the machine are made: what an instruction reads, writes, stores and may raise
as the rules of spec/ give it, what a next state leaves unchanged, the invariant of a state, and a run and its end
(70_reset_and_hazards.md R242). -/

namespace Sys2Proof.Machine

/-! ## What an instruction names -/

/-- `rd`, for an instruction whose format has it as a register number (30_encoding.md R71). -/
def destOf : Instr → Option Reg
  | .lb rd _ _ | .lh rd _ _ | .lw rd _ _ | .lbu rd _ _ | .lhu rd _ _ => some rd
  | .addi rd _ _ | .slli rd _ _ | .slti rd _ _ | .sltiu rd _ _ | .xori rd _ _ | .srli rd _ _ | .srai rd _ _ | .ori rd _ _
  | .andi rd _ _ => some rd
  | .auipc rd _ | .lui rd _ | .jal rd _ | .jalr rd _ _ => some rd
  | .add rd _ _ | .sub rd _ _ | .sll rd _ _ | .slt rd _ _ | .sltu rd _ _ | .xor rd _ _ | .srl rd _ _ | .sra rd _ _
  | .or rd _ _ | .and rd _ _ => some rd
  | .sb _ _ _ | .sh _ _ _ | .sw _ _ _ | .beq _ _ _ | .bne _ _ _ | .blt _ _ _ | .bge _ _ _ | .bltu _ _ _ | .bgeu _ _ _
  | .fence _ _ _ _ _ | .ecall | .ebreak => none

/-- `rs1` and `rs2`, where the format has them as register numbers (30_encoding.md R71). -/
def sourcesOf : Instr → List Reg
  | .lb _ _ rs1 | .lh _ _ rs1 | .lw _ _ rs1 | .lbu _ _ rs1 | .lhu _ _ rs1 => [rs1]
  | .addi _ rs1 _ | .slli _ rs1 _ | .slti _ rs1 _ | .sltiu _ rs1 _ | .xori _ rs1 _ | .srli _ rs1 _ | .srai _ rs1 _
  | .ori _ rs1 _ | .andi _ rs1 _ | .jalr _ rs1 _ => [rs1]
  | .sb rs2 _ rs1 | .sh rs2 _ rs1 | .sw rs2 _ rs1 => [rs2, rs1]
  | .add _ rs1 rs2 | .sub _ rs1 rs2 | .sll _ rs1 rs2 | .slt _ rs1 rs2 | .sltu _ rs1 rs2 | .xor _ rs1 rs2 | .srl _ rs1 rs2
  | .sra _ rs1 rs2 | .or _ rs1 rs2 | .and _ rs1 rs2 => [rs1, rs2]
  | .beq rs1 rs2 _ | .bne rs1 rs2 _ | .blt rs1 rs2 _ | .bge rs1 rs2 _ | .bltu rs1 rs2 _ | .bgeu rs1 rs2 _ => [rs1, rs2]
  | .auipc _ _ | .lui _ _ | .jal _ _ | .fence _ _ _ _ _ | .ecall | .ebreak => []

/-- The same instruction with another `rd`, where it has one. -/
def withDest (d : Reg) : Instr → Instr
  | .lb _ imm rs1 => .lb d imm rs1
  | .lh _ imm rs1 => .lh d imm rs1
  | .lw _ imm rs1 => .lw d imm rs1
  | .lbu _ imm rs1 => .lbu d imm rs1
  | .lhu _ imm rs1 => .lhu d imm rs1
  | .addi _ rs1 imm => .addi d rs1 imm
  | .slli _ rs1 uimm => .slli d rs1 uimm
  | .slti _ rs1 imm => .slti d rs1 imm
  | .sltiu _ rs1 imm => .sltiu d rs1 imm
  | .xori _ rs1 imm => .xori d rs1 imm
  | .srli _ rs1 uimm => .srli d rs1 uimm
  | .srai _ rs1 uimm => .srai d rs1 uimm
  | .ori _ rs1 imm => .ori d rs1 imm
  | .andi _ rs1 imm => .andi d rs1 imm
  | .auipc _ upimm => .auipc d upimm
  | .sb rs2 imm rs1 => .sb rs2 imm rs1
  | .sh rs2 imm rs1 => .sh rs2 imm rs1
  | .sw rs2 imm rs1 => .sw rs2 imm rs1
  | .add _ rs1 rs2 => .add d rs1 rs2
  | .sub _ rs1 rs2 => .sub d rs1 rs2
  | .sll _ rs1 rs2 => .sll d rs1 rs2
  | .slt _ rs1 rs2 => .slt d rs1 rs2
  | .sltu _ rs1 rs2 => .sltu d rs1 rs2
  | .xor _ rs1 rs2 => .xor d rs1 rs2
  | .srl _ rs1 rs2 => .srl d rs1 rs2
  | .sra _ rs1 rs2 => .sra d rs1 rs2
  | .or _ rs1 rs2 => .or d rs1 rs2
  | .and _ rs1 rs2 => .and d rs1 rs2
  | .lui _ upimm => .lui d upimm
  | .beq rs1 rs2 offset => .beq rs1 rs2 offset
  | .bne rs1 rs2 offset => .bne rs1 rs2 offset
  | .blt rs1 rs2 offset => .blt rs1 rs2 offset
  | .bge rs1 rs2 offset => .bge rs1 rs2 offset
  | .bltu rs1 rs2 offset => .bltu rs1 rs2 offset
  | .bgeu rs1 rs2 offset => .bgeu rs1 rs2 offset
  | .jalr _ rs1 imm => .jalr d rs1 imm
  | .jal _ offset => .jal d offset
  | .fence fm pred succ rs1 rd => .fence fm pred succ rs1 rd
  | .ecall => .ecall
  | .ebreak => .ebreak

/-- The instruction sets `pc` to its target: a jump, or a branch whose condition holds (46_branches.md R182 to R187). -/
def Taken (s : State) : Instr → Prop
  | .beq rs1 rs2 _ => s.reg rs1 = s.reg rs2
  | .bne rs1 rs2 _ => s.reg rs1 ≠ s.reg rs2
  | .blt rs1 rs2 _ => (s.reg rs1).toInt < (s.reg rs2).toInt
  | .bge rs1 rs2 _ => (s.reg rs2).toInt ≤ (s.reg rs1).toInt
  | .bltu rs1 rs2 _ => (s.reg rs1).toNat < (s.reg rs2).toNat
  | .bgeu rs1 rs2 _ => (s.reg rs2).toNat ≤ (s.reg rs1).toNat
  | .jalr _ _ _ | .jal _ _ => True
  | .lb _ _ _ | .lh _ _ _ | .lw _ _ _ | .lbu _ _ _ | .lhu _ _ _
  | .addi _ _ _ | .slli _ _ _ | .slti _ _ _ | .sltiu _ _ _ | .xori _ _ _ | .srli _ _ _ | .srai _ _ _ | .ori _ _ _
  | .andi _ _ _ | .auipc _ _ | .sb _ _ _ | .sh _ _ _ | .sw _ _ _
  | .add _ _ _ | .sub _ _ _ | .sll _ _ _ | .slt _ _ _ | .sltu _ _ _ | .xor _ _ _ | .srl _ _ _ | .sra _ _ _
  | .or _ _ _ | .and _ _ _ | .lui _ _ | .fence _ _ _ _ _ | .ecall | .ebreak => False

/-! ## Addresses and accesses, in plain arithmetic -/

/-- `(addr + i) mod 2^32` (20_memory.md R44). -/
def nthByte (addr : Word) (i : Nat) : Nat := (addr.toNat + i) % 2 ^ 32

/-- A sum modulo 2^32 of a value and a signed immediate (00_scope.md R9; 20_memory.md R41). -/
def plusSigned (a : Word) (d : Int) : Word := BitVec.ofInt 32 ((a.toNat : Int) + d)

/-- The target of `jalr` in plain arithmetic: the sum, made even when `JALR_CLEAR_BIT0` (47_jumps.md R191). -/
def jalrTo (s : State) (rs1 : Reg) (imm : BitVec 12) : Word :=
  let t := plusSigned (s.reg rs1) imm.toInt
  if s.cfg.jalrClearBit0 then BitVec.ofNat 32 (t.toNat - t.toNat % 2) else t

/-- The access of `n` bytes is aligned, or `MISALIGNED_DATA` = `split` skips the check (20_memory.md R43). -/
def AlignmentOk (s : State) (addr : Word) (n : Nat) : Prop := s.cfg.misalignedData = .fault → addr.toNat % n = 0

/-- Every byte of the access is in `MEM_VALID` (20_memory.md R50). -/
def InMemory (s : State) (addr : Word) (n : Nat) : Prop := ∀ i < n, validAt s.cfg (nthByte addr i) = true

/-- Some byte of the access was written by a store of this run (20_memory.md R46). -/
def WrittenByStore (s : State) (addr : Word) (n : Nat) : Prop := ∃ i < n, nthByte addr i ∈ s.stored

/-! ## What a next state leaves unchanged -/

/-- Every register is as before but `rd`, which holds `v` unless it is `x0`. -/
def WritesReg (s t : State) (rd : Reg) (v : Word) : Prop := ∀ r : Reg, t.reg r = if r = rd ∧ r ≠ 0 then v else s.reg r

/-- Every register is as before. -/
def SameRegs (s t : State) : Prop := ∀ r : Reg, t.reg r = s.reg r

/-- Every byte of memory, the record of stored bytes and the parameters are as before. -/
def SameMemory (s t : State) : Prop := (∀ a : Nat, t.byteAt a = s.byteAt a) ∧ t.stored = s.stored ∧ t.cfg = s.cfg

/-- `x[rd] <- v; pc <- next`, and nothing else. -/
def OnlyRdAndPc (s t : State) (rd : Reg) (v next : Word) : Prop := WritesReg s t rd v ∧ t.pc = next ∧ SameMemory s t

/-- `pc <- next`, and nothing else. -/
def OnlyPc (s t : State) (next : Word) : Prop := SameRegs s t ∧ t.pc = next ∧ SameMemory s t

/-- The `n` bytes from `addr` on become the low bytes of `v`, bits 7:0 first; every other byte, every register and the
parameters are as before; `pc` advances; and the record of stored bytes gains exactly those addresses. -/
def OnlyStored (s t : State) (addr : Word) (n : Nat) (v : Word) : Prop :=
  SameRegs s t ∧ t.pc = s.pc + 4#32 ∧ t.cfg = s.cfg ∧
  (∀ i < n, t.byteAt (nthByte addr i) = v.extractLsb' (8 * i) 8) ∧
  (∀ a : Nat, (∀ i < n, a ≠ nthByte addr i) → t.byteAt a = s.byteAt a) ∧
  (∀ a : Nat, a ∈ t.stored ↔ a ∈ s.stored ∨ ∃ i < n, a = nthByte addr i)

/-- The word `w` is the encoding of `i` under every setting of the parameters in which `i` has one. -/
def EncodedAs (i : Instr) (w : Word) : Prop := ∀ c : Config, i.wf c = true → decode c w = .ok i

/-- Two states agree but for `x16` to `x31`, the registers that RV32-E lacks (10_state.md R28). -/
def AgreeBelow16 (s t : State) : Prop :=
  (∀ r : Reg, r.val < 16 → s.reg r = t.reg r) ∧ s.pc = t.pc ∧ s.mem = t.mem ∧ s.stored = t.stored ∧ s.cfg = t.cfg

/-- Two outcomes agree but for the registers: the same fault, or next states that differ in the registers alone. -/
def AgreeButRegs (x y : Result) : Prop :=
  match x, y with
  | .next t, .next u => t.pc = u.pc ∧ t.mem = u.mem ∧ t.stored = u.stored ∧ t.cfg = u.cfg
  | .fault f, .fault g => f = g
  | .next _, .fault _ | .fault _, .next _ | .refused _, _ | _, .refused _ => False

/-! ## Exceptions of an instruction (60_exceptions.md R212) -/

/-- The load or store of `n` bytes at `addr` raises `misaligned` or, aligned, `access` (20_memory.md R44, R45). -/
def AccessRaises (s : State) (addr : Word) (n : Nat) (misaligned access f : Fault) : Prop :=
  (f = misaligned ∧ ¬ AlignmentOk s addr n) ∨ (f = access ∧ AlignmentOk s addr n ∧ ¬ InMemory s addr n)

/-- A taken transfer of 13- or 21-bit offset raises: the offset's bit 1 is set (46_branches.md R181; 47_jumps.md R192). -/
def TargetRaises (target : Word) (bit1 : Bool) (f : Fault) : Prop := bit1 = true ∧ f = .instructionAddressMisaligned target

/-- The exception, with its info, that an instruction raises once decoded, and the condition (60_exceptions.md R210, R212), at
a `pc` that is a multiple of 4. -/
def Raises (s : State) (f : Fault) : Instr → Prop
  | .lb _ imm rs1 | .lbu _ imm rs1 =>
    let a := plusSigned (s.reg rs1) imm.toInt
    f = .loadAccessFault a ∧ ¬ InMemory s a 1
  | .lh _ imm rs1 | .lhu _ imm rs1 =>
    let a := plusSigned (s.reg rs1) imm.toInt
    AccessRaises s a 2 (.loadAddressMisaligned a) (.loadAccessFault a) f
  | .lw _ imm rs1 =>
    let a := plusSigned (s.reg rs1) imm.toInt
    AccessRaises s a 4 (.loadAddressMisaligned a) (.loadAccessFault a) f
  | .sb _ imm rs1 =>
    let a := plusSigned (s.reg rs1) imm.toInt
    f = .storeAccessFault a ∧ ¬ InMemory s a 1
  | .sh _ imm rs1 =>
    let a := plusSigned (s.reg rs1) imm.toInt
    AccessRaises s a 2 (.storeAddressMisaligned a) (.storeAccessFault a) f
  | .sw _ imm rs1 =>
    let a := plusSigned (s.reg rs1) imm.toInt
    AccessRaises s a 4 (.storeAddressMisaligned a) (.storeAccessFault a) f
  | .beq rs1 rs2 o => s.reg rs1 = s.reg rs2 ∧ TargetRaises (plusSigned s.pc o.toInt) (o.getLsbD 1) f
  | .bne rs1 rs2 o => s.reg rs1 ≠ s.reg rs2 ∧ TargetRaises (plusSigned s.pc o.toInt) (o.getLsbD 1) f
  | .blt rs1 rs2 o => (s.reg rs1).toInt < (s.reg rs2).toInt ∧ TargetRaises (plusSigned s.pc o.toInt) (o.getLsbD 1) f
  | .bge rs1 rs2 o => (s.reg rs2).toInt ≤ (s.reg rs1).toInt ∧ TargetRaises (plusSigned s.pc o.toInt) (o.getLsbD 1) f
  | .bltu rs1 rs2 o => (s.reg rs1).toNat < (s.reg rs2).toNat ∧ TargetRaises (plusSigned s.pc o.toInt) (o.getLsbD 1) f
  | .bgeu rs1 rs2 o => (s.reg rs2).toNat ≤ (s.reg rs1).toNat ∧ TargetRaises (plusSigned s.pc o.toInt) (o.getLsbD 1) f
  | .jal _ o => TargetRaises (plusSigned s.pc o.toInt) (o.getLsbD 1) f
  | .jalr _ rs1 imm => (jalrTo s rs1 imm).toNat % 4 ≠ 0 ∧ f = .instructionAddressMisaligned (jalrTo s rs1 imm)
  | .ecall => f = .environmentCall s.pc
  | .ebreak => f = .breakpoint s.pc
  | .addi _ _ _ | .slli _ _ _ | .slti _ _ _ | .sltiu _ _ _ | .xori _ _ _ | .srli _ _ _ | .srai _ _ _ | .ori _ _ _
  | .andi _ _ _ | .auipc _ _ | .add _ _ _ | .sub _ _ _ | .sll _ _ _ | .slt _ _ _ | .sltu _ _ _ | .xor _ _ _ | .srl _ _ _
  | .sra _ _ _ | .or _ _ _ | .and _ _ _ | .lui _ _ | .fence _ _ _ _ _ => False

/-! ## The invariant -/

/-- What every reachable state has: `pc` is a multiple of 4 (10_state.md R26), memory and the record of stored bytes are in
their one form, and both list bytes of `MEM_VALID` only (10_state.md R32, R35). -/
def State.inv (s : State) : Bool :=
  s.pc.toNat % 4 == 0 && s.mem.wf && s.stored.wf && s.mem.all (fun c => validAt s.cfg c.1) && s.stored.all (validAt s.cfg)

/-! ## Runs (70_reset_and_hazards.md R242) -/

/-- How far a run has come: still going, or ended at a state whose step raised a fault. -/
inductive RunEnd
  /-- Every step so far answered a next state; the last one is this. -/
  | running (s : State)
  /-- The step at this state raised the fault: the final state of the run (60_exceptions.md R214). -/
  | ended (s : State) (f : Fault)
  /-- The step at this state was refused; no step of this machine is. -/
  | refused (s : State) (r : Refusal)
deriving DecidableEq, Repr

/-- A run of at most `k` steps. It ends at the first fault (70_reset_and_hazards.md R242). -/
def run : Nat → State → RunEnd
  | 0, s => .running s
  | k + 1, s =>
    match step s with
    | .next t => run k t
    | .fault f => .ended s f
    | .refused r => .refused s r

/-- The state is reached from the other by steps. -/
def Reaches (s t : State) : Prop := ∃ k : Nat, run k s = .running t

/-- The fault that counts as the normal end of a run (70_reset_and_hazards.md R242). -/
def isNormalEnd : Fault → Bool
  | .environmentCall _ => true
  | .instructionAddressMisaligned _ | .instructionAccessFault _ | .illegalInstruction _ | .breakpoint _
  | .loadAddressMisaligned _ | .loadAccessFault _ | .storeAddressMisaligned _ | .storeAccessFault _ | .fetchAfterStore _ => false

/-- The bytes an instruction stores: addresses and values, by 43_stores.md R150 to R153. -/
def storesOf (s : State) : Instr → List (Nat × Byte)
  | .sb rs2 imm rs1 => [(nthByte (plusSigned (s.reg rs1) imm.toInt) 0, (s.reg rs2).extractLsb' 0 8)]
  | .sh rs2 imm rs1 =>
    (List.range 2).map (fun i => (nthByte (plusSigned (s.reg rs1) imm.toInt) i, (s.reg rs2).extractLsb' (8 * i) 8))
  | .sw rs2 imm rs1 =>
    (List.range 4).map (fun i => (nthByte (plusSigned (s.reg rs1) imm.toInt) i, (s.reg rs2).extractLsb' (8 * i) 8))
  | .lb _ _ _ | .lh _ _ _ | .lw _ _ _ | .lbu _ _ _ | .lhu _ _ _
  | .addi _ _ _ | .slli _ _ _ | .slti _ _ _ | .sltiu _ _ _ | .xori _ _ _ | .srli _ _ _ | .srai _ _ _ | .ori _ _ _
  | .andi _ _ _ | .auipc _ _ | .add _ _ _ | .sub _ _ _ | .sll _ _ _ | .slt _ _ _ | .sltu _ _ _ | .xor _ _ _ | .srl _ _ _
  | .sra _ _ _ | .or _ _ _ | .and _ _ _ | .lui _ _ | .beq _ _ _ | .bne _ _ _ | .blt _ _ _ | .bge _ _ _ | .bltu _ _ _
  | .bgeu _ _ _ | .jalr _ _ _ | .jal _ _ | .fence _ _ _ _ _ | .ecall | .ebreak => []

/-- The bytes that the step at a state stores, if it completes. -/
def stepStores (s : State) : List (Nat × Byte) :=
  match fetch s with
  | .error _ => []
  | .ok inst =>
    match decode s.cfg inst with
    | .error _ => []
    | .ok i => storesOf s i

/-- The bytes that the first `k` steps of a run store, in program order, the earliest first. -/
def runStores : Nat → State → List (Nat × Byte)
  | 0, _ => []
  | k + 1, s =>
    match step s with
    | .next t => stepStores s ++ runStores k t
    | .fault _ | .refused _ => []

/-- The value the latest of the listed stores gave a byte, if one did. -/
def latestStore (l : List (Nat × Byte)) (a : Nat) : Option Byte :=
  l.foldl (fun v c => if c.1 = a then some c.2 else v) none

end Sys2Proof.Machine
end

