-- ==== Sys2Proof/Certificates/Slice0/Obligations.lean ====
section
/-! DEFINITION. The statements for the provers: what the numbered rules of spec/ say the machine does. -/

open Sys2Proof Sys2Proof.Machine

/-! ## Reset and the invariant -/

/-- R240: after reset `pc` = `RESET_PC`, a multiple of 4; `x0` = 0; `x1` to `x31` hold the start state's values, whatever they
are; every byte of `MEM_VALID` holds the value the start state gives it. -/
def Obligations.StartStateFollowsReset : Prop :=
  ∀ (c : Config) (regs : Vector Word 31) (mem : Memory), c.wf = true →
    (State.start c regs mem).pc = c.resetPc ∧ c.resetPc.toNat % 4 = 0 ∧
    (State.start c regs mem).reg 0 = 0#32 ∧
    (∀ k : Fin 31, (State.start c regs mem).reg k.succ = regs.get k) ∧
    (∀ a : Nat, validAt c a = true → (State.start c regs mem).byteAt a = mem.read a)

/-- The invariant holds at reset, whose register and memory values are the model's choice (log entries 2, 3, 4), and at every
start state of legal parameters and a canonical memory inside `MEM_VALID`. -/
def Obligations.ResetSatisfiesInvariant : Prop :=
  State.reset.inv = true ∧
  ∀ (c : Config) (regs : Vector Word 31) (mem : Memory), c.wf = true → mem.wf = true →
    (∀ cell ∈ mem, validAt c cell.1 = true) → (State.start c regs mem).inv = true

/-- Every step keeps the invariant: `pc` a multiple of 4 (R26), memory and the record of stored bytes in their one form, both
inside `MEM_VALID` (R32, R35, R50). -/
def Obligations.StepKeepsInvariant : Prop :=
  ∀ s t : State, s.inv = true → step s = .next t → t.inv = true

/-- R26: `pc` is a multiple of 4 in every state reached from a start state whose `RESET_PC` is; a step keeps it so; fetch
checks it anyway; and a taken branch or a jump to any other target raises. -/
def Obligations.ProgramCounterStaysAligned : Prop :=
  (∀ (c : Config) (regs : Vector Word 31) (mem : Memory) (s : State), c.resetPc.toNat % 4 = 0 →
    Reaches (State.start c regs mem) s → s.pc.toNat % 4 = 0) ∧
  (∀ s t : State, s.pc.toNat % 4 = 0 → step s = .next t → t.pc.toNat % 4 = 0) ∧
  (∀ s : State, s.pc.toNat % 4 ≠ 0 → step s = .fault (.instructionAddressMisaligned s.pc)) ∧
  (∀ (s : State) (rs1 rs2 : Reg) (o : BitVec 13), let target := plusSigned s.pc o.toInt
    ∀ i ∈ [Instr.beq rs1 rs2 o, .bne rs1 rs2 o, .blt rs1 rs2 o, .bge rs1 rs2 o, .bltu rs1 rs2 o, .bgeu rs1 rs2 o],
      Taken s i → target.toNat % 4 ≠ 0 → exec i s = .fault (.instructionAddressMisaligned target)) ∧
  (∀ (s : State) (rd rs1 : Reg) (o : BitVec 21) (imm : BitVec 12),
    ((plusSigned s.pc o.toInt).toNat % 4 ≠ 0 →
      exec (.jal rd o) s = .fault (.instructionAddressMisaligned (plusSigned s.pc o.toInt))) ∧
    ((jalrTo s rs1 imm).toNat % 4 ≠ 0 → exec (.jalr rd rs1 imm) s = .fault (.instructionAddressMisaligned (jalrTo s rs1 imm))))

/-! ## Encoding -/

/-- Decoding the encoding of a well-formed instruction, as a word or as the four bytes memory holds, gives the instruction,
under every setting of the parameters. -/
def Obligations.DecodeOfEncode : Prop :=
  ∀ (c : Config) (i : Instr), i.wf c = true →
    decode c (encode c i) = .ok i ∧ decodeBytes c (bytesOfWord (encode c i)) = .ok (i, [])

/-- A word the decoder accepts is the encoding of the instruction it gives, which is well-formed: no bit of the word is
dropped, and no word matches two rows (R103). -/
def Obligations.EncodeOfDecode : Prop :=
  ∀ (c : Config) (w : Word) (i : Instr), decode c w = .ok i → i.wf c = true ∧ encode c i = w

/-- A few words of spec/ decode to the instruction they stand for: those of the examples of the instruction rules, and
`srai x5, x6, 31` by the I-TYPE layout and the shift row of 30_encoding.md (its word is in 95_test_vectors.md L2.2). -/
def Obligations.SampleWordsDecode : Prop :=
  decode Config.default 0xFFF50283#32 = .ok (.lb 5 0xFFF#12 10) ∧
  decode Config.default 0xFE512E23#32 = .ok (.sw 5 0xFFC#12 2) ∧
  decode Config.default 0x41F35293#32 = .ok (.srai 5 6 31#5) ∧
  decode Config.default 0x402081B3#32 = .ok (.sub 3 1 2) ∧
  decode Config.default 0xFE209EE3#32 = .ok (.bne 1 2 0x1FFC#13) ∧
  decode Config.default 0xFF9FF06F#32 = .ok (.jal 0 0x1FFFF8#21) ∧
  decode Config.default 0x8330000F#32 = .ok (.fence 8#4 3#4 3#4 0#5 0#5)

/-- Where each field of the six formats stands in the word (30_encoding.md §1; the bit order of the I-TYPE immediate is an
inference the spec marks as its own). -/
def Obligations.FormatLayouts : Prop :=
  (∀ (f7 : BitVec 7) (rs2 rs1 rd : Reg) (f3 : BitVec 3) (op : BitVec 7), let w := encodeR f7 rs2 rs1 f3 rd op
    w.extractLsb' 25 7 = f7 ∧ (w.extractLsb' 20 5).toNat = rs2.val ∧ (w.extractLsb' 15 5).toNat = rs1.val ∧
    w.extractLsb' 12 3 = f3 ∧ (w.extractLsb' 7 5).toNat = rd.val ∧ w.extractLsb' 0 7 = op) ∧
  (∀ (imm : BitVec 12) (rs1 rd : Reg) (f3 : BitVec 3) (op : BitVec 7), let w := encodeI imm rs1 f3 rd op
    w.extractLsb' 20 12 = imm ∧ (w.extractLsb' 15 5).toNat = rs1.val ∧ w.extractLsb' 12 3 = f3 ∧
    (w.extractLsb' 7 5).toNat = rd.val ∧ w.extractLsb' 0 7 = op) ∧
  (∀ (imm : BitVec 12) (rs2 rs1 : Reg) (f3 : BitVec 3) (op : BitVec 7), let w := encodeS imm rs2 rs1 f3 op
    w.extractLsb' 25 7 = imm.extractLsb' 5 7 ∧ (w.extractLsb' 20 5).toNat = rs2.val ∧ (w.extractLsb' 15 5).toNat = rs1.val ∧
    w.extractLsb' 12 3 = f3 ∧ w.extractLsb' 7 5 = imm.extractLsb' 0 5 ∧ w.extractLsb' 0 7 = op) ∧
  (∀ (o : BitVec 13) (rs2 rs1 : Reg) (f3 : BitVec 3) (op : BitVec 7), let w := encodeB o rs2 rs1 f3 op
    w.extractLsb' 31 1 = o.extractLsb' 12 1 ∧ w.extractLsb' 25 6 = o.extractLsb' 5 6 ∧
    (w.extractLsb' 20 5).toNat = rs2.val ∧ (w.extractLsb' 15 5).toNat = rs1.val ∧ w.extractLsb' 12 3 = f3 ∧
    w.extractLsb' 8 4 = o.extractLsb' 1 4 ∧ w.extractLsb' 7 1 = o.extractLsb' 11 1 ∧ w.extractLsb' 0 7 = op) ∧
  (∀ (u : BitVec 20) (rd : Reg) (op : BitVec 7), let w := encodeU u rd op
    w.extractLsb' 12 20 = u ∧ (w.extractLsb' 7 5).toNat = rd.val ∧ w.extractLsb' 0 7 = op) ∧
  (∀ (o : BitVec 21) (rd : Reg) (op : BitVec 7), let w := encodeJ o rd op
    w.extractLsb' 31 1 = o.extractLsb' 20 1 ∧ w.extractLsb' 21 10 = o.extractLsb' 1 10 ∧
    w.extractLsb' 20 1 = o.extractLsb' 11 1 ∧ w.extractLsb' 12 8 = o.extractLsb' 12 8 ∧
    (w.extractLsb' 7 5).toNat = rd.val ∧ w.extractLsb' 0 7 = op)

/-- R80 to R84: the bits of the five immediates and their ranges. -/
def Obligations.ImmediateBits : Prop :=
  ∀ w : Word,
    (∀ k < 32, (immI (immIField w)).getLsbD k = if k ≤ 10 then w.getLsbD (k + 20) else w.getLsbD 31) ∧
    (∀ k < 32, (immS (immSField w)).getLsbD k =
      if k ≤ 4 then w.getLsbD (k + 7) else if k ≤ 10 then w.getLsbD (k + 20) else w.getLsbD 31) ∧
    (∀ k < 32, (immB (immBField w)).getLsbD k =
      if k = 0 then false else if k ≤ 4 then w.getLsbD (k + 7) else if k ≤ 10 then w.getLsbD (k + 20)
      else if k = 11 then w.getLsbD 7 else w.getLsbD 31) ∧
    (∀ k < 32, (immU (immUField w)).getLsbD k = if k ≤ 11 then false else w.getLsbD k) ∧
    (∀ k < 32, (immJ (immJField w)).getLsbD k =
      if k = 0 then false else if k ≤ 10 then w.getLsbD (k + 20) else if k = 11 then w.getLsbD 20
      else if k ≤ 19 then w.getLsbD k else w.getLsbD 31) ∧
    (-2048 ≤ (immI (immIField w)).toInt ∧ (immI (immIField w)).toInt ≤ 2047) ∧
    (-2048 ≤ (immS (immSField w)).toInt ∧ (immS (immSField w)).toInt ≤ 2047) ∧
    (-4096 ≤ (immB (immBField w)).toInt ∧ (immB (immBField w)).toInt ≤ 4094 ∧ (immB (immBField w)).toInt % 2 = 0) ∧
    (-1048576 ≤ (immJ (immJField w)).toInt ∧ (immJ (immJField w)).toInt ≤ 1048574 ∧ (immJ (immJField w)).toInt % 2 = 0)

/-- R104: a word that the decoder maps to no instruction raises `IllegalInstruction` with the word. Among these words, under
every setting of the parameters: every word whose low two bits are not 11 (so the all-zero word), every word of an `op` that
R88 and R102 do not list, the all-one word, and the unused `func3` and `func7` values of R93, R94, R96, R97, R99 (under each value of `BRANCH_FUNC3`),
R100, R102. -/
def Obligations.UnlistedWordsAreIllegal : Prop :=
  (∀ (s : State) (w : Word), fetch s = .ok w → (∀ i, decode s.cfg w ≠ .ok i) → step s = .fault (.illegalInstruction w)) ∧
  ∀ (c : Config) (w : Word),
    (w.extractLsb' 0 2 ≠ 0b11#2 ∨ w = 0xFFFFFFFF#32 ∨
      w.extractLsb' 0 7 ∉ [3#7, 19#7, 23#7, 35#7, 51#7, 55#7, 99#7, 103#7, 111#7, 15#7, 115#7] ∨
      (w.extractLsb' 0 7 = 3#7 ∧ w.extractLsb' 12 3 ∈ [3#3, 6#3, 7#3]) ∨
      (w.extractLsb' 0 7 = 19#7 ∧ w.extractLsb' 12 3 = 1#3 ∧ w.extractLsb' 25 7 ≠ 0#7) ∨
      (w.extractLsb' 0 7 = 19#7 ∧ w.extractLsb' 12 3 = 5#3 ∧ w.extractLsb' 25 7 ∉ [0#7, 0b0100000#7]) ∨
      (w.extractLsb' 0 7 = 35#7 ∧ w.extractLsb' 12 3 ∉ [0#3, 1#3, 2#3]) ∨
      (w.extractLsb' 0 7 = 51#7 ∧ w.extractLsb' 25 7 ∉ [0#7, 0b0100000#7]) ∨
      (w.extractLsb' 0 7 = 51#7 ∧ w.extractLsb' 25 7 = 0b0100000#7 ∧ w.extractLsb' 12 3 ∉ [0#3, 5#3]) ∨
      (w.extractLsb' 0 7 = 99#7 ∧ c.branchFunc3 = .ratified ∧ w.extractLsb' 12 3 ∈ [2#3, 3#3]) ∨
      (w.extractLsb' 0 7 = 99#7 ∧ c.branchFunc3 = .asPrinted ∧ w.extractLsb' 12 3 ∈ [6#3, 7#3]) ∨
      (w.extractLsb' 0 7 = 103#7 ∧ w.extractLsb' 12 3 ≠ 0#3) ∨
      (w.extractLsb' 0 7 = 15#7 ∧ w.extractLsb' 12 3 ≠ 0#3) ∨
      (w.extractLsb' 0 7 = 115#7 ∧ w ≠ 0x00000073#32 ∧ w ≠ 0x00100073#32)) →
    ∀ i, decode c w ≠ .ok i

/-- R28: with `NREGS` = 16 the legal words are those of RV32I that use no register number of 16 or more; the execution of an
instruction is the same; and the default is 32. -/
def Obligations.Rv32eIsRv32iWithoutHighRegisters : Prop :=
  Config.default.nregs = 32 ∧
  (∀ (c : Config) (w : Word) (i : Instr), decode { c with baseIsa := .rv32e } w = .ok i ↔
    decode { c with baseIsa := .rv32i } w = .ok i ∧ ∀ r ∈ i.registers, r.val < 16) ∧
  (∀ (i : Instr) (s : State) (b : BaseIsa),
    (∀ t, exec i s = .next t →
      exec i { s with cfg := { s.cfg with baseIsa := b } } = .next { t with cfg := { t.cfg with baseIsa := b } }) ∧
    (∀ f, exec i s = .fault f → exec i { s with cfg := { s.cfg with baseIsa := b } } = .fault f))

/-- R99: the six branches by `func3` under both values of `BRANCH_FUNC3`, and the two values that are illegal under each. -/
def Obligations.BranchFunc3Tables : Prop :=
  ∀ (c : Config) (w : Word), w.extractLsb' 0 7 = 0b1100011#7 → (rs1Field w).val < c.nregs → (rs2Field w).val < c.nregs →
    (w.extractLsb' 12 3 = 0b000#3 → decode c w = .ok (.beq (rs1Field w) (rs2Field w) (immBField w))) ∧
    (w.extractLsb' 12 3 = 0b001#3 → decode c w = .ok (.bne (rs1Field w) (rs2Field w) (immBField w))) ∧
    (c.branchFunc3 = .ratified →
      (w.extractLsb' 12 3 = 0b100#3 → decode c w = .ok (.blt (rs1Field w) (rs2Field w) (immBField w))) ∧
      (w.extractLsb' 12 3 = 0b101#3 → decode c w = .ok (.bge (rs1Field w) (rs2Field w) (immBField w))) ∧
      (w.extractLsb' 12 3 = 0b110#3 → decode c w = .ok (.bltu (rs1Field w) (rs2Field w) (immBField w))) ∧
      (w.extractLsb' 12 3 = 0b111#3 → decode c w = .ok (.bgeu (rs1Field w) (rs2Field w) (immBField w))) ∧
      (w.extractLsb' 12 3 ∈ [0b010#3, 0b011#3] → ∀ i, decode c w ≠ .ok i)) ∧
    (c.branchFunc3 = .asPrinted →
      (w.extractLsb' 12 3 = 0b010#3 → decode c w = .ok (.blt (rs1Field w) (rs2Field w) (immBField w))) ∧
      (w.extractLsb' 12 3 = 0b011#3 → decode c w = .ok (.bge (rs1Field w) (rs2Field w) (immBField w))) ∧
      (w.extractLsb' 12 3 = 0b100#3 → decode c w = .ok (.bltu (rs1Field w) (rs2Field w) (immBField w))) ∧
      (w.extractLsb' 12 3 = 0b101#3 → decode c w = .ok (.bgeu (rs1Field w) (rs2Field w) (immBField w))) ∧
      (w.extractLsb' 12 3 ∈ [0b110#3, 0b111#3] → ∀ i, decode c w ≠ .ok i))

/-- R102: with `ADMIT_SUPPLEMENT`, `fence` is `op` 0001111 with `func3` 000 and any other 22 bits, and `ecall` and `ebreak` are
one word each; without it, no word is any of them and every other word decodes as before. -/
def Obligations.SupplementIsSwitchable : Prop :=
  ∀ (c : Config) (w : Word),
    (c.admitSupplement = true → w.extractLsb' 0 7 = 0b0001111#7 → w.extractLsb' 12 3 = 0b000#3 →
      decode c w = .ok (.fence (w.extractLsb' 28 4) (w.extractLsb' 24 4) (w.extractLsb' 20 4) (w.extractLsb' 15 5)
        (w.extractLsb' 7 5))) ∧
    (c.admitSupplement = true → decode c 0x00000073#32 = .ok .ecall ∧ decode c 0x00100073#32 = .ok .ebreak) ∧
    (c.admitSupplement = false → ∀ i, decode c w = .ok i → i.isSupplement = false) ∧
    (∀ i, i.isSupplement = false → (decode c w = .ok i ↔ decode { c with admitSupplement := true } w = .ok i))

/-! ## Memory -/

/-- R44: what `MemRead(addr, n)` raises, in which order, and the little-endian value it returns. -/
def Obligations.MemReadFollowsRule : Prop :=
  ∀ (s : State) (w : Width) (addr : Word),
    (¬ AlignmentOk s addr w.bytes → memRead s w addr = .error (.loadAddressMisaligned addr)) ∧
    (AlignmentOk s addr w.bytes → ¬ InMemory s addr w.bytes → memRead s w addr = .error (.loadAccessFault addr)) ∧
    (AlignmentOk s addr w.bytes → InMemory s addr w.bytes → ∃ v, memRead s w addr = .ok v ∧
      ∀ i < w.bytes, v.extractLsb' (8 * i) 8 = s.byteAt (nthByte addr i))

/-- R45: what `MemWrite(addr, n, v)` raises, in which order; when it raises nothing it writes exactly its `n` bytes. -/
def Obligations.MemWriteFollowsRule : Prop :=
  ∀ (s : State) (w : Width) (addr : Word) (v : BitVec w.bits),
    (¬ AlignmentOk s addr w.bytes → memWrite s w addr v = .error (.storeAddressMisaligned addr)) ∧
    (AlignmentOk s addr w.bytes → ¬ InMemory s addr w.bytes → memWrite s w addr v = .error (.storeAccessFault addr)) ∧
    (AlignmentOk s addr w.bytes → InMemory s addr w.bytes → ∃ t, memWrite s w addr v = .ok t ∧
      SameRegs s t ∧ t.pc = s.pc ∧ t.cfg = s.cfg ∧
      (∀ i < w.bytes, t.byteAt (nthByte addr i) = v.extractLsb' (8 * i) 8) ∧
      (∀ a : Nat, (∀ i < w.bytes, a ≠ nthByte addr i) → t.byteAt a = s.byteAt a))

/-- After a word is written, narrower reads inside it see the matching bytes: 20_memory.md §2 infers it from R42, R44, R45. -/
def Obligations.MixedWidthAccesses : Prop :=
  ∀ (s t : State) (a v : Word), memWrite s .word a v = .ok t →
    memRead t .byte a = .ok (v.extractLsb' 0 8) ∧
    memRead t .byte (a + 1#32) = .ok (v.extractLsb' 8 8) ∧
    memRead t .byte (a + 2#32) = .ok (v.extractLsb' 16 8) ∧
    memRead t .byte (a + 3#32) = .ok (v.extractLsb' 24 8) ∧
    memRead t .half a = .ok (v.extractLsb' 0 16) ∧
    memRead t .half (a + 2#32) = .ok (v.extractLsb' 16 16) ∧
    memRead t .word a = .ok v

/-- R46: what a fetch raises, in which order, and the little-endian word it reads. -/
def Obligations.FetchFollowsRule : Prop :=
  ∀ s : State,
    (s.pc.toNat % 4 ≠ 0 → fetch s = .error (.instructionAddressMisaligned s.pc)) ∧
    (s.pc.toNat % 4 = 0 → ¬ InMemory s s.pc 4 → fetch s = .error (.instructionAccessFault s.pc)) ∧
    (s.pc.toNat % 4 = 0 → InMemory s s.pc 4 → WrittenByStore s s.pc 4 → fetch s = .error (.fetchAfterStore s.pc)) ∧
    (s.pc.toNat % 4 = 0 → InMemory s s.pc 4 → ¬ WrittenByStore s s.pc 4 → ∃ w, fetch s = .ok w ∧
      ∀ i < 4, w.extractLsb' (8 * i) 8 = s.byteAt (nthByte s.pc i))

/-- R54: a fetch from a byte that a store of the same run has written is the fault `FetchAfterStore(pc)`; so a run that starts
with no store made executes only words of its start state. (`FetchAfterStore` asks the record of log entry 5.) -/
def Obligations.SelfModifiedCodeIsRefused : Prop :=
  ∀ (k : Nat) (s₀ s : State), run k s₀ = .running s →
    ((∃ c ∈ runStores k s₀, ∃ i < 4, c.1 = nthByte s.pc i) → s.pc.toNat % 4 = 0 → InMemory s s.pc 4 →
      step s = .fault (.fetchAfterStore s.pc)) ∧
    (s₀.stored = [] → ∀ w, fetch s = .ok w → ∀ i < 4, w.extractLsb' (8 * i) 8 = s₀.byteAt (nthByte s.pc i))

/-- R52: a load returns, for each byte, the value of the latest earlier store to that byte in program order, or the start-state
value if there is none. -/
def Obligations.LoadsReturnLatestStores : Prop :=
  ∀ (k : Nat) (s₀ s : State), run k s₀ = .running s →
    (∀ a : Nat, s.byteAt a = (latestStore (runStores k s₀) a).getD (s₀.byteAt a)) ∧
    ∀ (w : Width) (addr : Word) (v : BitVec w.bits), memRead s w addr = .ok v →
      ∀ i < w.bytes, v.extractLsb' (8 * i) 8 = (latestStore (runStores k s₀) (nthByte addr i)).getD (s₀.byteAt (nthByte addr i))

/-! ## The step, exceptions and the end of a run -/

/-- R245: a step fetches at `pc`, decodes and executes. When the bytes at `pc` decode to an instruction, the step is the
execution of that instruction; a fetch that raises, or a word that is no instruction, decides the outcome. -/
def Obligations.StepRunsDecodedInstruction : Prop :=
  ∀ s : State,
    (∀ f, fetch s = .error f → step s = .fault f) ∧
    (∀ w, fetch s = .ok w → (∀ i, decode s.cfg w ≠ .ok i) → step s = .fault (.illegalInstruction w)) ∧
    (s.pc.toNat % 4 = 0 → InMemory s s.pc 4 → ¬ WrittenByStore s s.pc 4 → ∀ i : Instr,
      decodeBytes s.cfg ((List.range 4).map (fun k => s.byteAt (nthByte s.pc k))) = .ok (i, []) → step s = exec i s)

/-- A step has exactly one of two outcomes, the next state or a fault, and a stopped machine takes no further step:
60_exceptions.md §7 infers it from R210 to R215 and R103 (log entry 7). -/
def Obligations.StepHasTwoOutcomes : Prop :=
  (∀ s : State, (∃ t, step s = .next t) ∨ ∃ f, step s = .fault f) ∧
  ∀ (k m : Nat) (s t : State) (f : Fault), run k s = .ended t f → run (k + m) s = .ended t f

/-- R212: which instruction raises what, and exactly when; and what a step can raise before an instruction is identified. -/
def Obligations.ExceptionsOfEachInstruction : Prop :=
  (∀ (i : Instr) (s : State) (f : Fault), s.pc.toNat % 4 = 0 → i.offsetEven = true → (exec i s = .fault f ↔ Raises s f i)) ∧
  (∀ (s : State) (f : Fault), step s = .fault f →
    (fetch s = .error f ∧ f ∈ [Fault.instructionAddressMisaligned s.pc, .instructionAccessFault s.pc, .fetchAfterStore s.pc]) ∨
    (∃ w, fetch s = .ok w ∧ (∀ i, decode s.cfg w ≠ .ok i) ∧ f = .illegalInstruction w) ∨
    (∃ w i, fetch s = .ok w ∧ decode s.cfg w = .ok i ∧ Raises s f i))

/-- R215: the first exception that applies, in the order: fetch misaligned, fetch access, fetch after store, illegal
instruction, the instruction's own, then data misaligned before data access. -/
def Obligations.ExceptionPriority : Prop :=
  ∀ s : State,
    (s.pc.toNat % 4 ≠ 0 → step s = .fault (.instructionAddressMisaligned s.pc)) ∧
    (s.pc.toNat % 4 = 0 → ¬ InMemory s s.pc 4 → step s = .fault (.instructionAccessFault s.pc)) ∧
    (s.pc.toNat % 4 = 0 → InMemory s s.pc 4 → WrittenByStore s s.pc 4 → step s = .fault (.fetchAfterStore s.pc)) ∧
    (∀ w, fetch s = .ok w → (∀ i, decode s.cfg w ≠ .ok i) → step s = .fault (.illegalInstruction w)) ∧
    (∀ w, fetch s = .ok w →
      (decode s.cfg w = .ok .ecall → step s = .fault (.environmentCall s.pc)) ∧
      (decode s.cfg w = .ok .ebreak → step s = .fault (.breakpoint s.pc)) ∧
      (∀ (i : Instr) (rs1 rs2 : Reg) (o : BitVec 13), decode s.cfg w = .ok i → Taken s i →
        i ∈ [Instr.beq rs1 rs2 o, .bne rs1 rs2 o, .blt rs1 rs2 o, .bge rs1 rs2 o, .bltu rs1 rs2 o, .bgeu rs1 rs2 o] →
        (plusSigned s.pc o.toInt).toNat % 4 ≠ 0 →
        step s = .fault (.instructionAddressMisaligned (plusSigned s.pc o.toInt))) ∧
      (∀ (rd : Reg) (o : BitVec 21), decode s.cfg w = .ok (.jal rd o) → (plusSigned s.pc o.toInt).toNat % 4 ≠ 0 →
        step s = .fault (.instructionAddressMisaligned (plusSigned s.pc o.toInt))) ∧
      (∀ (rd rs1 : Reg) (imm : BitVec 12), decode s.cfg w = .ok (.jalr rd rs1 imm) → (jalrTo s rs1 imm).toNat % 4 ≠ 0 →
        step s = .fault (.instructionAddressMisaligned (jalrTo s rs1 imm))) ∧
      (∀ (i : Instr) (rd rs1 : Reg) (imm : BitVec 12), decode s.cfg w = .ok i →
        let a := plusSigned (s.reg rs1) imm.toInt
        ((i = .lh rd imm rs1 ∨ i = .lhu rd imm rs1) → ¬ AlignmentOk s a 2 → step s = .fault (.loadAddressMisaligned a)) ∧
        ((i = .lh rd imm rs1 ∨ i = .lhu rd imm rs1) → AlignmentOk s a 2 → ¬ InMemory s a 2 →
          step s = .fault (.loadAccessFault a)) ∧
        (i = .lw rd imm rs1 → ¬ AlignmentOk s a 4 → step s = .fault (.loadAddressMisaligned a)) ∧
        (i = .lw rd imm rs1 → AlignmentOk s a 4 → ¬ InMemory s a 4 → step s = .fault (.loadAccessFault a)) ∧
        ((i = .lb rd imm rs1 ∨ i = .lbu rd imm rs1) → ¬ InMemory s a 1 → step s = .fault (.loadAccessFault a)) ∧
        (i = .sh rd imm rs1 → ¬ AlignmentOk s a 2 → step s = .fault (.storeAddressMisaligned a)) ∧
        (i = .sh rd imm rs1 → AlignmentOk s a 2 → ¬ InMemory s a 2 → step s = .fault (.storeAccessFault a)) ∧
        (i = .sw rd imm rs1 → ¬ AlignmentOk s a 4 → step s = .fault (.storeAddressMisaligned a)) ∧
        (i = .sw rd imm rs1 → AlignmentOk s a 4 → ¬ InMemory s a 4 → step s = .fault (.storeAccessFault a)) ∧
        (i = .sb rd imm rs1 → ¬ InMemory s a 1 → step s = .fault (.storeAccessFault a))))

/-- The codes of R210, by name; `FetchAfterStore` has none. -/
def Obligations.ExceptionCodes : Prop :=
  ∀ v : Word,
    [Fault.instructionAddressMisaligned v, .instructionAccessFault v, .illegalInstruction v, .breakpoint v,
      .loadAddressMisaligned v, .loadAccessFault v, .storeAddressMisaligned v, .storeAccessFault v, .environmentCall v,
      .fetchAfterStore v].map Fault.code =
    [some 0, some 1, some 2, some 3, some 4, some 5, some 6, some 7, some 11, none]

/-- R242: a run ends at the first step whose outcome is a fault, with the state of that step as its final state (R214); it ends
normally exactly when that step executes `ecall`; and a run without such a step goes on. -/
def Obligations.RunEndsAtFirstFault : Prop :=
  (∀ (k : Nat) (s t : State) (f : Fault), run k s = .ended t f ↔ ∃ j < k, run j s = .running t ∧ step t = .fault f) ∧
  (∀ (k : Nat) (s t : State) (f : Fault), run k s = .ended t f →
    (isNormalEnd f = true ↔ ∃ w, fetch t = .ok w ∧ decode t.cfg w = .ok .ecall)) ∧
  (∀ s : State, (∀ (j : Nat) (t : State), run j s = .running t → ∀ f, step t ≠ .fault f) → ∀ k, ∃ t, run k s = .running t)

/-! ## What an instruction does not do -/

/-- `x0` reads 0 in every state; a write to it changes nothing, and every other effect of the instruction (its memory access,
its exceptions, its change of `pc`) happens as with any other `rd`: 10_state.md §1 infers it from "Hard-wired zero", and
30_encoding.md §5 from that. -/
def Obligations.DestinationX0OnlyDiscards : Prop :=
  (∀ s : State, s.reg 0 = 0#32) ∧ (∀ (s : State) (v : Word), s.setReg 0 v = s) ∧
  ∀ (i : Instr) (s : State), AgreeButRegs (exec i s) (exec (withDest 0 i) s) ∧
    ∀ t, exec (withDest 0 i) s = .next t → SameRegs s t

/-- No instruction writes anything but its `rd`, the bytes it stores and `pc`: no other register, no other byte of memory, no
parameter (10_state.md §1, §3); and the record of stored bytes, the model's own field (log entry 5), gains exactly the bytes
stored. -/
def Obligations.NoOtherSideEffects : Prop :=
  ∀ (i : Instr) (s t : State), exec i s = .next t →
    (∀ r : Reg, destOf i ≠ some r → t.reg r = s.reg r) ∧
    (∀ a : Nat, (∀ c ∈ storesOf s i, c.1 ≠ a) → t.byteAt a = s.byteAt a) ∧
    (∀ a : Nat, a ∈ t.stored ↔ a ∈ s.stored ∨ ∃ c ∈ storesOf s i, c.1 = a) ∧ t.cfg = s.cfg

/-- No instruction reads a register that it does not name as a source (10_state.md §1): in two states that differ only in other
registers it has the same outcome, and leaves the same value in `rd`. -/
def Obligations.NoImplicitRegisterRead : Prop :=
  ∀ (i : Instr) (s : State) (regs : Vector Word 31), (∀ r ∈ sourcesOf i, ({ s with regs := regs } : State).reg r = s.reg r) →
    AgreeButRegs (exec i s) (exec i { s with regs := regs }) ∧
    ∀ t u, exec i s = .next t → exec i { s with regs := regs } = .next u → ∀ d, destOf i = some d → t.reg d = u.reg d

/-- With `NREGS` = 16 a run neither changes `x16` to `x31` nor depends on them (R28; log entry 8). -/
def Obligations.HighRegistersHiddenUnderRv32e : Prop :=
  ∀ (k : Nat) (s u : State), s.cfg.baseIsa = .rv32e → AgreeBelow16 s u →
    (∀ t, run k s = .running t → (∀ r : Reg, 16 ≤ r.val → t.reg r = s.reg r) ∧ ∃ v, run k u = .running v ∧ AgreeBelow16 t v) ∧
    (∀ t f, run k s = .ended t f → ∃ v, run k u = .ended v f ∧ AgreeBelow16 t v)

/-- An instruction that is no taken branch and no jump, and raises nothing, is followed by the one at `pc + 4`, modulo 2^32:
after 0xFFFFFFFC comes 0. 10_state.md §2 infers the advance from the length of an instruction. -/
def Obligations.OtherInstructionsAdvance : Prop :=
  ∀ (i : Instr) (s t : State), ¬ Taken s i → exec i s = .next t →
    t.pc = s.pc + 4#32 ∧ (s.pc = 0xFFFFFFFC#32 → t.pc = 0#32)

/-! ## Loads -/

/-- R121, R124: `lb` and `lbu`. -/
def Obligations.LoadByteResults : Prop :=
  ∀ (s : State) (rd rs1 : Reg) (imm : BitVec 12), let a := plusSigned (s.reg rs1) imm.toInt
    EncodedAs (.lb rd imm rs1) (encodeI imm rs1 0b000#3 rd 0b0000011#7) ∧
    EncodedAs (.lbu rd imm rs1) (encodeI imm rs1 0b100#3 rd 0b0000011#7) ∧
    (InMemory s a 1 →
      (∃ t, exec (.lb rd imm rs1) s = .next t ∧
        OnlyRdAndPc s t rd (BitVec.ofInt 32 (s.byteAt a.toNat).toInt) (s.pc + 4#32)) ∧
      (∃ t, exec (.lbu rd imm rs1) s = .next t ∧
        OnlyRdAndPc s t rd (BitVec.ofNat 32 (s.byteAt a.toNat).toNat) (s.pc + 4#32))) ∧
    (¬ InMemory s a 1 →
      exec (.lb rd imm rs1) s = .fault (.loadAccessFault a) ∧ exec (.lbu rd imm rs1) s = .fault (.loadAccessFault a))

/-- R122, R125: `lh` and `lhu`. -/
def Obligations.LoadHalfResults : Prop :=
  ∀ (s : State) (rd rs1 : Reg) (imm : BitVec 12), let a := plusSigned (s.reg rs1) imm.toInt
    EncodedAs (.lh rd imm rs1) (encodeI imm rs1 0b001#3 rd 0b0000011#7) ∧
    EncodedAs (.lhu rd imm rs1) (encodeI imm rs1 0b101#3 rd 0b0000011#7) ∧
    (AlignmentOk s a 2 → InMemory s a 2 →
      (∃ t, exec (.lh rd imm rs1) s = .next t ∧
        OnlyRdAndPc s t rd
          (BitVec.ofInt 32 ((s.byteAt (nthByte a 1)).toInt * 256 + (s.byteAt (nthByte a 0)).toNat)) (s.pc + 4#32)) ∧
      (∃ t, exec (.lhu rd imm rs1) s = .next t ∧
        OnlyRdAndPc s t rd
          (BitVec.ofNat 32 ((s.byteAt (nthByte a 1)).toNat * 256 + (s.byteAt (nthByte a 0)).toNat)) (s.pc + 4#32))) ∧
    (¬ AlignmentOk s a 2 →
      exec (.lh rd imm rs1) s = .fault (.loadAddressMisaligned a) ∧
      exec (.lhu rd imm rs1) s = .fault (.loadAddressMisaligned a)) ∧
    (AlignmentOk s a 2 → ¬ InMemory s a 2 →
      exec (.lh rd imm rs1) s = .fault (.loadAccessFault a) ∧ exec (.lhu rd imm rs1) s = .fault (.loadAccessFault a))

/-- R123: `lw`. -/
def Obligations.LoadWordResult : Prop :=
  ∀ (s : State) (rd rs1 : Reg) (imm : BitVec 12), let a := plusSigned (s.reg rs1) imm.toInt
    EncodedAs (.lw rd imm rs1) (encodeI imm rs1 0b010#3 rd 0b0000011#7) ∧
    (AlignmentOk s a 4 → InMemory s a 4 →
      ∃ t, exec (.lw rd imm rs1) s = .next t ∧
        OnlyRdAndPc s t rd
          (BitVec.ofNat 32 ((s.byteAt (nthByte a 3)).toNat * 2 ^ 24 + (s.byteAt (nthByte a 2)).toNat * 2 ^ 16 +
            (s.byteAt (nthByte a 1)).toNat * 2 ^ 8 + (s.byteAt (nthByte a 0)).toNat)) (s.pc + 4#32)) ∧
    (¬ AlignmentOk s a 4 → exec (.lw rd imm rs1) s = .fault (.loadAddressMisaligned a)) ∧
    (AlignmentOk s a 4 → ¬ InMemory s a 4 → exec (.lw rd imm rs1) s = .fault (.loadAccessFault a))

/-! ## Stores -/

/-- `sb` (43_stores.md R151). That the record of stored bytes gains exactly the addresses of the store is the model's choice, log
entry 5: R151 does not say it. -/
def Obligations.StoreByteResult : Prop :=
  ∀ (s : State) (rs2 rs1 : Reg) (imm : BitVec 12), let a := plusSigned (s.reg rs1) imm.toInt
    EncodedAs (.sb rs2 imm rs1) (encodeS imm rs2 rs1 0b000#3 0b0100011#7) ∧
    (InMemory s a 1 → ∃ t, exec (.sb rs2 imm rs1) s = .next t ∧ OnlyStored s t a 1 (s.reg rs2)) ∧
    (¬ InMemory s a 1 → exec (.sb rs2 imm rs1) s = .fault (.storeAccessFault a))

/-- `sh` (43_stores.md R152). That the record of stored bytes gains exactly the addresses of the store is the model's choice, log
entry 5: R152 does not say it. -/
def Obligations.StoreHalfResult : Prop :=
  ∀ (s : State) (rs2 rs1 : Reg) (imm : BitVec 12), let a := plusSigned (s.reg rs1) imm.toInt
    EncodedAs (.sh rs2 imm rs1) (encodeS imm rs2 rs1 0b001#3 0b0100011#7) ∧
    (AlignmentOk s a 2 → InMemory s a 2 → ∃ t, exec (.sh rs2 imm rs1) s = .next t ∧ OnlyStored s t a 2 (s.reg rs2)) ∧
    (¬ AlignmentOk s a 2 → exec (.sh rs2 imm rs1) s = .fault (.storeAddressMisaligned a)) ∧
    (AlignmentOk s a 2 → ¬ InMemory s a 2 → exec (.sh rs2 imm rs1) s = .fault (.storeAccessFault a))

/-- `sw` (43_stores.md R153). That the record of stored bytes gains exactly the addresses of the store is the model's choice, log
entry 5: R153 does not say it. -/
def Obligations.StoreWordResult : Prop :=
  ∀ (s : State) (rs2 rs1 : Reg) (imm : BitVec 12), let a := plusSigned (s.reg rs1) imm.toInt
    EncodedAs (.sw rs2 imm rs1) (encodeS imm rs2 rs1 0b010#3 0b0100011#7) ∧
    (AlignmentOk s a 4 → InMemory s a 4 → ∃ t, exec (.sw rs2 imm rs1) s = .next t ∧ OnlyStored s t a 4 (s.reg rs2)) ∧
    (¬ AlignmentOk s a 4 → exec (.sw rs2 imm rs1) s = .fault (.storeAddressMisaligned a)) ∧
    (AlignmentOk s a 4 → ¬ InMemory s a 4 → exec (.sw rs2 imm rs1) s = .fault (.storeAccessFault a))

/-! ## Immediate ALU -/

/-- R131: `addi`. -/
def Obligations.AddImmediateResult : Prop :=
  ∀ (s : State) (rd rs1 : Reg) (imm : BitVec 12),
    EncodedAs (.addi rd rs1 imm) (encodeI imm rs1 0b000#3 rd 0b0010011#7) ∧
    ∃ t, exec (.addi rd rs1 imm) s = .next t ∧ OnlyRdAndPc s t rd (plusSigned (s.reg rs1) imm.toInt) (s.pc + 4#32)

/-- R135, R138, R139: `xori`, `ori`, `andi`, bit by bit; bits 31:11 of the immediate are its sign. -/
def Obligations.LogicalImmediateResults : Prop :=
  ∀ (s : State) (rd rs1 : Reg) (imm : BitVec 12),
    EncodedAs (.xori rd rs1 imm) (encodeI imm rs1 0b100#3 rd 0b0010011#7) ∧
    EncodedAs (.ori rd rs1 imm) (encodeI imm rs1 0b110#3 rd 0b0010011#7) ∧
    EncodedAs (.andi rd rs1 imm) (encodeI imm rs1 0b111#3 rd 0b0010011#7) ∧
    (∃ t v, exec (.xori rd rs1 imm) s = .next t ∧ OnlyRdAndPc s t rd v (s.pc + 4#32) ∧
      ∀ k < 32, v.getLsbD k = ((s.reg rs1).getLsbD k ^^ imm.getLsbD (min k 11))) ∧
    (∃ t v, exec (.ori rd rs1 imm) s = .next t ∧ OnlyRdAndPc s t rd v (s.pc + 4#32) ∧
      ∀ k < 32, v.getLsbD k = ((s.reg rs1).getLsbD k || imm.getLsbD (min k 11))) ∧
    (∃ t v, exec (.andi rd rs1 imm) s = .next t ∧ OnlyRdAndPc s t rd v (s.pc + 4#32) ∧
      ∀ k < 32, v.getLsbD k = ((s.reg rs1).getLsbD k && imm.getLsbD (min k 11)))

/-- `slti` compares signed; `sltiu` sign-extends the immediate and compares unsigned (41_op_imm.md R133, R134). Both readings
stand in sentences the spec marks as its own inference: "The comparison is signed: the source marks the other one, `sltiu`,
"unsigned"", and "The immediate is first sign-extended to 32 bits [...] and the two 32-bit values are then compared as unsigned
numbers". -/
def Obligations.SetLessThanImmediateResults : Prop :=
  ∀ (s : State) (rd rs1 : Reg) (imm : BitVec 12),
    EncodedAs (.slti rd rs1 imm) (encodeI imm rs1 0b010#3 rd 0b0010011#7) ∧
    EncodedAs (.sltiu rd rs1 imm) (encodeI imm rs1 0b011#3 rd 0b0010011#7) ∧
    (∃ t, exec (.slti rd rs1 imm) s = .next t ∧
      OnlyRdAndPc s t rd (if (s.reg rs1).toInt < imm.toInt then 1#32 else 0#32) (s.pc + 4#32)) ∧
    (∃ t, exec (.sltiu rd rs1 imm) s = .next t ∧
      OnlyRdAndPc s t rd (if ((s.reg rs1).toNat : Int) < imm.toInt % 2 ^ 32 then 1#32 else 0#32) (s.pc + 4#32))

/-- R132, R136, R137: `slli`, `srli`, `srai`, in plain arithmetic; `srai` is the floor of the quotient. -/
def Obligations.ShiftImmediateResults : Prop :=
  ∀ (s : State) (rd rs1 : Reg) (uimm : BitVec 5),
    EncodedAs (.slli rd rs1 uimm) (encodeShift 0b0000000#7 uimm rs1 0b001#3 rd 0b0010011#7) ∧
    EncodedAs (.srli rd rs1 uimm) (encodeShift 0b0000000#7 uimm rs1 0b101#3 rd 0b0010011#7) ∧
    EncodedAs (.srai rd rs1 uimm) (encodeShift 0b0100000#7 uimm rs1 0b101#3 rd 0b0010011#7) ∧
    (∃ t, exec (.slli rd rs1 uimm) s = .next t ∧
      OnlyRdAndPc s t rd (BitVec.ofNat 32 ((s.reg rs1).toNat * 2 ^ uimm.toNat)) (s.pc + 4#32)) ∧
    (∃ t, exec (.srli rd rs1 uimm) s = .next t ∧
      OnlyRdAndPc s t rd (BitVec.ofNat 32 ((s.reg rs1).toNat / 2 ^ uimm.toNat)) (s.pc + 4#32)) ∧
    (∃ t, exec (.srai rd rs1 uimm) s = .next t ∧
      OnlyRdAndPc s t rd (BitVec.ofInt 32 ((s.reg rs1).toInt / 2 ^ uimm.toNat)) (s.pc + 4#32))

/-! ## Register-register ALU -/

/-- R161, R162: `add` and `sub`, modulo 2^32. -/
def Obligations.AddSubResults : Prop :=
  ∀ (s : State) (rd rs1 rs2 : Reg),
    EncodedAs (.add rd rs1 rs2) (encodeR 0b0000000#7 rs2 rs1 0b000#3 rd 0b0110011#7) ∧
    EncodedAs (.sub rd rs1 rs2) (encodeR 0b0100000#7 rs2 rs1 0b000#3 rd 0b0110011#7) ∧
    (∃ t, exec (.add rd rs1 rs2) s = .next t ∧
      OnlyRdAndPc s t rd (BitVec.ofNat 32 ((s.reg rs1).toNat + (s.reg rs2).toNat)) (s.pc + 4#32)) ∧
    (∃ t, exec (.sub rd rs1 rs2) s = .next t ∧
      OnlyRdAndPc s t rd (BitVec.ofInt 32 ((s.reg rs1).toInt - (s.reg rs2).toInt)) (s.pc + 4#32))

/-- R166, R169, R170: `xor`, `or`, `and`, bit by bit. -/
def Obligations.LogicalRegisterResults : Prop :=
  ∀ (s : State) (rd rs1 rs2 : Reg),
    EncodedAs (.xor rd rs1 rs2) (encodeR 0b0000000#7 rs2 rs1 0b100#3 rd 0b0110011#7) ∧
    EncodedAs (.or rd rs1 rs2) (encodeR 0b0000000#7 rs2 rs1 0b110#3 rd 0b0110011#7) ∧
    EncodedAs (.and rd rs1 rs2) (encodeR 0b0000000#7 rs2 rs1 0b111#3 rd 0b0110011#7) ∧
    (∃ t v, exec (.xor rd rs1 rs2) s = .next t ∧ OnlyRdAndPc s t rd v (s.pc + 4#32) ∧
      ∀ k < 32, v.getLsbD k = ((s.reg rs1).getLsbD k ^^ (s.reg rs2).getLsbD k)) ∧
    (∃ t v, exec (.or rd rs1 rs2) s = .next t ∧ OnlyRdAndPc s t rd v (s.pc + 4#32) ∧
      ∀ k < 32, v.getLsbD k = ((s.reg rs1).getLsbD k || (s.reg rs2).getLsbD k)) ∧
    (∃ t v, exec (.and rd rs1 rs2) s = .next t ∧ OnlyRdAndPc s t rd v (s.pc + 4#32) ∧
      ∀ k < 32, v.getLsbD k = ((s.reg rs1).getLsbD k && (s.reg rs2).getLsbD k))

/-- `slt` compares signed, `sltu` unsigned (44_op.md R164, R165). The signed reading stands in a sentence the spec marks as its
own inference: "Signed, because the source marks the other one, `sltu`, "unsigned"". -/
def Obligations.SetLessThanResults : Prop :=
  ∀ (s : State) (rd rs1 rs2 : Reg),
    EncodedAs (.slt rd rs1 rs2) (encodeR 0b0000000#7 rs2 rs1 0b010#3 rd 0b0110011#7) ∧
    EncodedAs (.sltu rd rs1 rs2) (encodeR 0b0000000#7 rs2 rs1 0b011#3 rd 0b0110011#7) ∧
    (∃ t, exec (.slt rd rs1 rs2) s = .next t ∧
      OnlyRdAndPc s t rd (if (s.reg rs1).toInt < (s.reg rs2).toInt then 1#32 else 0#32) (s.pc + 4#32)) ∧
    (∃ t, exec (.sltu rd rs1 rs2) s = .next t ∧
      OnlyRdAndPc s t rd (if (s.reg rs1).toNat < (s.reg rs2).toNat then 1#32 else 0#32) (s.pc + 4#32))

/-- R163, R167, R168: `sll`, `srl`, `sra`, in plain arithmetic; only the low five bits of `x[rs2]` give the amount. -/
def Obligations.ShiftRegisterResults : Prop :=
  ∀ (s : State) (rd rs1 rs2 : Reg), let n := (s.reg rs2).toNat % 32
    EncodedAs (.sll rd rs1 rs2) (encodeR 0b0000000#7 rs2 rs1 0b001#3 rd 0b0110011#7) ∧
    EncodedAs (.srl rd rs1 rs2) (encodeR 0b0000000#7 rs2 rs1 0b101#3 rd 0b0110011#7) ∧
    EncodedAs (.sra rd rs1 rs2) (encodeR 0b0100000#7 rs2 rs1 0b101#3 rd 0b0110011#7) ∧
    (∃ t, exec (.sll rd rs1 rs2) s = .next t ∧
      OnlyRdAndPc s t rd (BitVec.ofNat 32 ((s.reg rs1).toNat * 2 ^ n)) (s.pc + 4#32)) ∧
    (∃ t, exec (.srl rd rs1 rs2) s = .next t ∧
      OnlyRdAndPc s t rd (BitVec.ofNat 32 ((s.reg rs1).toNat / 2 ^ n)) (s.pc + 4#32)) ∧
    (∃ t, exec (.sra rd rs1 rs2) s = .next t ∧
      OnlyRdAndPc s t rd (BitVec.ofInt 32 ((s.reg rs1).toInt / 2 ^ n)) (s.pc + 4#32))

/-! ## Upper immediate -/

/-- R175: `lui`. -/
def Obligations.LoadUpperImmediateResult : Prop :=
  ∀ (s : State) (rd : Reg) (upimm : BitVec 20),
    EncodedAs (.lui rd upimm) (encodeU upimm rd 0b0110111#7) ∧
    ∃ t, exec (.lui rd upimm) s = .next t ∧ OnlyRdAndPc s t rd (BitVec.ofNat 32 (upimm.toNat * 2 ^ 12)) (s.pc + 4#32)

/-- R145: `auipc`. -/
def Obligations.AddUpperImmediateToPcResult : Prop :=
  ∀ (s : State) (rd : Reg) (upimm : BitVec 20),
    EncodedAs (.auipc rd upimm) (encodeU upimm rd 0b0010111#7) ∧
    ∃ t, exec (.auipc rd upimm) s = .next t ∧
      OnlyRdAndPc s t rd (BitVec.ofNat 32 (s.pc.toNat + upimm.toNat * 2 ^ 12)) (s.pc + 4#32)

/-! ## Branches -/

/-- R182, R183: `beq` and `bne`. -/
def Obligations.BranchEqualityResults : Prop :=
  ∀ (s : State) (rs1 rs2 : Reg) (o : BitVec 13), let target := plusSigned s.pc o.toInt
    EncodedAs (.beq rs1 rs2 o) (encodeB o rs2 rs1 0b000#3 0b1100011#7) ∧
    EncodedAs (.bne rs1 rs2 o) (encodeB o rs2 rs1 0b001#3 0b1100011#7) ∧
    (s.reg rs1 = s.reg rs2 →
      (target.toNat % 4 = 0 → ∃ t, exec (.beq rs1 rs2 o) s = .next t ∧ OnlyPc s t target) ∧
      (∃ t, exec (.bne rs1 rs2 o) s = .next t ∧ OnlyPc s t (s.pc + 4#32))) ∧
    (s.reg rs1 ≠ s.reg rs2 →
      (∃ t, exec (.beq rs1 rs2 o) s = .next t ∧ OnlyPc s t (s.pc + 4#32)) ∧
      (target.toNat % 4 = 0 → ∃ t, exec (.bne rs1 rs2 o) s = .next t ∧ OnlyPc s t target))

/-- `blt` and `bge` compare signed; their `func3` under both values of `BRANCH_FUNC3` (46_branches.md R184, R185). The signed
reading stands in a sentence the spec marks as its own inference: "Signed, because the source marks `bltu` "unsigned" and this
one not". -/
def Obligations.BranchSignedResults : Prop :=
  ∀ (s : State) (rs1 rs2 : Reg) (o : BitVec 13), let target := plusSigned s.pc o.toInt
    (∀ c : Config, (Instr.blt rs1 rs2 o).wf c = true →
      decode c (encodeB o rs2 rs1 (if c.branchFunc3 = .ratified then 0b100#3 else 0b010#3) 0b1100011#7) = .ok (.blt rs1 rs2 o) ∧
      decode c (encodeB o rs2 rs1 (if c.branchFunc3 = .ratified then 0b101#3 else 0b011#3) 0b1100011#7) = .ok (.bge rs1 rs2 o)) ∧
    ((s.reg rs1).toInt < (s.reg rs2).toInt →
      (target.toNat % 4 = 0 → ∃ t, exec (.blt rs1 rs2 o) s = .next t ∧ OnlyPc s t target) ∧
      (∃ t, exec (.bge rs1 rs2 o) s = .next t ∧ OnlyPc s t (s.pc + 4#32))) ∧
    ((s.reg rs2).toInt ≤ (s.reg rs1).toInt →
      (∃ t, exec (.blt rs1 rs2 o) s = .next t ∧ OnlyPc s t (s.pc + 4#32)) ∧
      (target.toNat % 4 = 0 → ∃ t, exec (.bge rs1 rs2 o) s = .next t ∧ OnlyPc s t target))

/-- R186, R187: `bltu` and `bgeu` compare unsigned; their `func3` under both values of `BRANCH_FUNC3`. -/
def Obligations.BranchUnsignedResults : Prop :=
  ∀ (s : State) (rs1 rs2 : Reg) (o : BitVec 13), let target := plusSigned s.pc o.toInt
    (∀ c : Config, (Instr.bltu rs1 rs2 o).wf c = true →
      decode c (encodeB o rs2 rs1 (if c.branchFunc3 = .ratified then 0b110#3 else 0b100#3) 0b1100011#7) = .ok (.bltu rs1 rs2 o) ∧
      decode c (encodeB o rs2 rs1 (if c.branchFunc3 = .ratified then 0b111#3 else 0b101#3) 0b1100011#7) = .ok (.bgeu rs1 rs2 o)) ∧
    ((s.reg rs1).toNat < (s.reg rs2).toNat →
      (target.toNat % 4 = 0 → ∃ t, exec (.bltu rs1 rs2 o) s = .next t ∧ OnlyPc s t target) ∧
      (∃ t, exec (.bgeu rs1 rs2 o) s = .next t ∧ OnlyPc s t (s.pc + 4#32))) ∧
    ((s.reg rs2).toNat ≤ (s.reg rs1).toNat →
      (∃ t, exec (.bltu rs1 rs2 o) s = .next t ∧ OnlyPc s t (s.pc + 4#32)) ∧
      (target.toNat % 4 = 0 → ∃ t, exec (.bgeu rs1 rs2 o) s = .next t ∧ OnlyPc s t target))

/-- R181: with `pc` a multiple of 4 and the offset even, the target is no multiple of 4 exactly when bit 1 of the offset is
set; then, and only when the branch is taken, the branch raises; one that is taken with bit 1 clear, or not taken, completes. -/
def Obligations.MisalignedBranchTarget : Prop :=
  ∀ (s : State) (rs1 rs2 : Reg) (o : BitVec 13), s.pc.toNat % 4 = 0 → o.getLsbD 0 = false →
    let target := plusSigned s.pc o.toInt
    (target.toNat % 2 = 0) ∧ (target.toNat % 4 ≠ 0 ↔ o.getLsbD 1 = true) ∧
    ∀ i ∈ [Instr.beq rs1 rs2 o, .bne rs1 rs2 o, .blt rs1 rs2 o, .bge rs1 rs2 o, .bltu rs1 rs2 o, .bgeu rs1 rs2 o],
      (Taken s i → o.getLsbD 1 = true → exec i s = .fault (.instructionAddressMisaligned target)) ∧
      (Taken s i → o.getLsbD 1 = false → ∃ t, exec i s = .next t) ∧
      (¬ Taken s i → ∃ t, exec i s = .next t)

/-! ## Jumps -/

/-- R192: `jal`. -/
def Obligations.JumpAndLinkResult : Prop :=
  ∀ (s : State) (rd : Reg) (o : BitVec 21), let target := plusSigned s.pc o.toInt
    EncodedAs (.jal rd o) (encodeJ o rd 0b1101111#7) ∧
    (target.toNat % 4 = 0 → ∃ t, exec (.jal rd o) s = .next t ∧ OnlyRdAndPc s t rd (s.pc + 4#32) target) ∧
    (target.toNat % 4 ≠ 0 → exec (.jal rd o) s = .fault (.instructionAddressMisaligned target)) ∧
    (s.pc.toNat % 4 = 0 → o.getLsbD 0 = false → (target.toNat % 4 ≠ 0 ↔ o.getLsbD 1 = true))

/-- R191: `jalr`; the target uses the old value of the base and has bit 0 cleared when `JALR_CLEAR_BIT0`. -/
def Obligations.JumpAndLinkRegisterResult : Prop :=
  ∀ (s : State) (rd rs1 : Reg) (imm : BitVec 12), let sum := plusSigned (s.reg rs1) imm.toInt
    EncodedAs (.jalr rd rs1 imm) (encodeI imm rs1 0b000#3 rd 0b1100111#7) ∧
    ∀ target : Word,
      target = (if s.cfg.jalrClearBit0 = true then BitVec.ofNat 32 (sum.toNat - sum.toNat % 2) else sum) →
      (target.toNat % 4 = 0 → ∃ t, exec (.jalr rd rs1 imm) s = .next t ∧ OnlyRdAndPc s t rd (s.pc + 4#32) target) ∧
      (target.toNat % 4 ≠ 0 → exec (.jalr rd rs1 imm) s = .fault (.instructionAddressMisaligned target)) ∧
      (s.cfg.jalrClearBit0 = true → (target.toNat % 4 ≠ 0 ↔ target.getLsbD 1 = true))

/-! ## Supplement -/

/-- R201: `fence` advances `pc` and does nothing else, whatever its fields; `fence.i` (`func3` 001) is illegal. Part of the
supplement, which rests on the spec author's knowledge of the ratified ISA (R200; log entry 11). -/
def Obligations.FenceOnlyAdvances : Prop :=
  ∀ (s : State) (fm pred succ : BitVec 4) (rs1 rd : BitVec 5),
    EncodedAs (.fence fm pred succ rs1 rd) (fm ++ pred ++ succ ++ rs1 ++ 0b000#3 ++ rd ++ 0b0001111#7) ∧
    (∀ (c : Config) (w : Word) (i : Instr), w.extractLsb' 0 7 = 0b0001111#7 → w.extractLsb' 12 3 = 0b001#3 →
      decode c w ≠ .ok i) ∧
    ∃ t, exec (.fence fm pred succ rs1 rd) s = .next t ∧ OnlyPc s t (s.pc + 4#32)

/-- R202: `ecall` is the word 0x00000073; it raises `EnvironmentCall(pc)`, and the run ends there, normally; a word that differs
from it only in `rd`, `rs1` or the immediate is illegal, but for 0x00100073. Part of the supplement, which rests on the spec
author's knowledge of the ratified ISA (R200; log entry 11). -/
def Obligations.EnvironmentCallEndsRun : Prop :=
  EncodedAs .ecall 0x00000073#32 ∧
  (∀ (c : Config) (w : Word) (i : Instr), w.extractLsb' 0 7 = 0b1110011#7 → w.extractLsb' 12 3 = 0b000#3 →
    w ≠ 0x00000073#32 → w ≠ 0x00100073#32 → decode c w ≠ .ok i) ∧
  ∀ s : State, exec .ecall s = .fault (.environmentCall s.pc) ∧
    ∀ w, fetch s = .ok w → decode s.cfg w = .ok .ecall →
      ∀ k : Nat, run (k + 1) s = .ended s (.environmentCall s.pc) ∧ isNormalEnd (.environmentCall s.pc) = true

/-- R203: `ebreak` is the word 0x00100073; it raises `Breakpoint(pc)`, and the run ends there, not normally. Part of the
supplement, which rests on the spec author's knowledge of the ratified ISA (R200; log entry 11). -/
def Obligations.BreakpointEndsRun : Prop :=
  EncodedAs .ebreak 0x00100073#32 ∧
  ∀ s : State, exec .ebreak s = .fault (.breakpoint s.pc) ∧
    ∀ w, fetch s = .ok w → decode s.cfg w = .ok .ebreak →
      ∀ k : Nat, run (k + 1) s = .ended s (.breakpoint s.pc) ∧ isNormalEnd (.breakpoint s.pc) = false
end

