-- ==== Sys2Proof/Laws/Encoding.lean ====
section
/-! SUPPORT. The fields of an encoded word: what each field of the decoder reads from a word of each format. -/

namespace Sys2Proof

@[simp] theorem regOfBits_regBits (r : Reg) : regOfBits (regBits r) = r := by
  apply Fin.ext
  simp only [regOfBits, regBits, BitVec.toNat_ofNat]
  omega

@[simp] theorem regBits_regOfBits (b : BitVec 5) : regBits (regOfBits b) = b := by
  apply BitVec.eq_of_toNat_eq
  have := b.isLt
  simp only [regOfBits, regBits, BitVec.toNat_ofNat]
  omega

section Formats

variable (func7 : BitVec 7) (imm : BitVec 12) (uimm : BitVec 5) (upimm : BitVec 20) (rs2 rs1 rd : Reg) (func3 : BitVec 3)
  (op : BitVec 7)

/-- R-TYPE (30_encoding.md R72). -/
theorem encodeR_fields :
    opField (encodeR func7 rs2 rs1 func3 rd op) = op ∧ rdBits (encodeR func7 rs2 rs1 func3 rd op) = regBits rd ∧
      func3Field (encodeR func7 rs2 rs1 func3 rd op) = func3 ∧ rs1Bits (encodeR func7 rs2 rs1 func3 rd op) = regBits rs1 ∧
      rs2Bits (encodeR func7 rs2 rs1 func3 rd op) = regBits rs2 ∧ func7Field (encodeR func7 rs2 rs1 func3 rd op) = func7 := by
  simp (disch := decide) only [opField, rdBits, func3Field, rs1Bits, rs2Bits, func7Field, encodeR,
    BitVec.extractLsb'_append_eq_of_le, BitVec.extractLsb'_append_eq_of_add_le, Nat.reduceSub, BitVec.extractLsb'_eq_self, and_self]

/-- I-TYPE (30_encoding.md R73). -/
theorem encodeI_fields :
    opField (encodeI imm rs1 func3 rd op) = op ∧ rdBits (encodeI imm rs1 func3 rd op) = regBits rd ∧
      func3Field (encodeI imm rs1 func3 rd op) = func3 ∧ rs1Bits (encodeI imm rs1 func3 rd op) = regBits rs1 ∧
      immIField (encodeI imm rs1 func3 rd op) = imm := by
  simp (disch := decide) only [opField, rdBits, func3Field, rs1Bits, immIField, encodeI,
    BitVec.extractLsb'_append_eq_of_le, BitVec.extractLsb'_append_eq_of_add_le, Nat.reduceSub, BitVec.extractLsb'_eq_self, and_self]

/-- I-TYPE with a shift amount (30_encoding.md R85). -/
theorem encodeShift_fields :
    opField (encodeShift func7 uimm rs1 func3 rd op) = op ∧ rdBits (encodeShift func7 uimm rs1 func3 rd op) = regBits rd ∧
      func3Field (encodeShift func7 uimm rs1 func3 rd op) = func3 ∧
      rs1Bits (encodeShift func7 uimm rs1 func3 rd op) = regBits rs1 ∧
      rs2Bits (encodeShift func7 uimm rs1 func3 rd op) = uimm ∧
      func7Field (encodeShift func7 uimm rs1 func3 rd op) = func7 := by
  simp (disch := decide) only [opField, rdBits, func3Field, rs1Bits, rs2Bits, func7Field, encodeShift,
    BitVec.extractLsb'_append_eq_of_le, BitVec.extractLsb'_append_eq_of_add_le, Nat.reduceSub, BitVec.extractLsb'_eq_self, and_self]

/-- S-TYPE (30_encoding.md R74). -/
theorem encodeS_fields :
    opField (encodeS imm rs2 rs1 func3 op) = op ∧ func3Field (encodeS imm rs2 rs1 func3 op) = func3 ∧
      rs1Bits (encodeS imm rs2 rs1 func3 op) = regBits rs1 ∧ rs2Bits (encodeS imm rs2 rs1 func3 op) = regBits rs2 ∧
      immSField (encodeS imm rs2 rs1 func3 op) = imm.extractLsb' 5 7 ++ imm.extractLsb' 0 5 := by
  simp (disch := decide) only [opField, func3Field, rs1Bits, rs2Bits, immSField, encodeS,
    BitVec.extractLsb'_append_eq_of_le, BitVec.extractLsb'_append_eq_of_add_le, Nat.reduceSub, BitVec.extractLsb'_eq_self, and_self]

/-- SB-TYPE (30_encoding.md R75). -/
theorem encodeB_fields (offset : BitVec 13) :
    opField (encodeB offset rs2 rs1 func3 op) = op ∧ func3Field (encodeB offset rs2 rs1 func3 op) = func3 ∧
      rs1Bits (encodeB offset rs2 rs1 func3 op) = regBits rs1 ∧ rs2Bits (encodeB offset rs2 rs1 func3 op) = regBits rs2 ∧
      immBField (encodeB offset rs2 rs1 func3 op) = offset.extractLsb' 12 1 ++ offset.extractLsb' 11 1 ++
        offset.extractLsb' 5 6 ++ offset.extractLsb' 1 4 ++ 0#1 := by
  simp (disch := decide) only [opField, func3Field, rs1Bits, rs2Bits, immBField, encodeB,
    BitVec.extractLsb'_append_eq_of_le, BitVec.extractLsb'_append_eq_of_add_le, Nat.reduceSub, BitVec.extractLsb'_eq_self, and_self]

/-- U-TYPE (30_encoding.md R76). -/
theorem encodeU_fields :
    opField (encodeU upimm rd op) = op ∧ rdBits (encodeU upimm rd op) = regBits rd ∧ immUField (encodeU upimm rd op) = upimm := by
  simp (disch := decide) only [opField, rdBits, immUField, encodeU,
    BitVec.extractLsb'_append_eq_of_le, BitVec.extractLsb'_append_eq_of_add_le, Nat.reduceSub, BitVec.extractLsb'_eq_self, and_self]

/-- UJ-TYPE (30_encoding.md R77). -/
theorem encodeJ_fields (offset : BitVec 21) :
    opField (encodeJ offset rd op) = op ∧ rdBits (encodeJ offset rd op) = regBits rd ∧
      immJField (encodeJ offset rd op) = offset.extractLsb' 20 1 ++ offset.extractLsb' 12 8 ++ offset.extractLsb' 11 1 ++
        offset.extractLsb' 1 10 ++ 0#1 := by
  simp (disch := decide) only [opField, rdBits, immJField, encodeJ,
    BitVec.extractLsb'_append_eq_of_le, BitVec.extractLsb'_append_eq_of_add_le, Nat.reduceSub, BitVec.extractLsb'_eq_self, and_self]

/-- `fence` (30_encoding.md R102). -/
theorem encodeFence_fields (fm pred succ : BitVec 4) (rs1Field rdField : BitVec 5) :
    opField (encodeFence fm pred succ rs1Field rdField) = 0b0001111#7 ∧
      func3Field (encodeFence fm pred succ rs1Field rdField) = 0b000#3 ∧
      rdBits (encodeFence fm pred succ rs1Field rdField) = rdField ∧
      rs1Bits (encodeFence fm pred succ rs1Field rdField) = rs1Field ∧
      (encodeFence fm pred succ rs1Field rdField).extractLsb' 20 4 = succ ∧
      (encodeFence fm pred succ rs1Field rdField).extractLsb' 24 4 = pred ∧
      (encodeFence fm pred succ rs1Field rdField).extractLsb' 28 4 = fm := by
  simp (disch := decide) only [opField, rdBits, func3Field, rs1Bits, encodeFence,
    BitVec.extractLsb'_append_eq_of_le, BitVec.extractLsb'_append_eq_of_add_le, Nat.reduceSub, BitVec.extractLsb'_eq_self, and_self]

end Formats

/-! ## The immediates, put together from their parts -/

theorem immS_parts (imm : BitVec 12) : (imm.extractLsb' 5 7 ++ imm.extractLsb' 0 5 : BitVec 12) = imm := by
  apply BitVec.eq_of_getLsbD_eq
  intro i hi
  simp only [BitVec.getLsbD_append, BitVec.getLsbD_extractLsb']
  by_cases h : i < 5
  · simp [h]
  · simp [h, show i - 5 < 7 by omega, show 5 + (i - 5) = i by omega]

theorem immB_parts (o : BitVec 13) (h0 : o.getLsbD 0 = false) :
    (o.extractLsb' 12 1 ++ o.extractLsb' 11 1 ++ o.extractLsb' 5 6 ++ o.extractLsb' 1 4 ++ 0#1 : BitVec 13) = o := by
  apply BitVec.eq_of_getLsbD_eq
  intro i hi
  simp only [BitVec.getLsbD_append, BitVec.getLsbD_extractLsb']
  rcases i with _ | i
  · simpa using h0
  · by_cases h : i < 4
    · simp [h, show 1 + i = i + 1 by omega]
    · by_cases h : i < 10
      · simp [show ¬ i < 4 by omega, show i - 4 < 6 by omega, show 5 + (i - 4) = i + 1 by omega]
      · rcases (by omega : i = 10 ∨ i = 11) with rfl | rfl <;> simp

theorem immJ_parts (o : BitVec 21) (h0 : o.getLsbD 0 = false) :
    (o.extractLsb' 20 1 ++ o.extractLsb' 12 8 ++ o.extractLsb' 11 1 ++ o.extractLsb' 1 10 ++ 0#1 : BitVec 21) = o := by
  apply BitVec.eq_of_getLsbD_eq
  intro i hi
  simp only [BitVec.getLsbD_append, BitVec.getLsbD_extractLsb']
  rcases i with _ | i
  · simpa using h0
  · by_cases h : i < 10
    · simp [h, show 1 + i = i + 1 by omega]
    · by_cases h : i < 11
      · obtain rfl : i = 10 := by omega
        simp
      · by_cases h : i < 19
        · simp [show ¬ i < 10 by omega, show ¬ i - 10 < 1 by omega, show i - 10 - 1 < 8 by omega,
            show 12 + (i - 10 - 1) = i + 1 by omega]
        · obtain rfl : i = 19 := by omega
          simp

/-- A well-formed instruction passes the checks on `ADMIT_SUPPLEMENT` and `NREGS`. -/
theorem checkAdmitted_of_wf {c : Config} {i : Instr} (h : i.wf c = true) : checkAdmitted c i = .ok i := by
  simp only [Instr.wf, Bool.and_eq_true] at h
  simp [checkAdmitted, h.1.1, h.2]

/-- What the decoder has checked of an instruction it accepts. -/
theorem decode_ok {c : Config} {w : Word} {i : Instr} (h : decode c w = .ok i) :
    decodeByOp c.branchFunc3 w = .ok i ∧ i.admitted c = true ∧ i.registersExist c = true := by
  unfold decode at h
  split at h
  · next j hj =>
    unfold checkAdmitted at h
    split at h
    · cases h
    · split at h
      · cases h
      · next ha hr =>
        cases h
        exact ⟨hj, by simpa using ha, by simpa using hr⟩
  · cases h

/-- Decoding in its two parts: the choice by `op`, and the checks. -/
theorem decode_of_byOp {c : Config} {w : Word} {i : Instr} (h : i.admitted c = true) (hr : i.registersExist c = true)
    (hb : decodeByOp c.branchFunc3 w = .ok i) : decode c w = .ok i := by
  simp [decode, hb, checkAdmitted, h, hr]

/-- Splitting a word into its four bytes and putting them together gives the word (20_memory.md R42). -/
theorem wordOfBytes_bytes (w : Word) :
    wordOfBytes (w.extractLsb' 0 8) (w.extractLsb' 8 8) (w.extractLsb' 16 8) (w.extractLsb' 24 8) = w := by
  apply BitVec.eq_of_getLsbD_eq
  intro i hi
  simp only [wordOfBytes, BitVec.getLsbD_append, BitVec.getLsbD_extractLsb']
  by_cases h0 : i < 8
  · simp [h0]
  · by_cases h1 : i < 16
    · simp [h0, show i - 8 < 8 by omega, show 8 + (i - 8) = i by omega]
    · by_cases h2 : i < 24
      · simp [h0, show ¬ i - 8 < 8 by omega, show i - 8 - 8 < 8 by omega, show 16 + (i - 8 - 8) = i by omega]
      · simp [h0, show ¬ i - 8 < 8 by omega, show ¬ i - 8 - 8 < 8 by omega, show i - 8 - 8 - 8 < 8 by omega,
          show 24 + (i - 8 - 8 - 8) = i by omega]

/-- Decoding the bytes of a word is decoding the word. -/
theorem decodeBytes_bytesOfWord (c : Config) (w : Word) :
    decodeBytes c (bytesOfWord w) = (decode c w).map (fun i => (i, [])) := by
  simp only [bytesOfWord, decodeBytes, wordOfBytes_bytes]
  cases decode c w <;> rfl

end Sys2Proof
end

