-- ==== Sys2Proof/Laws/State.lean ====
section
/-! SUPPORT. The small lemmas of State: one for each field under each update, and what `x[r]` reads after a write. -/

namespace Sys2Proof.Machine

section Fields

variable (s : State) (r : Reg) (v t : Word) (a : Nat) (b : Byte)

@[simp] theorem setReg_regs : (s.setReg r v).regs = writeRegs s.regs r v := rfl
@[simp] theorem setReg_pc : (s.setReg r v).pc = s.pc := rfl
@[simp] theorem setReg_mem : (s.setReg r v).mem = s.mem := rfl
@[simp] theorem setReg_stored : (s.setReg r v).stored = s.stored := rfl
@[simp] theorem setReg_cfg : (s.setReg r v).cfg = s.cfg := rfl
@[simp] theorem setReg_byteAt : (s.setReg r v).byteAt a = s.byteAt a := rfl

@[simp] theorem setPc_regs : (s.setPc t).regs = s.regs := rfl
@[simp] theorem setPc_pc : (s.setPc t).pc = t := rfl
@[simp] theorem setPc_mem : (s.setPc t).mem = s.mem := rfl
@[simp] theorem setPc_stored : (s.setPc t).stored = s.stored := rfl
@[simp] theorem setPc_cfg : (s.setPc t).cfg = s.cfg := rfl
@[simp] theorem setPc_byteAt : (s.setPc t).byteAt a = s.byteAt a := rfl
@[simp] theorem setPc_reg : (s.setPc t).reg r = s.reg r := rfl

@[simp] theorem advance_regs : s.advance.regs = s.regs := rfl
@[simp] theorem advance_pc : s.advance.pc = s.pc + 4#32 := rfl
@[simp] theorem advance_mem : s.advance.mem = s.mem := rfl
@[simp] theorem advance_stored : s.advance.stored = s.stored := rfl
@[simp] theorem advance_cfg : s.advance.cfg = s.cfg := rfl
@[simp] theorem advance_byteAt : s.advance.byteAt a = s.byteAt a := rfl
@[simp] theorem advance_reg : s.advance.reg r = s.reg r := rfl

@[simp] theorem storeByte_regs : (s.storeByte a b).regs = s.regs := rfl
@[simp] theorem storeByte_pc : (s.storeByte a b).pc = s.pc := rfl
@[simp] theorem storeByte_mem : (s.storeByte a b).mem = s.mem.write a b := rfl
@[simp] theorem storeByte_stored : (s.storeByte a b).stored = s.stored.insert a := rfl
@[simp] theorem storeByte_cfg : (s.storeByte a b).cfg = s.cfg := rfl
@[simp] theorem storeByte_reg : (s.storeByte a b).reg r = s.reg r := rfl

@[simp] theorem loadByte_regs : (s.loadByte a b).regs = s.regs := rfl
@[simp] theorem loadByte_pc : (s.loadByte a b).pc = s.pc := rfl
@[simp] theorem loadByte_mem : (s.loadByte a b).mem = s.mem.write a b := rfl
@[simp] theorem loadByte_stored : (s.loadByte a b).stored = s.stored.filter (fun k => k != a) := rfl
@[simp] theorem loadByte_cfg : (s.loadByte a b).cfg = s.cfg := rfl
@[simp] theorem loadByte_reg : (s.loadByte a b).reg r = s.reg r := rfl

variable (c : Config) (regs : Vector Word 31) (mem : Memory)

@[simp] theorem start_regs : (State.start c regs mem).regs = regs := rfl
@[simp] theorem start_pc : (State.start c regs mem).pc = c.resetPc := rfl
@[simp] theorem start_mem : (State.start c regs mem).mem = mem := rfl
@[simp] theorem start_stored : (State.start c regs mem).stored = [] := rfl
@[simp] theorem start_cfg : (State.start c regs mem).cfg = c := rfl

end Fields

/-- `x0` reads 0 (10_state.md R21). -/
@[simp] theorem reg_zero (s : State) : s.reg 0 = 0#32 := rfl

/-- Any other register reads its place in the register file. -/
theorem reg_of_ne_zero (s : State) (r : Reg) (h : r.val ≠ 0) : s.reg r = s.regs[r.val - 1]'(by omega) := by
  simp [State.reg, h]

/-- The registers after a write (10_state.md R21). -/
theorem setReg_reg (s : State) (r q : Reg) (v : Word) :
    (s.setReg r v).reg q = if q = r ∧ q ≠ 0 then v else s.reg q := by
  by_cases hq : q.val = 0
  · have : q = 0 := Fin.ext hq
    subst this
    simp
  · have hq' : q ≠ 0 := fun h => hq (by simp [h])
    rw [reg_of_ne_zero _ _ hq, reg_of_ne_zero _ _ hq]
    simp only [setReg_regs, writeRegs]
    split
    · next hr =>
      have hne : q ≠ r := fun h => hq (h ▸ hr)
      simp [hne]
    · next hr =>
      by_cases hqr : q = r
      · subst hqr
        simp [hq']
      · have : r.val - 1 ≠ q.val - 1 := fun h => hqr (Fin.ext (by omega))
        simp [hqr, Vector.getElem_set_ne, this]

/-- The registers decide the register file: two states in which every register reads alike hold the same file. -/
theorem regs_ext {s t : State} (h : ∀ r : Reg, s.reg r = t.reg r) : s.regs = t.regs := by
  apply Vector.ext
  intro i hi
  have hr := h ⟨i + 1, by omega⟩
  rw [reg_of_ne_zero _ _ (by simp), reg_of_ne_zero _ _ (by simp)] at hr
  simpa using hr

end Sys2Proof.Machine
end

