-- ==== Sys2Proof/Laws/Memory.lean ====
section
/-! SUPPORT. The laws of memory and of the set of stored bytes: what a byte reads as after a write, and that every operation
keeps the one canonical form. -/

namespace Sys2Proof.Machine

/-! ## Reading after writing -/

@[simp] theorem memory_read_nil (a : Nat) : Memory.read [] a = Memory.unlisted := rfl

@[simp] theorem memory_read_cons (k : Nat) (b : Byte) (m : Memory) (a : Nat) :
    Memory.read ((k, b) :: m) a = if k = a then b else Memory.read m a := rfl

theorem memory_wf_cons {k : Nat} {b : Byte} {m : Memory} (h : Memory.wf ((k, b) :: m) = true) :
    k < 2 ^ 32 ∧ b ≠ Memory.unlisted ∧ (∀ c ∈ m, k < c.1) ∧ Memory.wf m = true := by
  simp only [Memory.wf, Bool.and_eq_true, decide_eq_true_eq, bne_iff_ne, List.all_eq_true] at h
  exact ⟨h.1.1.1, h.1.1.2, h.1.2, h.2⟩

theorem memory_wf_cons_iff (k : Nat) (b : Byte) (m : Memory) :
    Memory.wf ((k, b) :: m) = true ↔ k < 2 ^ 32 ∧ b ≠ Memory.unlisted ∧ (∀ c ∈ m, k < c.1) ∧ Memory.wf m = true := by
  simp only [Memory.wf, Bool.and_eq_true, decide_eq_true_eq, bne_iff_ne, List.all_eq_true, and_assoc]

/-- An address that no cell names reads as an unlisted one. -/
theorem memory_read_of_not_mem {m : Memory} {a : Nat} (h : ∀ c ∈ m, c.1 ≠ a) : Memory.read m a = Memory.unlisted := by
  induction m with
  | nil => rfl
  | cons c m ih =>
    obtain ⟨k, b⟩ := c
    have h1 : k ≠ a := h (k, b) (by simp)
    simp [h1, ih (fun c hc => h c (by simp [hc]))]

theorem memory_read_erase (m : Memory) (a b : Nat) :
    (m.erase a).read b = if b = a then Memory.unlisted else m.read b := by
  induction m with
  | nil => simp [Memory.erase]
  | cons c m ih =>
    obtain ⟨k, w⟩ := c
    simp only [Memory.erase] at ih ⊢
    by_cases hk : k = a
    · subst hk
      rw [List.filter_cons_of_neg (by simp), ih]
      by_cases hb : b = k
      · simp [hb]
      · simp [hb, Ne.symm hb]
    · rw [List.filter_cons_of_pos (by simpa using hk), memory_read_cons, memory_read_cons, ih]
      by_cases hkb : k = b
      · subst hkb
        simp [hk]
      · simp [hkb]

theorem memory_read_place {m : Memory} {a : Nat} (h : ∀ c ∈ m, c.1 ≠ a) (b : Nat) (v : Byte) :
    (m.place a v).read b = if b = a then v else m.read b := by
  induction m with
  | nil => by_cases hb : b = a <;> simp [Memory.place, hb, Ne.symm]
  | cons c m ih =>
    obtain ⟨k, w⟩ := c
    have hk : k ≠ a := h (k, w) (by simp)
    have ih := ih (fun c hc => h c (by simp [hc]))
    simp only [Memory.place]
    split
    · by_cases hb : b = a
      · simp [hb]
      · simp [hb, Ne.symm hb]
    · simp only [memory_read_cons, ih]
      by_cases hkb : k = b
      · subst hkb
        simp [hk]
      · simp [hkb]

theorem memory_erase_ne {m : Memory} {a : Nat} {c : Host.Cell} (h : c ∈ m.erase a) : c.1 ≠ a := by
  simpa using (List.mem_filter.1 h).2

theorem memory_mem_erase {m : Memory} {a : Nat} {c : Host.Cell} (h : c ∈ m.erase a) : c ∈ m :=
  List.mem_of_mem_filter h

/-- A write changes the byte at its address and no other. -/
theorem memory_read_write (m : Memory) (a b : Nat) (v : Byte) :
    (m.write a v).read b = if b = a then v else m.read b := by
  unfold Memory.write
  split
  · next h => rw [memory_read_erase, h]
  · rw [memory_read_place (fun c hc => memory_erase_ne hc), memory_read_erase]
    by_cases hb : b = a <;> simp [hb]

/-! ## The canonical form -/

theorem memory_mem_place {m : Memory} {a : Nat} {v : Byte} {c : Host.Cell} (h : c ∈ m.place a v) :
    c = (a, v) ∨ c ∈ m := by
  induction m with
  | nil => simpa [Memory.place] using h
  | cons d m ih =>
    simp only [Memory.place] at h
    split at h
    · simpa using h
    · rcases List.mem_cons.1 h with rfl | h
      · exact .inr (by simp)
      · exact (ih h).imp id (List.mem_cons_of_mem _)

/-- A cell after a write is for the address written, or was there before. -/
theorem memory_mem_write {m : Memory} {a : Nat} {v : Byte} {c : Host.Cell} (h : c ∈ m.write a v) : c.1 = a ∨ c ∈ m := by
  unfold Memory.write at h
  split at h
  · exact .inr (memory_mem_erase h)
  · rcases memory_mem_place h with rfl | h
    · exact .inl rfl
    · exact .inr (memory_mem_erase h)

theorem memory_erase_wf {m : Memory} (hm : m.wf = true) (a : Nat) : (m.erase a).wf = true := by
  induction m with
  | nil => rfl
  | cons c m ih =>
    obtain ⟨k, w⟩ := c
    obtain ⟨hk, hw, hlt, hwf⟩ := memory_wf_cons hm
    simp only [Memory.erase] at ih ⊢
    by_cases hka : k = a
    · rw [List.filter_cons_of_neg (by simpa using hka)]
      exact ih hwf
    · rw [List.filter_cons_of_pos (by simpa using hka)]
      exact (memory_wf_cons_iff _ _ _).2 ⟨hk, hw, fun c hc => hlt c (List.mem_of_mem_filter hc), ih hwf⟩

theorem memory_place_wf {m : Memory} (hm : m.wf = true) {a : Nat} {v : Byte} (ha : a < 2 ^ 32) (hv : v ≠ Memory.unlisted)
    (hne : ∀ c ∈ m, c.1 ≠ a) : (m.place a v).wf = true := by
  induction m with
  | nil => exact (memory_wf_cons_iff _ _ _).2 ⟨ha, hv, by simp, rfl⟩
  | cons c m ih =>
    obtain ⟨k, w⟩ := c
    obtain ⟨hk, hw, hlt, hwf⟩ := memory_wf_cons hm
    have hka : k ≠ a := hne (k, w) (by simp)
    simp only [Memory.place]
    split
    · next h =>
      refine (memory_wf_cons_iff _ _ _).2 ⟨ha, hv, ?_, hm⟩
      intro c hc
      rcases List.mem_cons.1 hc with rfl | hc
      · exact h
      · exact Nat.lt_trans h (hlt c hc)
    · next h =>
      refine (memory_wf_cons_iff _ _ _).2 ⟨hk, hw, ?_, ih hwf (fun c hc => hne c (by simp [hc]))⟩
      intro c hc
      rcases memory_mem_place hc with rfl | hc
      · exact lt_of_le_of_ne (Nat.le_of_not_lt h) hka
      · exact hlt c hc

/-- A write keeps the canonical form. -/
theorem memory_write_wf {m : Memory} (hm : m.wf = true) {a : Nat} (ha : a < 2 ^ 32) (v : Byte) :
    (m.write a v).wf = true := by
  unfold Memory.write
  split
  · exact memory_erase_wf hm a
  · next hv => exact memory_place_wf (memory_erase_wf hm a) ha hv (fun c hc => memory_erase_ne hc)

/-- Equal bytes everywhere mean equal lists: the canonical form is one form. -/
theorem memory_ext {m n : Memory} (hm : m.wf = true) (hn : n.wf = true) (h : ∀ a, m.read a = n.read a) : m = n := by
  induction m generalizing n with
  | nil =>
    cases n with
    | nil => rfl
    | cons d n =>
      obtain ⟨k, w⟩ := d
      have := h k
      simp at this
      exact absurd this.symm (memory_wf_cons hn).2.1
  | cons c m ih =>
    obtain ⟨k, w⟩ := c
    obtain ⟨-, hw, hlt, hwf⟩ := memory_wf_cons hm
    cases n with
    | nil =>
      have := h k
      simp at this
      exact absurd this hw
    | cons d n =>
      obtain ⟨j, u⟩ := d
      obtain ⟨-, hu, hlt', hwf'⟩ := memory_wf_cons hn
      have hkj : k = j := by
        rcases Nat.lt_trichotomy k j with hkj | hkj | hkj
        · have h1 := h k
          rw [memory_read_cons, memory_read_cons, if_pos rfl, if_neg (Nat.ne_of_gt hkj),
            memory_read_of_not_mem (fun c hc => Nat.ne_of_gt (Nat.lt_trans hkj (hlt' c hc)))] at h1
          exact absurd h1 hw
        · exact hkj
        · have h1 := h j
          rw [memory_read_cons, memory_read_cons, if_neg (Nat.ne_of_gt hkj), if_pos rfl,
            memory_read_of_not_mem (fun c hc => Nat.ne_of_gt (Nat.lt_trans hkj (hlt c hc)))] at h1
          exact absurd h1.symm hu
      subst hkj
      have hwu : w = u := by simpa using h k
      subst hwu
      congr 1
      refine ih hwf hwf' (fun a => ?_)
      by_cases hka : k = a
      · subst hka
        rw [memory_read_of_not_mem (fun c hc => Nat.ne_of_gt (hlt c hc)),
          memory_read_of_not_mem (fun c hc => Nat.ne_of_gt (hlt' c hc))]
      · simpa [hka] using h a

/-! ## The set of stored bytes -/

theorem addrSet_mem_insert (m : AddrSet) (a b : Nat) : b ∈ m.insert a ↔ b = a ∨ b ∈ m := by
  induction m with
  | nil => simp [AddrSet.insert]
  | cons k m ih =>
    simp only [AddrSet.insert]
    split
    · simp
    · split
      · next h => subst h; simp
      · simp only [List.mem_cons, ih]
        tauto

theorem addrSet_wf_cons_iff (k : Nat) (m : AddrSet) :
    AddrSet.wf (k :: m) = true ↔ k < 2 ^ 32 ∧ (∀ a ∈ m, k < a) ∧ AddrSet.wf m = true := by
  simp only [AddrSet.wf, Bool.and_eq_true, decide_eq_true_eq, List.all_eq_true, and_assoc]

/-- Adding an address keeps the one form of a set. -/
theorem addrSet_insert_wf {m : AddrSet} (hm : m.wf = true) {a : Nat} (ha : a < 2 ^ 32) : (m.insert a).wf = true := by
  induction m with
  | nil => simpa [AddrSet.insert, AddrSet.wf] using ha
  | cons k m ih =>
    obtain ⟨hk, hlt, hwf⟩ := (addrSet_wf_cons_iff k m).1 hm
    simp only [AddrSet.insert]
    split
    · next h =>
      refine (addrSet_wf_cons_iff _ _).2 ⟨ha, ?_, hm⟩
      intro b hb
      rcases List.mem_cons.1 hb with rfl | hb
      · exact h
      · exact Nat.lt_trans h (hlt b hb)
    · split
      · exact hm
      · next hna hne =>
        refine (addrSet_wf_cons_iff _ _).2 ⟨hk, ?_, ih hwf⟩
        intro b hb
        rcases (addrSet_mem_insert m a b).1 hb with rfl | hb
        · omega
        · exact hlt b hb

/-- Taking addresses out keeps the one form of a set. -/
theorem addrSet_filter_wf {m : AddrSet} (hm : m.wf = true) (p : Nat → Bool) : AddrSet.wf (m.filter p) = true := by
  induction m with
  | nil => rfl
  | cons k m ih =>
    obtain ⟨hk, hlt, hwf⟩ := (addrSet_wf_cons_iff k m).1 hm
    by_cases hp : p k = true
    · rw [List.filter_cons_of_pos hp]
      exact (addrSet_wf_cons_iff _ _).2 ⟨hk, fun a ha => hlt a (List.mem_of_mem_filter ha), ih hwf⟩
    · rw [List.filter_cons_of_neg hp]
      exact ih hwf

end Sys2Proof.Machine
end

