-- ==== Sys2Proof/Laws/Ops.lean ====
section
/-! SUPPORT. What each shared operation can do, said once: the access primitives, the stores, the fetch, and the forms the
meanings share. -/

namespace Sys2Proof.Machine

/-! ## Addresses -/

/-- `(addr + i) mod 2^32`, in plain arithmetic (20_memory.md R44). -/
theorem byteAddr_eq (addr : Word) (i : Nat) : byteAddr addr i = nthByte addr i := by
  simp [byteAddr, nthByte, BitVec.toNat_add, BitVec.toNat_ofNat]

@[simp] theorem nthByte_zero (addr : Word) : nthByte addr 0 = addr.toNat := by
  have := addr.isLt
  simp [nthByte, Nat.mod_eq_of_lt this]

theorem nthByte_lt (addr : Word) (i : Nat) : nthByte addr i < 2 ^ 32 := Nat.mod_lt _ (by decide)

theorem nthByte_succ (addr : Word) (i : Nat) : nthByte (addr + 1#32) i = nthByte addr (i + 1) := by
  simp only [nthByte, BitVec.toNat_add, BitVec.toNat_ofNat]
  omega

/-- The bytes of one access are apart. -/
theorem nthByte_injective {addr : Word} {i j : Nat} (hi : i < 2 ^ 32) (hj : j < 2 ^ 32) (h : nthByte addr i = nthByte addr j) :
    i = j := by
  have := addr.isLt
  simp only [nthByte] at h
  omega

theorem validAt_lt {c : Config} {a : Nat} (h : validAt c a = true) : a < 2 ^ 32 := by
  simp only [validAt, Bool.and_eq_true, decide_eq_true_eq] at h
  exact h.1

theorem mem_accessAddrs {addr : Word} {n a : Nat} : a ∈ accessAddrs addr n ↔ ∃ i < n, nthByte addr i = a := by
  simp [accessAddrs, byteAddr_eq]

theorem accessValid_iff (s : State) (addr : Word) (n : Nat) : accessValid s.cfg addr n = true ↔ InMemory s addr n := by
  simp [accessValid, InMemory, List.all_eq_true, mem_accessAddrs]

theorem misalignedFaults_iff (s : State) (w : Width) (addr : Word) :
    misalignedFaults s.cfg w addr = false ↔ AlignmentOk s addr w.bytes := by
  simp [misalignedFaults, AlignmentOk]

theorem accessStored_iff (s : State) (addr : Word) (n : Nat) : accessStored s addr n = true ↔ WrittenByStore s addr n := by
  simp [accessStored, WrittenByStore, List.any_eq_true, mem_accessAddrs]

theorem bytes_pos_le (w : Width) : 0 < w.bytes ∧ w.bytes ≤ 4 := by cases w <;> decide

/-! ## Storing bytes (20_memory.md R45) -/

section StoreBytes

variable (s : State) (addr : Word) (bs : List Byte)

@[simp] theorem storeBytes_nil : s.storeBytes addr [] = s := rfl

@[simp] theorem storeBytes_regs : (s.storeBytes addr bs).regs = s.regs := by
  induction bs generalizing s addr with
  | nil => rfl
  | cons b bs ih => simp [State.storeBytes, ih]

@[simp] theorem storeBytes_pc : (s.storeBytes addr bs).pc = s.pc := by
  induction bs generalizing s addr with
  | nil => rfl
  | cons b bs ih => simp [State.storeBytes, ih]

@[simp] theorem storeBytes_cfg : (s.storeBytes addr bs).cfg = s.cfg := by
  induction bs generalizing s addr with
  | nil => rfl
  | cons b bs ih => simp [State.storeBytes, ih]

@[simp] theorem storeBytes_reg (r : Reg) : (s.storeBytes addr bs).reg r = s.reg r := by
  simp [State.reg]

@[simp] theorem storeByte_byteAt (a b : Nat) (v : Byte) :
    (s.storeByte a v).byteAt b = if b = a then v else s.byteAt b := memory_read_write _ _ _ _

/-- A byte that the store does not reach is as before. -/
theorem storeBytes_byteAt_other {a : Nat} (h : ∀ i < bs.length, a ≠ nthByte addr i) :
    (s.storeBytes addr bs).byteAt a = s.byteAt a := by
  induction bs generalizing s addr with
  | nil => rfl
  | cons b bs ih =>
    have h0 : a ≠ addr.toNat := by simpa using h 0 (by simp)
    rw [State.storeBytes, ih _ _ (fun i hi => ?_)]
    · simp [h0]
    · rw [nthByte_succ]
      exact h (i + 1) (by simpa using hi)

/-- A byte that the store reaches holds the byte stored there. -/
theorem storeBytes_byteAt (hlen : bs.length ≤ 2 ^ 32) {i : Nat} (hi : i < bs.length) :
    (s.storeBytes addr bs).byteAt (nthByte addr i) = bs[i] := by
  induction bs generalizing s addr i with
  | nil => simp at hi
  | cons b bs ih =>
    simp only [List.length_cons] at hlen hi
    cases i with
    | zero =>
      rw [State.storeBytes, storeBytes_byteAt_other]
      · simp
      · intro i hi h
        rw [nthByte_succ] at h
        have := nthByte_injective (by omega) (by omega) h
        omega
    | succ i =>
      rw [State.storeBytes, ← nthByte_succ, ih _ _ (by omega) (by omega)]
      simp

/-- The store adds its addresses to the record of stored bytes, and no other. -/
theorem storeBytes_stored (a : Nat) :
    a ∈ (s.storeBytes addr bs).stored ↔ a ∈ s.stored ∨ ∃ i < bs.length, a = nthByte addr i := by
  induction bs generalizing s addr with
  | nil => simp
  | cons b bs ih =>
    rw [State.storeBytes, ih, storeByte_stored, addrSet_mem_insert]
    constructor
    · rintro ((rfl | h) | ⟨i, hi, rfl⟩)
      · exact .inr ⟨0, by simp, by simp⟩
      · exact .inl h
      · exact .inr ⟨i + 1, by simpa using hi, nthByte_succ _ _⟩
    · rintro (h | ⟨i, hi, rfl⟩)
      · exact .inl (.inr h)
      · cases i with
        | zero => exact .inl (.inl (by simp))
        | succ i => exact .inr ⟨i, by simpa using hi, (nthByte_succ _ _).symm⟩

/-- Storing keeps the canonical form of memory. -/
theorem storeBytes_mem_wf (h : s.mem.wf = true) : (s.storeBytes addr bs).mem.wf = true := by
  induction bs generalizing s addr with
  | nil => exact h
  | cons b bs ih => exact ih _ _ (memory_write_wf h addr.isLt b)

/-- Storing keeps the one form of the record of stored bytes. -/
theorem storeBytes_stored_wf (h : s.stored.wf = true) : (s.storeBytes addr bs).stored.wf = true := by
  induction bs generalizing s addr with
  | nil => exact h
  | cons b bs ih => exact ih _ _ (addrSet_insert_wf h addr.isLt)

/-- A cell after a store is for an address of the store, or was there before. -/
theorem storeBytes_mem_cell {c : Host.Cell} (h : c ∈ (s.storeBytes addr bs).mem) :
    (∃ i < bs.length, c.1 = nthByte addr i) ∨ c ∈ s.mem := by
  induction bs generalizing s addr with
  | nil => exact .inr h
  | cons b bs ih =>
    rcases ih _ _ h with ⟨i, hi, hc⟩ | hc
    · exact .inl ⟨i + 1, by simpa using hi, hc.trans (nthByte_succ _ _)⟩
    · rcases memory_mem_write hc with hc | hc
      · exact .inl ⟨0, by simp, by simpa using hc⟩
      · exact .inr hc

end StoreBytes

@[simp] theorem valueBytes_length (w : Width) (v : BitVec w.bits) : (valueBytes w v).length = w.bytes := by
  cases w <;> rfl

/-- The bytes of a value, bits 7:0 first (20_memory.md R42). -/
theorem valueBytes_getElem (w : Width) (v : BitVec w.bits) {i : Nat} (hi : i < w.bytes)
    (h : i < (valueBytes w v).length := by simpa using hi) : (valueBytes w v)[i] = v.extractLsb' (8 * i) 8 := by
  cases w with
  | byte =>
    have : i = 0 := by simp [Width.bytes] at hi; omega
    subst this
    simp only [valueBytes, List.getElem_cons_zero]
    ext j hj
    simp
  | half =>
    simp only [Width.bytes] at hi
    rcases (by omega : i = 0 ∨ i = 1) with rfl | rfl <;> rfl
  | word =>
    simp only [Width.bytes] at hi
    rcases (by omega : i = 0 ∨ i = 1 ∨ i = 2 ∨ i = 3) with rfl | rfl | rfl | rfl <;> rfl

/-- The bytes of a 16-bit concatenation. -/
theorem append2_bytes (b1 b0 : Byte) :
    (b1 ++ b0 : BitVec 16).extractLsb' 0 8 = b0 ∧ (b1 ++ b0 : BitVec 16).extractLsb' 8 8 = b1 := by
  simp (disch := decide) only [BitVec.extractLsb'_append_eq_of_le, BitVec.extractLsb'_append_eq_of_add_le, Nat.reduceSub,
    BitVec.extractLsb'_eq_self, and_self]

/-- The bytes of a 32-bit concatenation. -/
theorem append4_bytes (b3 b2 b1 b0 : Byte) :
    (b3 ++ b2 ++ b1 ++ b0 : Word).extractLsb' 0 8 = b0 ∧ (b3 ++ b2 ++ b1 ++ b0 : Word).extractLsb' 8 8 = b1 ∧
      (b3 ++ b2 ++ b1 ++ b0 : Word).extractLsb' 16 8 = b2 ∧ (b3 ++ b2 ++ b1 ++ b0 : Word).extractLsb' 24 8 = b3 := by
  simp (disch := decide) only [BitVec.extractLsb'_append_eq_of_le, BitVec.extractLsb'_append_eq_of_add_le, Nat.reduceSub,
    BitVec.extractLsb'_eq_self, and_self]

/-- The value at an address is its bytes, the lowest address in bits 7:0 (20_memory.md R42, R44). -/
theorem valueAt_extract (s : State) (addr : Word) (w : Width) {i : Nat} (hi : i < w.bytes) :
    (s.valueAt addr w).extractLsb' (8 * i) 8 = s.byteAt (nthByte addr i) := by
  cases w with
  | byte =>
    have : i = 0 := by simp [Width.bytes] at hi; omega
    subst this
    simp only [State.valueAt, byteAddr_eq]
    exact BitVec.extractLsb'_eq_self
  | half =>
    simp only [Width.bytes] at hi
    simp only [State.valueAt, byteAddr_eq]
    have h := append2_bytes (s.byteAt (nthByte addr 1)) (s.byteAt (nthByte addr 0))
    rcases (by omega : i = 0 ∨ i = 1) with rfl | rfl
    · exact h.1
    · exact h.2
  | word =>
    simp only [Width.bytes] at hi
    simp only [State.valueAt, byteAddr_eq]
    have h := append4_bytes (s.byteAt (nthByte addr 3)) (s.byteAt (nthByte addr 2)) (s.byteAt (nthByte addr 1))
      (s.byteAt (nthByte addr 0))
    rcases (by omega : i = 0 ∨ i = 1 ∨ i = 2 ∨ i = 3) with rfl | rfl | rfl | rfl
    · exact h.1
    · exact h.2.1
    · exact h.2.2.1
    · exact h.2.2.2

/-! ## The access primitives (20_memory.md R44, R45) -/

/-- A read that answers is aligned where alignment counts, in memory, and gives the bytes there. -/
theorem memRead_ok {s : State} {w : Width} {addr : Word} {v : BitVec w.bits} (h : memRead s w addr = .ok v) :
    AlignmentOk s addr w.bytes ∧ InMemory s addr w.bytes ∧ v = s.valueAt addr w := by
  unfold memRead at h
  split at h
  · cases h
  · next hm =>
    split at h
    · next hv =>
      cases h
      exact ⟨(misalignedFaults_iff _ _ _).1 (by simpa using hm), (accessValid_iff _ _ _).1 hv, rfl⟩
    · cases h

/-- A read that is aligned where alignment counts and in memory answers. -/
theorem memRead_of_ok {s : State} {w : Width} {addr : Word} (ha : AlignmentOk s addr w.bytes) (hv : InMemory s addr w.bytes) :
    memRead s w addr = .ok (s.valueAt addr w) := by
  simp [memRead, (misalignedFaults_iff _ _ _).2 ha, (accessValid_iff _ _ _).2 hv]

/-- A read that raises says why: misalignment first, then a byte outside memory (60_exceptions.md R215). -/
theorem memRead_error {s : State} {w : Width} {addr : Word} {f : Fault} (h : memRead s w addr = .error f) :
    (f = .loadAddressMisaligned addr ∧ ¬ AlignmentOk s addr w.bytes) ∨
      (f = .loadAccessFault addr ∧ AlignmentOk s addr w.bytes ∧ ¬ InMemory s addr w.bytes) := by
  unfold memRead at h
  split at h
  · next hm =>
    cases h
    refine .inl ⟨rfl, fun ha => ?_⟩
    rw [(misalignedFaults_iff _ _ _).2 ha] at hm
    cases hm
  · next hm =>
    split at h
    · cases h
    · next hv =>
      cases h
      exact .inr ⟨rfl, (misalignedFaults_iff _ _ _).1 (by simpa using hm), fun hin => hv ((accessValid_iff _ _ _).2 hin)⟩

/-- A write that answers is aligned where alignment counts, in memory, and has stored the bytes of the value. -/
theorem memWrite_ok {s t : State} {w : Width} {addr : Word} {v : BitVec w.bits} (h : memWrite s w addr v = .ok t) :
    AlignmentOk s addr w.bytes ∧ InMemory s addr w.bytes ∧ t = s.storeBytes addr (valueBytes w v) := by
  unfold memWrite at h
  split at h
  · cases h
  · next hm =>
    split at h
    · next hv =>
      cases h
      exact ⟨(misalignedFaults_iff _ _ _).1 (by simpa using hm), (accessValid_iff _ _ _).1 hv, rfl⟩
    · cases h

/-- A write that is aligned where alignment counts and in memory answers. -/
theorem memWrite_of_ok {s : State} {w : Width} {addr : Word} (v : BitVec w.bits) (ha : AlignmentOk s addr w.bytes)
    (hv : InMemory s addr w.bytes) : memWrite s w addr v = .ok (s.storeBytes addr (valueBytes w v)) := by
  simp [memWrite, (misalignedFaults_iff _ _ _).2 ha, (accessValid_iff _ _ _).2 hv]

/-- A write that raises says why: misalignment first, then a byte outside memory (60_exceptions.md R215). -/
theorem memWrite_error {s : State} {w : Width} {addr : Word} {v : BitVec w.bits} {f : Fault}
    (h : memWrite s w addr v = .error f) :
    (f = .storeAddressMisaligned addr ∧ ¬ AlignmentOk s addr w.bytes) ∨
      (f = .storeAccessFault addr ∧ AlignmentOk s addr w.bytes ∧ ¬ InMemory s addr w.bytes) := by
  unfold memWrite at h
  split at h
  · next hm =>
    cases h
    refine .inl ⟨rfl, fun ha => ?_⟩
    rw [(misalignedFaults_iff _ _ _).2 ha] at hm
    cases hm
  · next hm =>
    split at h
    · cases h
    · next hv =>
      cases h
      exact .inr ⟨rfl, (misalignedFaults_iff _ _ _).1 (by simpa using hm), fun hin => hv ((accessValid_iff _ _ _).2 hin)⟩

/-! ## Fetch (20_memory.md R46) -/

/-- A fetch that answers is at a multiple of 4, in memory, reads no byte stored in this run, and gives the word there. -/
theorem fetch_ok {s : State} {inst : Word} (h : fetch s = .ok inst) :
    s.pc.toNat % 4 = 0 ∧ InMemory s s.pc 4 ∧ ¬ WrittenByStore s s.pc 4 ∧ inst = s.instAt s.pc := by
  unfold fetch at h
  split at h
  · cases h
  · next h4 =>
    split at h
    · cases h
    · next hv =>
      split at h
      · cases h
      · next hs =>
        cases h
        exact ⟨by simpa using h4, (accessValid_iff _ _ _).1 (by simpa using hv),
          fun hw => hs ((accessStored_iff _ _ _).2 hw), rfl⟩

/-- When a fetch answers. -/
theorem fetch_of_ok {s : State} (h4 : s.pc.toNat % 4 = 0) (hv : InMemory s s.pc 4) (hs : ¬ WrittenByStore s s.pc 4) :
    fetch s = .ok (s.instAt s.pc) := by
  have hs' : accessStored s s.pc 4 = false := by
    rw [← Bool.not_eq_true, accessStored_iff]
    exact hs
  simp [fetch, h4, (accessValid_iff _ _ _).2 hv, hs']

/-! ## The forms the meanings share -/

/-- A load that completes has read its value and written it, extended, to `rd` (40_loads.md R120). -/
theorem load_next {w : Width} {ext : BitVec w.bits → Word} {rd rs1 : Reg} {imm : BitVec 12} {s t : State}
    (h : load w ext rd imm rs1 s = .next t) :
    memRead s w (loadAddress s rs1 imm) = .ok (s.valueAt (loadAddress s rs1 imm) w) ∧
      t = (s.setReg rd (ext (s.valueAt (loadAddress s rs1 imm) w))).advance := by
  unfold load at h
  split at h
  · cases h
  · next m hm =>
    cases h
    obtain ⟨-, -, rfl⟩ := memRead_ok hm
    exact ⟨hm, rfl⟩

/-- A store that completes has stored the low bytes of `x[rs2]`, all of them in memory (43_stores.md R150). -/
theorem store_next {w : Width} {rs1 rs2 : Reg} {imm : BitVec 12} {s t : State} (h : store w rs2 imm rs1 s = .next t) :
    AlignmentOk s (storeAddress s rs1 imm) w.bytes ∧ InMemory s (storeAddress s rs1 imm) w.bytes ∧
      t = (s.storeBytes (storeAddress s rs1 imm) (valueBytes w (lowBits w (s.reg rs2)))).advance := by
  unfold store at h
  split at h
  · cases h
  · next s' hs =>
    cases h
    obtain ⟨ha, hv, rfl⟩ := memWrite_ok hs
    exact ⟨ha, hv, rfl⟩

/-- A branch that completes has gone to its target, a multiple of 4, or advanced (46_branches.md R180). -/
theorem branch_next {cond : Bool} {offset : BitVec 13} {s t : State} (h : branch cond offset s = .next t) :
    (cond = true ∧ (branchTarget s offset).toNat % 4 = 0 ∧ t = s.setPc (branchTarget s offset)) ∨
      (cond = false ∧ t = s.advance) := by
  unfold branch at h
  split at h
  · next hc =>
    simp only at h
    split at h
    · cases h
    · next h4 =>
      cases h
      exact .inl ⟨hc, by simpa using h4, rfl⟩
  · next hc =>
    cases h
    exact .inr ⟨by simpa using hc, rfl⟩

/-- A jump that completes has linked and gone to its target, a multiple of 4 (47_jumps.md R190). -/
theorem jump_next {rd : Reg} {target : Word} {s t : State} (h : jump rd target s = .next t) :
    target.toNat % 4 = 0 ∧ t = (s.setReg rd (s.pc + 4#32)).setPc target := by
  unfold jump at h
  split at h
  · cases h
  · next h4 =>
    cases h
    exact ⟨by simpa using h4, rfl⟩

/-- What one instruction can do when it completes. -/
inductive Effect (i : Instr) (s : State) : State → Prop
  /-- It writes `rd` and advances. -/
  | writes (rd : Reg) (v : Word) (hd : destOf i = some rd) (hc : ¬ Taken s i) (hs : storesOf s i = []) :
      Effect i s (s.setReg rd v).advance
  /-- It only advances. -/
  | advances (hc : ¬ Taken s i) (hs : storesOf s i = []) : Effect i s s.advance
  /-- It stores bytes of memory and advances. -/
  | stores (w : Width) (addr : Word) (v : BitVec w.bits) (hv : InMemory s addr w.bytes) (hd : destOf i = none)
      (hc : ¬ Taken s i)
      (hs : storesOf s i = (List.range w.bytes).map (fun k => (nthByte addr k, v.extractLsb' (8 * k) 8))) :
      Effect i s (s.storeBytes addr (valueBytes w v)).advance
  /-- It goes to a multiple of 4. -/
  | branches (target : Word) (h4 : target.toNat % 4 = 0) (hc : Taken s i) (hs : storesOf s i = []) :
      Effect i s (s.setPc target)
  /-- It links and goes to a multiple of 4. -/
  | links (rd : Reg) (target : Word) (h4 : target.toNat % 4 = 0) (hd : destOf i = some rd)
      (hc : Taken s i) (hs : storesOf s i = []) :
      Effect i s ((s.setReg rd (s.pc + 4#32)).setPc target)

end Sys2Proof.Machine
end

