-- ==== Sys2Proof/Laws/Exec.lean ====
section
/-! SUPPORT. Operands in plain arithmetic, and what an instruction can do when it completes. -/

namespace Sys2Proof.Machine

/-! ## Operands in plain arithmetic (00_scope.md R9) -/

theorem plusSigned_eq (a : Word) (d : Int) : plusSigned a d = a + BitVec.ofInt 32 d := by
  rw [plusSigned, BitVec.ofInt_add, BitVec.ofInt_natCast, BitVec.ofNat_toNat, BitVec.setWidth_eq]

theorem loadAddress_eq (s : State) (rs1 : Reg) (imm : BitVec 12) :
    loadAddress s rs1 imm = plusSigned (s.reg rs1) imm.toInt := by
  rw [plusSigned_eq]
  rfl

theorem storeAddress_eq (s : State) (rs1 : Reg) (imm : BitVec 12) :
    storeAddress s rs1 imm = plusSigned (s.reg rs1) imm.toInt := by
  rw [plusSigned_eq]
  rfl

theorem branchTarget_eq (s : State) (offset : BitVec 13) : branchTarget s offset = plusSigned s.pc offset.toInt := by
  rw [plusSigned_eq]
  rfl

theorem jumpTarget_eq (s : State) (offset : BitVec 21) : jumpTarget s offset = plusSigned s.pc offset.toInt := by
  rw [plusSigned_eq]
  rfl

/-- Clearing bit 0 makes a value even. -/
theorem clearBit0_eq (t : Word) : (t.extractLsb' 1 31 ++ 0#1 : Word) = BitVec.ofNat 32 (t.toNat - t.toNat % 2) := by
  apply BitVec.eq_of_toNat_eq
  have := t.isLt
  simp only [BitVec.toNat_append, BitVec.extractLsb'_toNat, BitVec.toNat_ofNat, Nat.shiftRight_eq_div_pow,
    Nat.shiftLeft_eq, Nat.zero_mod, Nat.or_zero, Nat.pow_one]
  omega

theorem jalrTarget_eq (s : State) (rs1 : Reg) (imm : BitVec 12) : jalrTarget s rs1 imm = jalrTo s rs1 imm := by
  have h : s.reg rs1 + immI imm = plusSigned (s.reg rs1) imm.toInt := (loadAddress_eq s rs1 imm)
  simp only [jalrTarget, jalrTo, h, clearBit0_eq]

theorem shamtReg_eq (v : Word) : shamtReg v = v.toNat % 32 := by
  simp [shamtReg, BitVec.extractLsb'_toNat]

/-- The bytes of what a store moves are the low bytes of the register (20_memory.md R47). -/
theorem lowBits_extract (w : Width) (v : Word) {i : Nat} (hi : i < w.bytes) :
    (lowBits w v).extractLsb' (8 * i) 8 = v.extractLsb' (8 * i) 8 := by
  unfold lowBits
  ext j hj
  cases w <;> simp only [Width.bytes] at hi <;> simp [BitVec.getLsbD_setWidth, Width.bits] <;> omega

/-! ## What an instruction can do when it completes -/

theorem storesOf_eq {s : State} {rs1 rs2 : Reg} {imm : BitVec 12} (w : Width) :
    (List.range w.bytes).map (fun k => (nthByte (storeAddress s rs1 imm) k, (lowBits w (s.reg rs2)).extractLsb' (8 * k) 8)) =
      (List.range w.bytes).map
        (fun k => (nthByte (plusSigned (s.reg rs1) imm.toInt) k, (s.reg rs2).extractLsb' (8 * k) 8)) := by
  rw [storeAddress_eq]
  refine List.map_congr_left (fun k hk => ?_)
  rw [lowBits_extract w _ (List.mem_range.1 hk)]

theorem lessSigned_iff (a b : Word) : lessSigned a b = true ↔ a.toInt < b.toInt := by simp [lessSigned]

theorem lessUnsigned_iff (a b : Word) : lessUnsigned a b = true ↔ a.toNat < b.toNat := by simp [lessUnsigned]

/-- A branch goes to its target exactly when it is taken. -/
theorem branch_effect {i : Instr} {cond : Bool} {offset : BitVec 13} {s t : State} (hc : cond = true ↔ Taken s i)
    (hs : storesOf s i = []) (h : branch cond offset s = .next t) : Effect i s t := by
  rcases branch_next h with ⟨ht, h4, rfl⟩ | ⟨hf, rfl⟩
  · exact .branches _ h4 (hc.1 ht) hs
  · exact .advances (fun ht => by simp [hc.2 ht] at hf) hs

/-- An instruction that completes does one of five things: it writes `rd`, stores, branches, links, or only advances. -/
theorem exec_next {i : Instr} {s t : State} (h : exec i s = .next t) : Effect i s t := by
  cases i
  case lb | lh | lw | lbu | lhu =>
    obtain ⟨-, rfl⟩ := load_next h
    exact .writes _ _ rfl id rfl
  case addi | slli | slti | sltiu | xori | srli | srai | ori | andi | auipc | add | sub | sll | slt | sltu | xor | srl | sra
      | or | and | lui =>
    cases h
    exact .writes _ _ rfl id rfl
  case sb rs2 imm rs1 =>
    obtain ⟨-, hv, rfl⟩ := store_next h
    exact .stores .byte _ _ hv rfl id (storesOf_eq .byte).symm
  case sh rs2 imm rs1 =>
    obtain ⟨-, hv, rfl⟩ := store_next h
    exact .stores .half _ _ hv rfl id (storesOf_eq .half).symm
  case sw rs2 imm rs1 =>
    obtain ⟨-, hv, rfl⟩ := store_next h
    exact .stores .word _ _ hv rfl id (storesOf_eq .word).symm
  case beq => exact branch_effect (by simp [Taken]) rfl h
  case bne => exact branch_effect (by simp [Taken]) rfl h
  case blt => exact branch_effect (lessSigned_iff _ _) rfl h
  case bge => exact branch_effect (by simp [Taken, lessSigned]) rfl h
  case bltu => exact branch_effect (lessUnsigned_iff _ _) rfl h
  case bgeu => exact branch_effect (by simp [Taken, lessUnsigned]) rfl h
  case jalr | jal =>
    obtain ⟨h4, rfl⟩ := jump_next h
    exact .links _ _ h4 rfl trivial rfl
  case fence =>
    cases h
    exact .advances id rfl
  case ecall | ebreak => cases h

/-- What a step does: it fetches, decodes, executes, and the first to raise decides. -/
theorem step_cases (s : State) :
    (∃ f, fetch s = .error f ∧ step s = .fault f) ∨
      (∃ inst e, fetch s = .ok inst ∧ decode s.cfg inst = .error e ∧ step s = .fault (.illegalInstruction inst)) ∨
      (∃ inst i, fetch s = .ok inst ∧ decode s.cfg inst = .ok i ∧ step s = exec i s) := by
  cases hf : fetch s with
  | error f => exact .inl ⟨f, rfl, by simp [step, hf, raise]⟩
  | ok inst =>
    cases hd : decode s.cfg inst with
    | error e => exact .inr (.inl ⟨inst, e, rfl, hd, by simp [step, hf, hd, raise]⟩)
    | ok i => exact .inr (.inr ⟨inst, i, rfl, hd, by simp [step, hf, hd]⟩)

/-- A step that completes has executed the instruction it decoded. -/
theorem step_next {s t : State} (h : step s = .next t) :
    ∃ inst i, fetch s = .ok inst ∧ decode s.cfg inst = .ok i ∧ exec i s = .next t := by
  rcases step_cases s with ⟨f, -, hs⟩ | ⟨inst, e, -, -, hs⟩ | ⟨inst, i, hf, hd, hs⟩
  · rw [hs] at h
    cases h
  · rw [hs] at h
    cases h
  · exact ⟨inst, i, hf, hd, hs ▸ h⟩

end Sys2Proof.Machine
end

