-- ==== Sys2Proof/Laws/PerInstr.lean ====
section
/-! SUPPORT. A statement about every instruction, one lemma for each constructor: the `op` field of its encoding is the value
30_encoding.md R88 and R102 list for its group. -/

namespace Sys2Proof.Laws

/-- The `op` value of an instruction's group (30_encoding.md R88, R102). -/
def opOf : Instr → BitVec 7
  | .lb _ _ _ | .lh _ _ _ | .lw _ _ _ | .lbu _ _ _ | .lhu _ _ _ => 3#7
  | .addi _ _ _ | .slli _ _ _ | .slti _ _ _ | .sltiu _ _ _ | .xori _ _ _ | .srli _ _ _ | .srai _ _ _ | .ori _ _ _
  | .andi _ _ _ => 19#7
  | .auipc _ _ => 23#7
  | .sb _ _ _ | .sh _ _ _ | .sw _ _ _ => 35#7
  | .add _ _ _ | .sub _ _ _ | .sll _ _ _ | .slt _ _ _ | .sltu _ _ _ | .xor _ _ _ | .srl _ _ _ | .sra _ _ _ | .or _ _ _
  | .and _ _ _ => 51#7
  | .lui _ _ => 55#7
  | .beq _ _ _ | .bne _ _ _ | .blt _ _ _ | .bge _ _ _ | .bltu _ _ _ | .bgeu _ _ _ => 99#7
  | .jalr _ _ _ => 103#7
  | .jal _ _ => 111#7
  | .fence _ _ _ _ _ => 15#7
  | .ecall | .ebreak => 115#7

end Sys2Proof.Laws

namespace Sys2Proof.Laws.OpOfEncoding

/-- The encoding of the instruction has the `op` value of its group, under every setting of the parameters. -/
def Statement (i : Instr) : Prop := ∀ c : Config, opField (encode c i) = opOf i

theorem lb (rd : Reg) (imm : BitVec 12) (rs1 : Reg) : Statement (.lb rd imm rs1) := fun _ => (encodeI_fields _ _ _ _ _).1

theorem lh (rd : Reg) (imm : BitVec 12) (rs1 : Reg) : Statement (.lh rd imm rs1) := fun _ => (encodeI_fields _ _ _ _ _).1

theorem lw (rd : Reg) (imm : BitVec 12) (rs1 : Reg) : Statement (.lw rd imm rs1) := fun _ => (encodeI_fields _ _ _ _ _).1

theorem lbu (rd : Reg) (imm : BitVec 12) (rs1 : Reg) : Statement (.lbu rd imm rs1) := fun _ => (encodeI_fields _ _ _ _ _).1

theorem lhu (rd : Reg) (imm : BitVec 12) (rs1 : Reg) : Statement (.lhu rd imm rs1) := fun _ => (encodeI_fields _ _ _ _ _).1

theorem addi (rd rs1 : Reg) (imm : BitVec 12) : Statement (.addi rd rs1 imm) := fun _ => (encodeI_fields _ _ _ _ _).1

theorem slli (rd rs1 : Reg) (uimm : BitVec 5) : Statement (.slli rd rs1 uimm) := fun _ => (encodeShift_fields _ _ _ _ _ _).1

theorem slti (rd rs1 : Reg) (imm : BitVec 12) : Statement (.slti rd rs1 imm) := fun _ => (encodeI_fields _ _ _ _ _).1

theorem sltiu (rd rs1 : Reg) (imm : BitVec 12) : Statement (.sltiu rd rs1 imm) := fun _ => (encodeI_fields _ _ _ _ _).1

theorem xori (rd rs1 : Reg) (imm : BitVec 12) : Statement (.xori rd rs1 imm) := fun _ => (encodeI_fields _ _ _ _ _).1

theorem srli (rd rs1 : Reg) (uimm : BitVec 5) : Statement (.srli rd rs1 uimm) := fun _ => (encodeShift_fields _ _ _ _ _ _).1

theorem srai (rd rs1 : Reg) (uimm : BitVec 5) : Statement (.srai rd rs1 uimm) := fun _ => (encodeShift_fields _ _ _ _ _ _).1

theorem ori (rd rs1 : Reg) (imm : BitVec 12) : Statement (.ori rd rs1 imm) := fun _ => (encodeI_fields _ _ _ _ _).1

theorem andi (rd rs1 : Reg) (imm : BitVec 12) : Statement (.andi rd rs1 imm) := fun _ => (encodeI_fields _ _ _ _ _).1

theorem auipc (rd : Reg) (upimm : BitVec 20) : Statement (.auipc rd upimm) := fun _ => (encodeU_fields _ _ _).1

theorem sb (rs2 : Reg) (imm : BitVec 12) (rs1 : Reg) : Statement (.sb rs2 imm rs1) := fun _ => (encodeS_fields _ _ _ _ _).1

theorem sh (rs2 : Reg) (imm : BitVec 12) (rs1 : Reg) : Statement (.sh rs2 imm rs1) := fun _ => (encodeS_fields _ _ _ _ _).1

theorem sw (rs2 : Reg) (imm : BitVec 12) (rs1 : Reg) : Statement (.sw rs2 imm rs1) := fun _ => (encodeS_fields _ _ _ _ _).1

theorem add (rd rs1 rs2 : Reg) : Statement (.add rd rs1 rs2) := fun _ => (encodeR_fields _ _ _ _ _ _).1

theorem sub (rd rs1 rs2 : Reg) : Statement (.sub rd rs1 rs2) := fun _ => (encodeR_fields _ _ _ _ _ _).1

theorem sll (rd rs1 rs2 : Reg) : Statement (.sll rd rs1 rs2) := fun _ => (encodeR_fields _ _ _ _ _ _).1

theorem slt (rd rs1 rs2 : Reg) : Statement (.slt rd rs1 rs2) := fun _ => (encodeR_fields _ _ _ _ _ _).1

theorem sltu (rd rs1 rs2 : Reg) : Statement (.sltu rd rs1 rs2) := fun _ => (encodeR_fields _ _ _ _ _ _).1

theorem xor (rd rs1 rs2 : Reg) : Statement (.xor rd rs1 rs2) := fun _ => (encodeR_fields _ _ _ _ _ _).1

theorem srl (rd rs1 rs2 : Reg) : Statement (.srl rd rs1 rs2) := fun _ => (encodeR_fields _ _ _ _ _ _).1

theorem sra (rd rs1 rs2 : Reg) : Statement (.sra rd rs1 rs2) := fun _ => (encodeR_fields _ _ _ _ _ _).1

theorem or (rd rs1 rs2 : Reg) : Statement (.or rd rs1 rs2) := fun _ => (encodeR_fields _ _ _ _ _ _).1

theorem and (rd rs1 rs2 : Reg) : Statement (.and rd rs1 rs2) := fun _ => (encodeR_fields _ _ _ _ _ _).1

theorem lui (rd : Reg) (upimm : BitVec 20) : Statement (.lui rd upimm) := fun _ => (encodeU_fields _ _ _).1

theorem beq (rs1 rs2 : Reg) (offset : BitVec 13) : Statement (.beq rs1 rs2 offset) := fun _ => (encodeB_fields _ _ _ _ _).1

theorem bne (rs1 rs2 : Reg) (offset : BitVec 13) : Statement (.bne rs1 rs2 offset) := fun _ => (encodeB_fields _ _ _ _ _).1

theorem blt (rs1 rs2 : Reg) (offset : BitVec 13) : Statement (.blt rs1 rs2 offset) := fun _ => (encodeB_fields _ _ _ _ _).1

theorem bge (rs1 rs2 : Reg) (offset : BitVec 13) : Statement (.bge rs1 rs2 offset) := fun _ => (encodeB_fields _ _ _ _ _).1

theorem bltu (rs1 rs2 : Reg) (offset : BitVec 13) : Statement (.bltu rs1 rs2 offset) := fun _ => (encodeB_fields _ _ _ _ _).1

theorem bgeu (rs1 rs2 : Reg) (offset : BitVec 13) : Statement (.bgeu rs1 rs2 offset) := fun _ => (encodeB_fields _ _ _ _ _).1

theorem jalr (rd rs1 : Reg) (imm : BitVec 12) : Statement (.jalr rd rs1 imm) := fun _ => (encodeI_fields _ _ _ _ _).1

theorem jal (rd : Reg) (offset : BitVec 21) : Statement (.jal rd offset) := fun _ => (encodeJ_fields _ _ _).1

theorem fence (fm pred succ : BitVec 4) (rs1Field rdField : BitVec 5) : Statement (.fence fm pred succ rs1Field rdField) :=
  fun _ => (encodeFence_fields _ _ _ _ _).1

theorem ecall : Statement .ecall := fun _ => show opField 0x00000073#32 = 115#7 by decide

theorem ebreak : Statement .ebreak := fun _ => show opField 0x00100073#32 = 115#7 by decide

end Sys2Proof.Laws.OpOfEncoding
end

