-- ==== Sys2Proof/Tests/Slice0.lean ====
section
/-! SUPPORT. Tests: the checks of well-formedness refuse an ill-formed term each; the decoder on words written out from the
encodings of 30_encoding.md and the examples of spec/; one step of each instruction on an example of its rule; and, for each
obligation with hypotheses, a state and operands that meet them. Every expected result is from spec/. -/

namespace Sys2Proof.Tests

open Sys2Proof.Machine

/-! ## Helpers -/

/-- The default parameters but for a memory of 8 KiB. -/
def small : Config := { Config.default with memValid := [⟨0, 0x2000⟩], resetPc := 0x100#32 }

/-- `small` with `MISALIGNED_DATA` = `split`. -/
def splitting : Config := { small with misalignedData := .split }

/-- A start state with some registers and bytes set and an instruction word at `pc`. -/
def at' (c : Config) (pc inst : Word) (regs : List (Reg × Word)) (bytes : List (Nat × Byte)) : State :=
  let s := (State.start c (Vector.replicate 31 0#32) []).setPc pc
  let s := regs.foldl (fun s p => s.setReg p.1 p.2) s
  let s := bytes.foldl (fun s p => s.loadByte p.1 p.2) s
  s.loadWord pc inst

/-- The outcome is a next state with this `pc` and these registers and bytes. -/
def lands (o : Result) (pc : Word) (regs : List (Reg × Word)) (bytes : List (Nat × Byte)) : Bool :=
  match o with
  | .next t => t.pc == pc && regs.all (fun p => t.reg p.1 == p.2) && bytes.all (fun p => t.byteAt p.1 == p.2)
  | .fault _ | .refused _ => false

/-- The outcome is this fault. -/
def stops (o : Result) (f : Fault) : Bool :=
  match o with
  | .fault g => decide (g = f)
  | .next _ | .refused _ => false

/-- The decoder accepts the word as the instruction. -/
def reads (c : Config) (w : Word) (i : Instr) : Bool := decide (decode c w = .ok i)

/-- The decoder rejects the word for the reason. -/
def rejects (c : Config) (w : Word) (r : Reject) : Bool := decide (decode c w = .error r)

/-- A word the decoder rejects is no instruction. -/
theorem no_instr {c : Config} {w : Word} {r : Reject} (h : decode c w = .error r) : ∀ i, decode c w ≠ .ok i := by
  intro i hi
  rw [h] at hi
  cases hi

/-! ## Well-formedness: an ill-formed term for each check -/

theorem test_wf_register_exists : (Instr.add 16 0 0).wf { Config.default with baseIsa := .rv32e } = false := by decide
theorem test_wf_source_exists : (Instr.sw 1 0 31).wf { Config.default with baseIsa := .rv32e } = false := by decide
theorem test_wf_branch_offset_even : (Instr.beq 0 0 3#13).wf Config.default = false := by decide
theorem test_wf_jump_offset_even : (Instr.jal 0 1#21).wf Config.default = false := by decide
theorem test_wf_supplement_admitted : Instr.ecall.wf { Config.default with admitSupplement := false } = false := by decide
theorem test_wf_accepts : (Instr.add 15 0 15).wf { Config.default with baseIsa := .rv32e } = true ∧
    (Instr.fence 15 15 15 31 31).wf { Config.default with baseIsa := .rv32e } = true ∧
    (Instr.beq 31 31 0x1000#13).wf Config.default = true := by decide

/-! ## Decoding: each word from the example of its rule, written out by the pattern of 30_encoding.md R93 to R102 -/

theorem test_decode_lb :
    reads Config.default (0b111111111111#12 ++ 0b01010#5 ++ 0b000#3 ++ 0b00101#5 ++ 0b0000011#7) (.lb 5 0xFFF#12 10) = true ∧
    reads Config.default 0xFFF50283#32 (.lb 5 0xFFF#12 10) = true := by decide
theorem test_decode_lh :
    reads Config.default (0b000000000010#12 ++ 0b01010#5 ++ 0b001#3 ++ 0b00110#5 ++ 0b0000011#7) (.lh 6 2#12 10) = true ∧
    reads Config.default 0x00251303#32 (.lh 6 2#12 10) = true := by decide
theorem test_decode_lw :
    reads Config.default (0b000000001000#12 ++ 0b00010#5 ++ 0b010#3 ++ 0b00111#5 ++ 0b0000011#7) (.lw 7 8#12 2) = true ∧
    reads Config.default 0x00812383#32 (.lw 7 8#12 2) = true := by decide
theorem test_decode_lbu :
    reads Config.default (0b000000000011#12 ++ 0b01010#5 ++ 0b100#3 ++ 0b00101#5 ++ 0b0000011#7) (.lbu 5 3#12 10) = true ∧
    reads Config.default 0x00354283#32 (.lbu 5 3#12 10) = true := by decide
theorem test_decode_lhu :
    reads Config.default (0b111111111110#12 ++ 0b01010#5 ++ 0b101#3 ++ 0b00110#5 ++ 0b0000011#7) (.lhu 6 0xFFE#12 10) = true ∧
    reads Config.default 0xFFE55303#32 (.lhu 6 0xFFE#12 10) = true := by decide
theorem test_decode_addi :
    reads Config.default (0b111111111111#12 ++ 0b00101#5 ++ 0b000#3 ++ 0b00101#5 ++ 0b0010011#7) (.addi 5 5 0xFFF#12) = true ∧
    reads Config.default 0xFFF28293#32 (.addi 5 5 0xFFF#12) = true := by decide
theorem test_decode_slli :
    reads Config.default (0b0000000#7 ++ 0b00100#5 ++ 0b00110#5 ++ 0b001#3 ++ 0b00101#5 ++ 0b0010011#7) (.slli 5 6 4#5) = true ∧
    reads Config.default 0x00431293#32 (.slli 5 6 4#5) = true := by decide
theorem test_decode_slti :
    reads Config.default (0b111111111111#12 ++ 0b00110#5 ++ 0b010#3 ++ 0b00101#5 ++ 0b0010011#7) (.slti 5 6 0xFFF#12) = true ∧
    reads Config.default 0xFFF32293#32 (.slti 5 6 0xFFF#12) = true := by decide
theorem test_decode_sltiu :
    reads Config.default (0b111111111111#12 ++ 0b00110#5 ++ 0b011#3 ++ 0b00101#5 ++ 0b0010011#7) (.sltiu 5 6 0xFFF#12) = true ∧
    reads Config.default 0xFFF33293#32 (.sltiu 5 6 0xFFF#12) = true := by decide
theorem test_decode_xori :
    reads Config.default (0b111111111111#12 ++ 0b00110#5 ++ 0b100#3 ++ 0b00101#5 ++ 0b0010011#7) (.xori 5 6 0xFFF#12) = true ∧
    reads Config.default 0xFFF34293#32 (.xori 5 6 0xFFF#12) = true := by decide
theorem test_decode_srli :
    reads Config.default (0b0000000#7 ++ 0b00100#5 ++ 0b00110#5 ++ 0b101#3 ++ 0b00101#5 ++ 0b0010011#7) (.srli 5 6 4#5) = true ∧
    reads Config.default 0x00435293#32 (.srli 5 6 4#5) = true := by decide
theorem test_decode_srai :
    reads Config.default (0b0100000#7 ++ 0b00100#5 ++ 0b00110#5 ++ 0b101#3 ++ 0b00101#5 ++ 0b0010011#7) (.srai 5 6 4#5) = true ∧
    reads Config.default 0x40435293#32 (.srai 5 6 4#5) = true := by decide
theorem test_decode_ori :
    reads Config.default (0b100000000000#12 ++ 0b00110#5 ++ 0b110#3 ++ 0b00101#5 ++ 0b0010011#7) (.ori 5 6 0x800#12) = true ∧
    reads Config.default 0x80036293#32 (.ori 5 6 0x800#12) = true := by decide
theorem test_decode_andi :
    reads Config.default (0b111111110000#12 ++ 0b00110#5 ++ 0b111#3 ++ 0b00101#5 ++ 0b0010011#7) (.andi 5 6 0xFF0#12) = true ∧
    reads Config.default 0xFF037293#32 (.andi 5 6 0xFF0#12) = true := by decide
theorem test_decode_auipc :
    reads Config.default (0b11111111111111111111#20 ++ 0b00101#5 ++ 0b0010111#7) (.auipc 5 0xFFFFF#20) = true ∧
    reads Config.default 0xFFFFF297#32 (.auipc 5 0xFFFFF#20) = true := by decide
theorem test_decode_sb :
    reads Config.default (0b0000000#7 ++ 0b00101#5 ++ 0b01010#5 ++ 0b000#3 ++ 0b00000#5 ++ 0b0100011#7) (.sb 5 0#12 10) = true ∧
    reads Config.default 0x00550023#32 (.sb 5 0#12 10) = true := by decide
theorem test_decode_sh :
    reads Config.default (0b0000000#7 ++ 0b00101#5 ++ 0b01010#5 ++ 0b001#3 ++ 0b00010#5 ++ 0b0100011#7) (.sh 5 2#12 10) = true ∧
    reads Config.default 0x00551123#32 (.sh 5 2#12 10) = true := by decide
theorem test_decode_sw :
    reads Config.default (0b1111111#7 ++ 0b00101#5 ++ 0b00010#5 ++ 0b010#3 ++ 0b11100#5 ++ 0b0100011#7) (.sw 5 0xFFC#12 2) = true ∧
    reads Config.default 0xFE512E23#32 (.sw 5 0xFFC#12 2) = true := by decide
theorem test_decode_add :
    reads Config.default (0b0000000#7 ++ 0b00010#5 ++ 0b00001#5 ++ 0b000#3 ++ 0b00011#5 ++ 0b0110011#7) (.add 3 1 2) = true ∧
    reads Config.default 0x002081B3#32 (.add 3 1 2) = true := by decide
theorem test_decode_sub :
    reads Config.default (0b0100000#7 ++ 0b00010#5 ++ 0b00001#5 ++ 0b000#3 ++ 0b00011#5 ++ 0b0110011#7) (.sub 3 1 2) = true ∧
    reads Config.default 0x402081B3#32 (.sub 3 1 2) = true := by decide
theorem test_decode_sll :
    reads Config.default (0b0000000#7 ++ 0b00010#5 ++ 0b00001#5 ++ 0b001#3 ++ 0b00011#5 ++ 0b0110011#7) (.sll 3 1 2) = true ∧
    reads Config.default 0x002091B3#32 (.sll 3 1 2) = true := by decide
theorem test_decode_slt :
    reads Config.default (0b0000000#7 ++ 0b00010#5 ++ 0b00001#5 ++ 0b010#3 ++ 0b00011#5 ++ 0b0110011#7) (.slt 3 1 2) = true ∧
    reads Config.default 0x0020A1B3#32 (.slt 3 1 2) = true := by decide
theorem test_decode_sltu :
    reads Config.default (0b0000000#7 ++ 0b00010#5 ++ 0b00001#5 ++ 0b011#3 ++ 0b00011#5 ++ 0b0110011#7) (.sltu 3 1 2) = true ∧
    reads Config.default 0x0020B1B3#32 (.sltu 3 1 2) = true := by decide
theorem test_decode_xor :
    reads Config.default (0b0000000#7 ++ 0b00010#5 ++ 0b00001#5 ++ 0b100#3 ++ 0b00011#5 ++ 0b0110011#7) (.xor 3 1 2) = true ∧
    reads Config.default 0x0020C1B3#32 (.xor 3 1 2) = true := by decide
theorem test_decode_srl :
    reads Config.default (0b0000000#7 ++ 0b00010#5 ++ 0b00001#5 ++ 0b101#3 ++ 0b00011#5 ++ 0b0110011#7) (.srl 3 1 2) = true ∧
    reads Config.default 0x0020D1B3#32 (.srl 3 1 2) = true := by decide
theorem test_decode_sra :
    reads Config.default (0b0100000#7 ++ 0b00010#5 ++ 0b00001#5 ++ 0b101#3 ++ 0b00011#5 ++ 0b0110011#7) (.sra 3 1 2) = true ∧
    reads Config.default 0x4020D1B3#32 (.sra 3 1 2) = true := by decide
theorem test_decode_or :
    reads Config.default (0b0000000#7 ++ 0b00010#5 ++ 0b00001#5 ++ 0b110#3 ++ 0b00011#5 ++ 0b0110011#7) (.or 3 1 2) = true ∧
    reads Config.default 0x0020E1B3#32 (.or 3 1 2) = true := by decide
theorem test_decode_and :
    reads Config.default (0b0000000#7 ++ 0b00010#5 ++ 0b00001#5 ++ 0b111#3 ++ 0b00011#5 ++ 0b0110011#7) (.and 3 1 2) = true ∧
    reads Config.default 0x0020F1B3#32 (.and 3 1 2) = true := by decide
theorem test_decode_lui :
    reads Config.default (0b00010010001101000101#20 ++ 0b00101#5 ++ 0b0110111#7) (.lui 5 0x12345#20) = true ∧
    reads Config.default 0x123452B7#32 (.lui 5 0x12345#20) = true := by decide
theorem test_decode_beq :
    reads Config.default (0b0000000#7 ++ 0b00010#5 ++ 0b00001#5 ++ 0b000#3 ++ 0b01000#5 ++ 0b1100011#7) (.beq 1 2 8#13) = true ∧
    reads Config.default 0x00208463#32 (.beq 1 2 8#13) = true := by decide
theorem test_decode_bne :
    reads Config.default (0b1111111#7 ++ 0b00010#5 ++ 0b00001#5 ++ 0b001#3 ++ 0b11101#5 ++ 0b1100011#7) (.bne 1 2 0x1FFC#13) = true ∧
    reads Config.default 0xFE209EE3#32 (.bne 1 2 0x1FFC#13) = true := by decide
theorem test_decode_blt :
    reads Config.default (0b0000000#7 ++ 0b00010#5 ++ 0b00001#5 ++ 0b100#3 ++ 0b10000#5 ++ 0b1100011#7) (.blt 1 2 16#13) = true ∧
    reads Config.default 0x0020C863#32 (.blt 1 2 16#13) = true := by decide
theorem test_decode_bge :
    reads Config.default (0b1111111#7 ++ 0b00010#5 ++ 0b00001#5 ++ 0b101#3 ++ 0b10001#5 ++ 0b1100011#7) (.bge 1 2 0x1FF0#13) = true ∧
    reads Config.default 0xFE20D8E3#32 (.bge 1 2 0x1FF0#13) = true := by decide
theorem test_decode_bltu :
    reads Config.default (0b0111111#7 ++ 0b00010#5 ++ 0b00001#5 ++ 0b110#3 ++ 0b11111#5 ++ 0b1100011#7) (.bltu 1 2 4094#13) = true ∧
    reads Config.default 0x7E20EFE3#32 (.bltu 1 2 4094#13) = true := by decide
theorem test_decode_bgeu :
    reads Config.default (0b1000000#7 ++ 0b00010#5 ++ 0b00001#5 ++ 0b111#3 ++ 0b00000#5 ++ 0b1100011#7) (.bgeu 1 2 0x1000#13) = true ∧
    reads Config.default 0x8020F063#32 (.bgeu 1 2 0x1000#13) = true := by decide
theorem test_decode_jalr :
    reads Config.default (0b000000001000#12 ++ 0b00101#5 ++ 0b000#3 ++ 0b00101#5 ++ 0b1100111#7) (.jalr 5 5 8#12) = true ∧
    reads Config.default 0x008282E7#32 (.jalr 5 5 8#12) = true := by decide
theorem test_decode_jal :
    reads Config.default (0b00000000000100000000#20 ++ 0b00001#5 ++ 0b1101111#7) (.jal 1 2048#21) = true ∧
    reads Config.default 0x001000EF#32 (.jal 1 2048#21) = true := by decide
theorem test_decode_fence :
    reads Config.default (0b1000#4 ++ 0b0011#4 ++ 0b0011#4 ++ 0b00000#5 ++ 0b000#3 ++ 0b00000#5 ++ 0b0001111#7) (.fence 8#4 3#4 3#4 0#5 0#5) = true ∧
    reads Config.default 0x8330000F#32 (.fence 8#4 3#4 3#4 0#5 0#5) = true := by decide
theorem test_decode_ecall :
    reads Config.default (0b000000000000#12 ++ 0b00000#5 ++ 0b000#3 ++ 0b00000#5 ++ 0b1110011#7) (.ecall) = true ∧
    reads Config.default 0x00000073#32 (.ecall) = true := by decide
theorem test_decode_ebreak :
    reads Config.default (0b000000000001#12 ++ 0b00000#5 ++ 0b000#3 ++ 0b00000#5 ++ 0b1110011#7) (.ebreak) = true ∧
    reads Config.default 0x00100073#32 (.ebreak) = true := by decide

theorem test_decode_jal_negative : reads Config.default 0xFF9FF06F#32 (.jal 0 0x1FFFF8#21) = true := by decide
theorem test_decode_as_printed :
    reads { Config.default with branchFunc3 := .asPrinted } 0x0020A863#32 (.blt 1 2 16#13) = true ∧
    reads { Config.default with branchFunc3 := .asPrinted } 0xFE20B8E3#32 (.bge 1 2 0x1FF0#13) = true ∧
    reads { Config.default with branchFunc3 := .asPrinted } 0x7E20CFE3#32 (.bltu 1 2 4094#13) = true ∧
    reads { Config.default with branchFunc3 := .asPrinted } 0x8020D063#32 (.bgeu 1 2 0x1000#13) = true := by decide
theorem test_decode_rejects :
    rejects Config.default 0x00000000#32 .opcode = true ∧ rejects Config.default 0xFFFFFFFF#32 .opcode = true ∧
    rejects Config.default 0x00003003#32 .func3 = true ∧ rejects Config.default 0x02001013#32 .func7 = true ∧
    rejects Config.default 0x02208033#32 .func7 = true ∧ rejects Config.default 0x0000100F#32 .func3 = true ∧
    rejects Config.default 0x30200073#32 .system = true ∧
    rejects { Config.default with admitSupplement := false } 0x00000073#32 .supplement = true ∧
    rejects { Config.default with baseIsa := .rv32e } 0x00080833#32 .register = true ∧
    decodeBytes Config.default [0x73#8, 0x00#8, 0x00#8] = .error .tooFewBytes := by decide
theorem test_decode_bytes_little_endian :
    decodeBytes Config.default [0x83#8, 0x02#8, 0xF5#8, 0xFF#8, 0xAA#8] = .ok (.lb 5 0xFFF#12 10, [0xAA#8]) := by decide
theorem test_decodeTableWord : decodeTableWord 32 0x402081B3 = some (.sub 3 1 2) ∧ decodeTableWord 32 0 = none := by decide

/-! ## One step of each instruction, on the example of its rule -/

theorem test_lb :
    lands (step (at' small 0x100#32 0xFFF50283#32 [(10, 0x1004#32)] [(0x1003, 0x80#8)]))
       0x104#32 [(5, 0xffffff80#32), (10, 0x1004#32)] [] = true := by decide
theorem test_lh :
    lands (step (at' small 0x100#32 0x00251303#32 [(10, 0x1000#32)] [(0x1002, 0x34#8), (0x1003, 0xf2#8)]))
       0x104#32 [(6, 0xfffff234#32)] [] = true := by decide
theorem test_lw :
    lands (step (at' small 0x100#32 0x00812383#32 [(2, 0x1000#32)] [(0x1008, 0x78#8), (0x1009, 0x56#8), (0x100a, 0x34#8), (0x100b, 0x12#8)]))
       0x104#32 [(7, 0x12345678#32)] [] = true := by decide
theorem test_lbu :
    lands (step (at' small 0x100#32 0x00354283#32 [(10, 0x1000#32)] [(0x1003, 0x80#8)]))
       0x104#32 [(5, 0x80#32)] [] = true := by decide
theorem test_lhu :
    lands (step (at' small 0x100#32 0xFFE55303#32 [(10, 0x1004#32)] [(0x1002, 0x34#8), (0x1003, 0xf2#8)]))
       0x104#32 [(6, 0xf234#32)] [] = true := by decide
theorem test_lw_misaligned :
    stops (step (at' small 0x100#32 0x00812383#32 [(2, 0x1002#32)] [])) (.loadAddressMisaligned 0x100A#32) = true := by decide
theorem test_lh_split :
    lands (step (at' splitting 0x100#32 0x00251303#32 [(10, 0x1001#32)] [(0x1003, 0x34#8), (0x1004, 0xf2#8)]))
       0x104#32 [(6, 0xfffff234#32)] [] = true := by decide
theorem test_lbu_outside :
    stops (step (at' small 0x100#32 0x00354283#32 [(10, 0x1ffd#32)] [])) (.loadAccessFault 0x2000#32) = true := by decide
theorem test_addi :
    lands (step (at' small 0x100#32 0xFFF28293#32 [] []))
       0x104#32 [(5, 0xffffffff#32)] [] = true := by decide
theorem test_slli :
    lands (step (at' small 0x100#32 0x00431293#32 [(6, 0xf000000f#32)] []))
       0x104#32 [(5, 0xf0#32)] [] = true := by decide
theorem test_slti :
    lands (step (at' small 0x100#32 0xFFF32293#32 [(6, 0xfffffffe#32)] []))
       0x104#32 [(5, 0x1#32)] [] = true := by decide
theorem test_slti_not :
    lands (step (at' small 0x100#32 0xFFF32293#32 [] []))
       0x104#32 [(5, 0x0#32)] [] = true := by decide
theorem test_sltiu :
    lands (step (at' small 0x100#32 0xFFF33293#32 [(6, 0xfffffffe#32)] []))
       0x104#32 [(5, 0x1#32)] [] = true := by decide
theorem test_sltiu_not :
    lands (step (at' small 0x100#32 0xFFF33293#32 [(6, 0xffffffff#32), (5, 0x7#32)] []))
       0x104#32 [(5, 0x0#32)] [] = true := by decide
theorem test_xori :
    lands (step (at' small 0x100#32 0xFFF34293#32 [(6, 0xf0f0f0f#32)] []))
       0x104#32 [(5, 0xf0f0f0f0#32)] [] = true := by decide
theorem test_srli :
    lands (step (at' small 0x100#32 0x00435293#32 [(6, 0x80000010#32)] []))
       0x104#32 [(5, 0x8000001#32)] [] = true := by decide
theorem test_srai :
    lands (step (at' small 0x100#32 0x40435293#32 [(6, 0x80000010#32)] []))
       0x104#32 [(5, 0xf8000001#32)] [] = true := by decide
theorem test_ori :
    lands (step (at' small 0x100#32 0x0F036293#32 [(6, 0xf#32)] []))
       0x104#32 [(5, 0xff#32)] [] = true := by decide
theorem test_andi :
    lands (step (at' small 0x100#32 0xFF037293#32 [(6, 0x12345678#32)] []))
       0x104#32 [(5, 0x12345670#32)] [] = true := by decide
theorem test_auipc :
    lands (step (at' small 0x100#32 0xFFFFF297#32 [] []))
       0x104#32 [(5, 0xfffff100#32)] [] = true := by decide
theorem test_sb :
    lands (step (at' small 0x100#32 0x00550023#32 [(5, 0x12345678#32), (10, 0x1001#32)] [(0x1000, 0xaa#8), (0x1002, 0xbb#8)]))
       0x104#32 [] [(0x1000, 0xaa#8), (0x1001, 0x78#8), (0x1002, 0xbb#8)] = true := by decide
theorem test_sh :
    lands (step (at' small 0x100#32 0x00551123#32 [(5, 0x12345678#32), (10, 0x1000#32)] [(0x1004, 0xbb#8)]))
       0x104#32 [] [(0x1002, 0x78#8), (0x1003, 0x56#8), (0x1004, 0xbb#8)] = true := by decide
theorem test_sw :
    lands (step (at' small 0x100#32 0xFE512E23#32 [(5, 0x12345678#32), (2, 0x2000#32)] []))
       0x104#32 [] [(0x1ffc, 0x78#8), (0x1ffd, 0x56#8), (0x1ffe, 0x34#8), (0x1fff, 0x12#8)] = true := by decide
theorem test_sh_misaligned :
    stops (step (at' small 0x100#32 0x00551123#32 [(10, 0x1001#32)] [])) (.storeAddressMisaligned 0x1003#32) = true := by decide
theorem test_sw_outside :
    stops (step (at' small 0x100#32 0xFE512E23#32 [(2, 0x2004#32)] [])) (.storeAccessFault 0x2000#32) = true := by decide
theorem test_add :
    lands (step (at' small 0x100#32 0x002081B3#32 [(1, 0x7fffffff#32), (2, 0x1#32)] []))
       0x104#32 [(3, 0x80000000#32)] [] = true := by decide
theorem test_sub :
    lands (step (at' small 0x100#32 0x402081B3#32 [(1, 0x5#32), (2, 0x7#32)] []))
       0x104#32 [(3, 0xfffffffe#32)] [] = true := by decide
theorem test_sll :
    lands (step (at' small 0x100#32 0x002091B3#32 [(1, 0x1#32), (2, 0x1f#32)] []))
       0x104#32 [(3, 0x80000000#32)] [] = true := by decide
theorem test_slt :
    lands (step (at' small 0x100#32 0x0020A1B3#32 [(1, 0xffffffff#32), (2, 0x0#32)] []))
       0x104#32 [(3, 0x1#32)] [] = true := by decide
theorem test_sltu :
    lands (step (at' small 0x100#32 0x0020B1B3#32 [(1, 0xffffffff#32), (2, 0x0#32)] []))
       0x104#32 [(3, 0x0#32)] [] = true := by decide
theorem test_xor :
    lands (step (at' small 0x100#32 0x0020C1B3#32 [(1, 0xff00ff00#32), (2, 0xff00ff0#32)] []))
       0x104#32 [(3, 0xf0f0f0f0#32)] [] = true := by decide
theorem test_srl :
    lands (step (at' small 0x100#32 0x0020D1B3#32 [(1, 0x80000000#32), (2, 0x1f#32)] []))
       0x104#32 [(3, 0x1#32)] [] = true := by decide
theorem test_sra :
    lands (step (at' small 0x100#32 0x4020D1B3#32 [(1, 0x80000000#32), (2, 0x4#32)] []))
       0x104#32 [(3, 0xf8000000#32)] [] = true := by decide
theorem test_or :
    lands (step (at' small 0x100#32 0x0020E1B3#32 [(1, 0xf0f00000#32), (2, 0xf0f0#32)] []))
       0x104#32 [(3, 0xf0f0f0f0#32)] [] = true := by decide
theorem test_and :
    lands (step (at' small 0x100#32 0x0020F1B3#32 [(1, 0xffff0000#32), (2, 0xff00ff0#32)] []))
       0x104#32 [(3, 0xff00000#32)] [] = true := by decide
theorem test_sll_by_32 :
    lands (step (at' small 0x100#32 0x002091B3#32 [(1, 0x1#32), (2, 0x20#32)] []))
       0x104#32 [(3, 0x1#32)] [] = true := by decide
theorem test_lui :
    lands (step (at' small 0x100#32 0x123452B7#32 [] []))
       0x104#32 [(5, 0x12345000#32)] [] = true := by decide
theorem test_beq :
    lands (step (at' small 0x100#32 0x00208463#32 [(1, 0x7#32), (2, 0x7#32)] []))
       0x108#32 [] [] = true := by decide
theorem test_beq_not :
    lands (step (at' small 0x100#32 0x00208463#32 [(1, 0x7#32), (2, 0x8#32)] []))
       0x104#32 [] [] = true := by decide
theorem test_bne :
    lands (step (at' small 0x100#32 0xFE209EE3#32 [(1, 0x1#32)] []))
       0xfc#32 [] [] = true := by decide
theorem test_blt :
    lands (step (at' small 0x100#32 0x0020C863#32 [(1, 0xffffffff#32)] []))
       0x110#32 [] [] = true := by decide
theorem test_bge :
    lands (step (at' small 0x100#32 0xFE20D8E3#32 [(2, 0xffffffff#32)] []))
       0xf0#32 [] [] = true := by decide
theorem test_bltu_misaligned :
    stops (step (at' small 0x100#32 0x7E20EFE3#32 [(2, 0x1#32)] [])) (.instructionAddressMisaligned 0x10FE#32) = true := by decide
theorem test_bltu_not :
    lands (step (at' small 0x100#32 0x7E20EFE3#32 [(1, 0x1#32)] []))
       0x104#32 [] [] = true := by decide
theorem test_bgeu :
    lands (step (at' small 0x1100#32 0x8020F063#32 [(1, 0xffffffff#32), (2, 0x1#32)] []))
       0x100#32 [] [] = true := by decide
theorem test_jalr :
    lands (step (at' small 0x100#32 0x008282E7#32 [(5, 0x200#32)] []))
       0x208#32 [(5, 0x104#32)] [] = true := by decide
theorem test_jalr_misaligned :
    stops (step (at' small 0x100#32 0x000280E7#32 [(5, 0x1003#32)] [])) (.instructionAddressMisaligned 0x1002#32) = true := by decide
theorem test_jal :
    lands (step (at' small 0x100#32 0xFF9FF06F#32 [] []))
       0xf8#32 [(0, 0x0#32), (1, 0x0#32)] [] = true := by decide
theorem test_jal_link :
    lands (step (at' small 0x100#32 0x001000EF#32 [] []))
       0x900#32 [(1, 0x104#32)] [] = true := by decide
theorem test_fence :
    lands (step (at' small 0x100#32 0x0FF0000F#32 [] []))
       0x104#32 [] [] = true := by decide
theorem test_ecall :
    stops (step (at' small 0x100#32 0x00000073#32 [] [])) (.environmentCall 0x100#32) = true := by decide
theorem test_ebreak :
    stops (step (at' small 0x100#32 0x00100073#32 [] [])) (.breakpoint 0x100#32) = true := by decide
theorem test_fetch_after_store :
    stops (step ((at' small 0x100#32 0x00000013#32 [] []).storeByte 0x103 0x00#8)) (.fetchAfterStore 0x100#32) = true := by decide
theorem test_x0_stays_zero : lands (step (at' small 0x100#32 0x00100013#32 [] [])) 0x104#32 [(0, 0#32)] [] = true := by decide
theorem test_pc_wraps : lands (step (at' Config.default 0xFFFFFFFC#32 0x00000013#32 [] [])) 0#32 [] [] = true := by decide

/-! ## Reset, and the host's two definitions -/

theorem reset_memory_wf : State.reset.mem.wf = true := by decide
theorem test_reset_runs_placed_word :
    lands (step (State.reset.withFetchWord 32 0x00100093)) 4#32 [(1, 1#32)] [] = true := by decide
theorem test_reset_empty_memory_is_illegal : stops (step State.reset) (.illegalInstruction 0#32) = true := by decide

/-! ## A witness for the hypotheses of each obligation, clause by clause -/

/-- A state with `x1` set and a no-operation at `pc` = 0x100. -/
def base (c : Config) (v : Word) : State := at' c 0x100#32 0x00000013#32 [(1, v)] []

/-- `x1` plus a 12-bit displacement. -/
def ea (c : Config) (v : Word) (imm : BitVec 12) : Word := plusSigned ((base c v).reg 1) imm.toInt

/-- The outcome is a next state. -/
def completes (o : Result) : Bool :=
  match o with
  | .next _ => true
  | .fault _ | .refused _ => false

theorem witness_StartStateFollowsReset : small.wf = true ∧ validAt small 0 = true ∧ validAt small 0x1FFF = true := by decide
theorem witness_ResetSatisfiesInvariant :
    small.wf = true ∧ Memory.wf [(0x100, 0x13#8), (0x1FFF, 0x01#8)] = true ∧
    ∀ cell ∈ ([(0x100, 0x13#8), (0x1FFF, 0x01#8)] : Memory), validAt small cell.1 = true := by decide
theorem witness_StepKeepsInvariant :
    (at' small 0x100#32 0xFE512E23#32 [(2, 0x2000#32), (5, 0x12345678#32)] []).inv = true ∧
    completes (step (at' small 0x100#32 0xFE512E23#32 [(2, 0x2000#32), (5, 0x12345678#32)] [])) = true := by decide
theorem witness_ProgramCounterStaysAligned :
    small.resetPc.toNat % 4 = 0 ∧ completes (step (base small 0#32)) = true ∧ (base small 0#32).pc.toNat % 4 = 0 ∧
    (at' small 0x102#32 0#32 [] []).pc.toNat % 4 ≠ 0 := by decide
theorem witness_ProgramCounterStaysAligned_reaches :
    Reaches (State.start small (Vector.replicate 31 0#32) []) (State.start small (Vector.replicate 31 0#32) []) := ⟨0, rfl⟩
theorem witness_ProgramCounterStaysAligned_target :
    Taken (base small 0#32) (.bge 1 2 2#13) ∧ (plusSigned (base small 0#32).pc (2#13).toInt).toNat % 4 ≠ 0 ∧
    (plusSigned (base small 0#32).pc (2#21).toInt).toNat % 4 ≠ 0 ∧ (jalrTo (base small 0x1003#32) 1 0#12).toNat % 4 ≠ 0 := by
  unfold Taken
  decide
theorem witness_DecodeOfEncode :
    (Instr.jal 31 0x100000#21).wf Config.default = true ∧ (Instr.bgeu 31 31 0x1000#13).wf Config.default = true ∧
    (Instr.sub 31 31 31).wf Config.default = true ∧ (Instr.sub 15 15 15).wf { Config.default with baseIsa := .rv32e } = true ∧
    Instr.ebreak.wf Config.default = true := by decide
theorem witness_EncodeOfDecode : reads Config.default 0xFE20D8E3#32 (.bge 1 2 0x1FF0#13) = true := by decide
theorem witness_UnlistedWordsAreIllegal :
    (∃ w, fetch (at' small 0x100#32 0#32 [] []) = .ok w ∧ ∀ i, decode (at' small 0x100#32 0#32 [] []).cfg w ≠ .ok i) ∧
    (0x00000010#32).extractLsb' 0 2 ≠ 0b11#2 ∧
    (0x0000000B#32).extractLsb' 0 7 ∉ [3#7, 19#7, 23#7, 35#7, 51#7, 55#7, 99#7, 103#7, 111#7, 15#7, 115#7] ∧
    ((0x00007003#32).extractLsb' 0 7 = 3#7 ∧ (0x00007003#32).extractLsb' 12 3 ∈ [3#3, 6#3, 7#3]) ∧
    ((0x02001013#32).extractLsb' 0 7 = 19#7 ∧ (0x02001013#32).extractLsb' 12 3 = 1#3 ∧
      (0x02001013#32).extractLsb' 25 7 ≠ 0#7) ∧
    ((0x02005013#32).extractLsb' 0 7 = 19#7 ∧ (0x02005013#32).extractLsb' 12 3 = 5#3 ∧
      (0x02005013#32).extractLsb' 25 7 ∉ [0#7, 0b0100000#7]) ∧
    ((0x00003023#32).extractLsb' 0 7 = 35#7 ∧ (0x00003023#32).extractLsb' 12 3 ∉ [0#3, 1#3, 2#3]) ∧
    ((0x02208033#32).extractLsb' 0 7 = 51#7 ∧ (0x02208033#32).extractLsb' 25 7 ∉ [0#7, 0b0100000#7]) ∧
    ((0x40001033#32).extractLsb' 0 7 = 51#7 ∧ (0x40001033#32).extractLsb' 25 7 = 0b0100000#7 ∧
      (0x40001033#32).extractLsb' 12 3 ∉ [0#3, 5#3]) ∧
    ((0x00003063#32).extractLsb' 0 7 = 99#7 ∧ small.branchFunc3 = .ratified ∧ (0x00003063#32).extractLsb' 12 3 ∈ [2#3, 3#3]) ∧
    ((0x00006063#32).extractLsb' 0 7 = 99#7 ∧ ({ small with branchFunc3 := .asPrinted } : Config).branchFunc3 = .asPrinted ∧
      (0x00006063#32).extractLsb' 12 3 ∈ [6#3, 7#3]) ∧
    ((0x00001067#32).extractLsb' 0 7 = 103#7 ∧ (0x00001067#32).extractLsb' 12 3 ≠ 0#3) ∧
    ((0x0000100F#32).extractLsb' 0 7 = 15#7 ∧ (0x0000100F#32).extractLsb' 12 3 ≠ 0#3) ∧
    ((0x30200073#32).extractLsb' 0 7 = 115#7 ∧ 0x30200073#32 ≠ 0x00000073#32 ∧ 0x30200073#32 ≠ 0x00100073#32) :=
  ⟨⟨0#32, rfl, no_instr (r := .opcode) (by decide)⟩, by decide⟩
theorem witness_Rv32eIsRv32iWithoutHighRegisters :
    reads { small with baseIsa := .rv32e } 0x00F7C7B3#32 (.xor 15 15 15) = true ∧
    reads { small with baseIsa := .rv32i } 0x00F7C7B3#32 (.xor 15 15 15) = true ∧
    (∀ r ∈ (Instr.xor 15 15 15).registers, r.val < 16) ∧
    completes (exec (.xor 15 15 15) (base small 0#32)) = true ∧ stops (exec .ebreak (base small 0#32)) (.breakpoint 0x100#32) = true :=
  ⟨by decide, by decide, by decide, by decide, by decide⟩
/-- A branch word of this `func3` whose registers exist. -/
def branchWord (w : Word) (f : BitVec 3) : Bool :=
  w.extractLsb' 0 7 == 0b1100011#7 && decide ((rs1Field w).val < small.nregs) && decide ((rs2Field w).val < small.nregs) &&
    w.extractLsb' 12 3 == f

theorem witness_BranchFunc3Tables :
    branchWord 0x00208463#32 0#3 = true ∧
    branchWord 0x00209463#32 1#3 = true ∧
    branchWord 0x0020A463#32 2#3 = true ∧
    branchWord 0x0020B463#32 3#3 = true ∧
    branchWord 0x0020C463#32 4#3 = true ∧
    branchWord 0x0020D463#32 5#3 = true ∧
    branchWord 0x0020E463#32 6#3 = true ∧
    branchWord 0x0020F463#32 7#3 = true ∧
    small.branchFunc3 = .ratified ∧ ({ small with branchFunc3 := .asPrinted } : Config).branchFunc3 = .asPrinted := by decide
theorem witness_SupplementIsSwitchable :
    small.admitSupplement = true ∧ (0xFFFF8F8F#32).extractLsb' 0 7 = 0b0001111#7 ∧ (0xFFFF8F8F#32).extractLsb' 12 3 = 0b000#3 ∧
    ({ small with admitSupplement := false } : Config).admitSupplement = false ∧
    reads { small with admitSupplement := false } 0x00000013#32 (.addi 0 0 0#12) = true ∧
    (Instr.addi 0 0 0#12).isSupplement = false := by decide

theorem witness_MemReadFollowsRule :
    Width.word.bytes = 4 ∧ ¬ AlignmentOk (base small 0#32) 0x1ffe#32 4 ∧
    (AlignmentOk (base small 0#32) 0x2000#32 4 ∧ ¬ InMemory (base small 0#32) 0x2000#32 4) ∧
    (AlignmentOk (base small 0#32) 0x1ffc#32 4 ∧ InMemory (base small 0#32) 0x1ffc#32 4) ∧
    (AlignmentOk (base splitting 0#32) 0x1ffe#32 4 ∧ ¬ InMemory (base splitting 0#32) 0x1ffe#32 4) := by
  unfold AlignmentOk InMemory
  decide
theorem witness_MemWriteFollowsRule :
    Width.half.bytes = 2 ∧ ¬ AlignmentOk (base small 0#32) 0x1fff#32 2 ∧
    (AlignmentOk (base small 0#32) 0x2000#32 2 ∧ ¬ InMemory (base small 0#32) 0x2000#32 2) ∧
    (AlignmentOk (base small 0#32) 0x1ffe#32 2 ∧ InMemory (base small 0#32) 0x1ffe#32 2) ∧
    (AlignmentOk (base splitting 0#32) 0x1fff#32 2 ∧ ¬ InMemory (base splitting 0#32) 0x1fff#32 2) := by
  unfold AlignmentOk InMemory
  decide
theorem witness_MixedWidthAccesses : ∃ t, memWrite (base small 0#32) .word 0x1000#32 0xAABBCCDD#32 = .ok t := ⟨_, rfl⟩
theorem witness_MixedWidthAccesses_split : ∃ t, memWrite (base splitting 0#32) .word 0x1001#32 0xAABBCCDD#32 = .ok t := ⟨_, rfl⟩
theorem witness_FetchFollowsRule :
    (at' small 0x102#32 0#32 [] []).pc.toNat % 4 ≠ 0 ∧
    ((at' small 0x2000#32 0#32 [] []).pc.toNat % 4 = 0 ∧ ¬ InMemory (at' small 0x2000#32 0#32 [] []) 0x2000#32 4) ∧
    ((base small 0#32).pc.toNat % 4 = 0 ∧ InMemory (base small 0#32) (base small 0#32).pc 4 ∧
      WrittenByStore ((base small 0#32).storeByte 0x103 0#8) (base small 0#32).pc 4) ∧
    ¬ WrittenByStore (base small 0#32) (base small 0#32).pc 4 := by
  unfold InMemory WrittenByStore
  decide

/-- A program that stores a byte into the instruction after it. -/
def selfModifying : State := (at' small 0x100#32 0x002081A3#32 [(1, 0x104#32), (2, 0x13#32)] []).loadWord 0x104#32 0x00000013#32

/-- Its state after one step. -/
def selfModified : State := (selfModifying.storeByte 0x107 0x13#8).advance

theorem witness_SelfModifiedCodeIsRefused :
    run 1 selfModifying = .running selfModified ∧
    (∃ c ∈ runStores 1 selfModifying, ∃ i < 4, c.1 = nthByte selfModified.pc i) ∧ selfModified.pc.toNat % 4 = 0 ∧
    InMemory selfModified selfModified.pc 4 ∧ selfModifying.stored = [] := by
  unfold InMemory
  decide
theorem witness_SelfModifiedCodeIsRefused_clean :
    run 0 (base small 0#32) = .running (base small 0#32) ∧ (base small 0#32).stored = [] ∧
    fetch (base small 0#32) = .ok 0x00000013#32 := ⟨rfl, rfl, rfl⟩
theorem witness_LoadsReturnLatestStores :
    run 1 selfModifying = .running selfModified ∧ memRead selfModified .byte 0x107#32 = .ok 0x13#8 := ⟨by decide, by decide⟩
theorem witness_StepRunsDecodedInstruction :
    fetch (at' small 0x102#32 0#32 [] []) = .error (.instructionAddressMisaligned 0x102#32) ∧
    (fetch (at' small 0x100#32 0#32 [] []) = .ok 0#32 ∧ decode small 0#32 = .error .opcode) ∧
    (base small 0#32).pc.toNat % 4 = 0 ∧
    decodeBytes (base small 0#32).cfg ((List.range 4).map (fun k => (base small 0#32).byteAt (nthByte (base small 0#32).pc k))) =
      .ok (.addi 0 0 0#12, []) := ⟨rfl, ⟨rfl, rfl⟩, rfl, by decide⟩
theorem witness_StepRunsDecodedInstruction_fetch :
    InMemory (base small 0#32) (base small 0#32).pc 4 ∧ ¬ WrittenByStore (base small 0#32) (base small 0#32).pc 4 := by
  unfold InMemory WrittenByStore
  decide
theorem witness_StepHasTwoOutcomes :
    run 1 (at' small 0x100#32 0x00000073#32 [] []) =
      .ended (at' small 0x100#32 0x00000073#32 [] []) (.environmentCall 0x100#32) := by decide
theorem witness_ExceptionsOfEachInstruction :
    (base small 0#32).pc.toNat % 4 = 0 ∧ (Instr.jal 1 2#21).offsetEven = true ∧
    stops (exec (.jal 1 2#21) (base small 0#32)) (.instructionAddressMisaligned 0x102#32) = true ∧
    stops (step (at' small 0x100#32 0x002000EF#32 [] [])) (.instructionAddressMisaligned 0x102#32) = true := by decide
theorem witness_ExceptionPriority :
    ∀ p ∈ [(0x00000073#32, Instr.ecall), (0x00100073#32, .ebreak), (0x00812383#32, .lw 7 8#12 2), (0xFE512E23#32, .sw 5 0xFFC#12 2),
      (0x00251303#32, .lh 6 2#12 10), (0xFFE55303#32, .lhu 6 0xFFE#12 10), (0xFFF50283#32, .lb 5 0xFFF#12 10),
      (0x00354283#32, .lbu 5 3#12 10), (0x00551123#32, .sh 5 2#12 10), (0x00550023#32, .sb 5 0#12 10),
      (0x7E20EFE3#32, .bltu 1 2 4094#13), (0x002000EF#32, .jal 1 2#21), (0x000280E7#32, .jalr 1 5 0#12)],
    (at' small 0x100#32 p.1 [] []).instAt 0x100#32 = p.1 ∧ reads small p.1 p.2 = true := by decide
theorem witness_ExceptionPriority_misaligned :
    (let s := at' small 0x100#32 0x00812383#32 [(2, 0x1002#32)] []; ¬ AlignmentOk s (plusSigned (s.reg 2) (8#12).toInt) 4) ∧
    (let s := at' small 0x100#32 0x00251303#32 [(10, 0x1001#32)] []; ¬ AlignmentOk s (plusSigned (s.reg 10) (2#12).toInt) 2) ∧
    (let s := at' small 0x100#32 0xFFE55303#32 [(10, 1#32)] []; ¬ AlignmentOk s (plusSigned (s.reg 10) (0xFFE#12).toInt) 2) ∧
    (let s := at' small 0x100#32 0xFE512E23#32 [(2, 2#32)] []; ¬ AlignmentOk s (plusSigned (s.reg 2) (0xFFC#12).toInt) 4) ∧
    (let s := at' small 0x100#32 0x00551123#32 [(10, 0x1001#32)] []; ¬ AlignmentOk s (plusSigned (s.reg 10) (2#12).toInt) 2) := by
  unfold AlignmentOk
  decide
theorem witness_ExceptionPriority_outside :
    (let s := at' small 0x100#32 0x00812383#32 [(2, 0x1FF8#32)] []; let a := plusSigned (s.reg 2) (8#12).toInt
      AlignmentOk s a 4 ∧ ¬ InMemory s a 4) ∧
    (let s := at' small 0x100#32 0x00251303#32 [(10, 0x1FFE#32)] []; let a := plusSigned (s.reg 10) (2#12).toInt
      AlignmentOk s a 2 ∧ ¬ InMemory s a 2) ∧
    (let s := at' small 0x100#32 0xFFE55303#32 [(10, 0x2002#32)] []; let a := plusSigned (s.reg 10) (0xFFE#12).toInt
      AlignmentOk s a 2 ∧ ¬ InMemory s a 2) ∧
    (let s := at' small 0x100#32 0xFFF50283#32 [(10, 0x2001#32)] []; ¬ InMemory s (plusSigned (s.reg 10) (0xFFF#12).toInt) 1) ∧
    (let s := at' small 0x100#32 0x00354283#32 [(10, 0x1FFD#32)] []; ¬ InMemory s (plusSigned (s.reg 10) (3#12).toInt) 1) ∧
    (let s := at' small 0x100#32 0xFE512E23#32 [(2, 0x2004#32)] []; let a := plusSigned (s.reg 2) (0xFFC#12).toInt
      AlignmentOk s a 4 ∧ ¬ InMemory s a 4) ∧
    (let s := at' small 0x100#32 0x00551123#32 [(10, 0x1FFE#32)] []; let a := plusSigned (s.reg 10) (2#12).toInt
      AlignmentOk s a 2 ∧ ¬ InMemory s a 2) ∧
    (let s := at' small 0x100#32 0x00550023#32 [(10, 0x2000#32)] []; ¬ InMemory s (plusSigned (s.reg 10) (0#12).toInt) 1) := by
  unfold AlignmentOk InMemory
  decide
theorem witness_ExceptionPriority_fetch : fetch (at' small 0x100#32 0x00812383#32 [(2, 0x1002#32)] []) = .ok 0x00812383#32 := rfl
theorem witness_ExceptionPriority_taken :
    Taken (at' small 0x100#32 0x7E20EFE3#32 [(2, 1#32)] []) (.bltu 1 2 4094#13) ∧
    (plusSigned (at' small 0x100#32 0x7E20EFE3#32 [(2, 1#32)] []).pc (4094#13).toInt).toNat % 4 ≠ 0 ∧
    (plusSigned (base small 0#32).pc (2#21).toInt).toNat % 4 ≠ 0 ∧
    (jalrTo (at' small 0x100#32 0x000280E7#32 [(5, 0x1003#32)] []) 5 0#12).toNat % 4 ≠ 0 := by
  unfold Taken
  decide
theorem witness_RunEndsAtFirstFault :
    run 2 (at' small 0x100#32 0x00000073#32 [] []) =
      .ended (at' small 0x100#32 0x00000073#32 [] []) (.environmentCall 0x100#32) := by decide
theorem witness_RunEndsAtFirstFault_abnormal :
    run 2 (at' small 0x100#32 0x00100073#32 [] []) =
      .ended (at' small 0x100#32 0x00100073#32 [] []) (.breakpoint 0x100#32) := by decide

/-- The endless loop `jal x0, 0` (47_jumps.md R192). -/
def spin : State := at' small 0x100#32 0x0000006F#32 [] []

theorem spin_step : step spin = .next spin := rfl

theorem witness_RunEndsAtFirstFault_endless : ∀ (j : Nat) (t : State), run j spin = .running t → ∀ f, step t ≠ .fault f := by
  intro j t h f hf
  have hr : ∀ j, run j spin = .running spin := by
    intro j
    induction j with
    | zero => rfl
    | succ j ih =>
      rw [run, spin_step]
      exact ih
  rw [hr j] at h
  cases h
  rw [spin_step] at hf
  cases hf
theorem witness_DestinationX0OnlyDiscards :
    completes (exec (withDest 0 (.lw 7 8#12 2)) (base small 0#32)) = true := by decide
theorem witness_NoOtherSideEffects :
    completes (exec (.sw 1 0#12 1) (base small 0x1FFC#32)) = true ∧ destOf (.sw 1 0#12 1) ≠ some 1 ∧
    (∀ c ∈ storesOf (base small 0x1FFC#32) (.sw 1 0#12 1), c.1 ≠ 0x1FFB) := by decide
theorem witness_NoImplicitRegisterRead :
    (∀ r ∈ sourcesOf (.add 3 1 1), ({ base small 7#32 with regs := (Vector.replicate 31 9#32).set 0 7#32 } : State).reg r =
      (base small 7#32).reg r) ∧
    completes (exec (.add 3 1 1) (base small 7#32)) = true ∧
    completes (exec (.add 3 1 1) { base small 7#32 with regs := (Vector.replicate 31 9#32).set 0 7#32 }) = true ∧
    destOf (.add 3 1 1) = some 3 := by decide
theorem witness_HighRegistersHiddenUnderRv32e :
    (at' { small with baseIsa := .rv32e } 0x100#32 0x00100093#32 [(16, 5#32)] []).cfg.baseIsa = .rv32e ∧
    AgreeBelow16 (at' { small with baseIsa := .rv32e } 0x100#32 0x00100093#32 [(16, 5#32)] [])
      (at' { small with baseIsa := .rv32e } 0x100#32 0x00100093#32 [(31, 6#32)] []) ∧
    run 1 (at' { small with baseIsa := .rv32e } 0x100#32 0x00100093#32 [(16, 5#32)] []) =
      .running ((at' { small with baseIsa := .rv32e } 0x100#32 0x00100093#32 [(16, 5#32)] []).setReg 1 1#32).advance ∧
    run 2 (at' { small with baseIsa := .rv32e } 0x100#32 0x00100093#32 [(16, 5#32)] []) =
      .ended ((at' { small with baseIsa := .rv32e } 0x100#32 0x00100093#32 [(16, 5#32)] []).setReg 1 1#32).advance
        (.illegalInstruction 0#32) := by
  unfold AgreeBelow16
  decide
theorem witness_OtherInstructionsAdvance :
    ¬ Taken (at' Config.default 0xFFFFFFFC#32 0x00000013#32 [] []) (.addi 0 0 0#12) ∧
    completes (exec (.addi 0 0 0#12) (at' Config.default 0xFFFFFFFC#32 0x00000013#32 [] [])) = true ∧
    (at' Config.default 0xFFFFFFFC#32 0x00000013#32 [] []).pc = 0xFFFFFFFC#32 := by
  unfold Taken
  decide

theorem witness_LoadByteResults :
    ((Instr.lb 1 0xFFC#12 1).wf small = true ∧ (Instr.lbu 1 0xFFC#12 1).wf small = true) ∧
    InMemory (base small 0x2000#32) (ea small 0x2000#32 0xFFF#12) 1 ∧ InMemory (base small 0#32) (ea small 0#32 0#12) 1 ∧
    ¬ InMemory (base small 0x2000#32) (ea small 0x2000#32 0#12) 1 ∧ ¬ InMemory (base small 0#32) (ea small 0#32 0xFFF#12) 1 := by
  unfold InMemory
  decide
theorem witness_LoadHalfResults :
    ((Instr.lh 1 0xFFC#12 1).wf small = true ∧ (Instr.lhu 1 0xFFC#12 1).wf small = true) ∧
    (AlignmentOk (base small 0x2000#32) (ea small 0x2000#32 0xffe#12) 2 ∧
      InMemory (base small 0x2000#32) (ea small 0x2000#32 0xffe#12) 2) ∧
    ¬ AlignmentOk (base small 0x2000#32) (ea small 0x2000#32 0xfff#12) 2 ∧
    (AlignmentOk (base small 0x2000#32) (ea small 0x2000#32 0#12) 2 ∧
      ¬ InMemory (base small 0x2000#32) (ea small 0x2000#32 0#12) 2) ∧
    (AlignmentOk (base splitting 0x1001#32) (ea splitting 0x1001#32 0#12) 2 ∧
      InMemory (base splitting 0x1001#32) (ea splitting 0x1001#32 0#12) 2) ∧
    (AlignmentOk (base splitting 0x2000#32) (ea splitting 0x2000#32 0xfff#12) 2 ∧
      ¬ InMemory (base splitting 0x2000#32) (ea splitting 0x2000#32 0xfff#12) 2) := by
  unfold AlignmentOk InMemory
  decide
theorem witness_LoadWordResult :
    ((Instr.lw 1 0xFFC#12 1).wf small = true) ∧
    (AlignmentOk (base small 0x2000#32) (ea small 0x2000#32 0xffc#12) 4 ∧
      InMemory (base small 0x2000#32) (ea small 0x2000#32 0xffc#12) 4) ∧
    ¬ AlignmentOk (base small 0x2000#32) (ea small 0x2000#32 0xffe#12) 4 ∧
    (AlignmentOk (base small 0x2000#32) (ea small 0x2000#32 0#12) 4 ∧
      ¬ InMemory (base small 0x2000#32) (ea small 0x2000#32 0#12) 4) ∧
    (AlignmentOk (base splitting 0x1001#32) (ea splitting 0x1001#32 0#12) 4 ∧
      InMemory (base splitting 0x1001#32) (ea splitting 0x1001#32 0#12) 4) ∧
    (AlignmentOk (base splitting 0x2000#32) (ea splitting 0x2000#32 0xffe#12) 4 ∧
      ¬ InMemory (base splitting 0x2000#32) (ea splitting 0x2000#32 0xffe#12) 4) := by
  unfold AlignmentOk InMemory
  decide
theorem witness_StoreByteResult :
    ((Instr.sb 1 0xFFC#12 1).wf small = true) ∧
    InMemory (base small 0x2000#32) (ea small 0x2000#32 0xFFF#12) 1 ∧ InMemory (base small 0#32) (ea small 0#32 0#12) 1 ∧
    ¬ InMemory (base small 0x2000#32) (ea small 0x2000#32 0#12) 1 ∧ ¬ InMemory (base small 0#32) (ea small 0#32 0xFFF#12) 1 := by
  unfold InMemory
  decide
theorem witness_StoreHalfResult :
    ((Instr.sh 1 0xFFC#12 1).wf small = true) ∧
    (AlignmentOk (base small 0x2000#32) (ea small 0x2000#32 0xffe#12) 2 ∧
      InMemory (base small 0x2000#32) (ea small 0x2000#32 0xffe#12) 2) ∧
    ¬ AlignmentOk (base small 0x2000#32) (ea small 0x2000#32 0xfff#12) 2 ∧
    (AlignmentOk (base small 0x2000#32) (ea small 0x2000#32 0#12) 2 ∧
      ¬ InMemory (base small 0x2000#32) (ea small 0x2000#32 0#12) 2) ∧
    (AlignmentOk (base splitting 0x1001#32) (ea splitting 0x1001#32 0#12) 2 ∧
      InMemory (base splitting 0x1001#32) (ea splitting 0x1001#32 0#12) 2) ∧
    (AlignmentOk (base splitting 0x2000#32) (ea splitting 0x2000#32 0xfff#12) 2 ∧
      ¬ InMemory (base splitting 0x2000#32) (ea splitting 0x2000#32 0xfff#12) 2) := by
  unfold AlignmentOk InMemory
  decide
theorem witness_StoreWordResult :
    ((Instr.sw 1 0xFFC#12 1).wf small = true) ∧
    (AlignmentOk (base small 0x2000#32) (ea small 0x2000#32 0xffc#12) 4 ∧
      InMemory (base small 0x2000#32) (ea small 0x2000#32 0xffc#12) 4) ∧
    ¬ AlignmentOk (base small 0x2000#32) (ea small 0x2000#32 0xffe#12) 4 ∧
    (AlignmentOk (base small 0x2000#32) (ea small 0x2000#32 0#12) 4 ∧
      ¬ InMemory (base small 0x2000#32) (ea small 0x2000#32 0#12) 4) ∧
    (AlignmentOk (base splitting 0x1001#32) (ea splitting 0x1001#32 0#12) 4 ∧
      InMemory (base splitting 0x1001#32) (ea splitting 0x1001#32 0#12) 4) ∧
    (AlignmentOk (base splitting 0x2000#32) (ea splitting 0x2000#32 0xffe#12) 4 ∧
      ¬ InMemory (base splitting 0x2000#32) (ea splitting 0x2000#32 0xffe#12) 4) := by
  unfold AlignmentOk InMemory
  decide

/-- The other result statements have `Instr.wf` as their only hypothesis. -/
theorem witness_EncodedAs_alu :
    ∀ i ∈ [Instr.addi 31 31 0x800#12, .xori 31 31 0x800#12, .ori 31 31 0x7FF#12, .andi 31 31 0xFFF#12, .slti 31 31 0#12,
      .sltiu 31 31 0xFFF#12, .slli 31 31 31#5, .srli 31 31 0#5, .srai 31 31 31#5, .add 31 31 31, .sub 31 31 31, .xor 31 31 31,
      .or 31 31 31, .and 31 31 31, .slt 31 31 31, .sltu 31 31 31, .sll 31 31 31, .srl 31 31 31, .sra 31 31 31,
      .lui 31 0xFFFFF#20, .auipc 31 0xFFFFF#20], i.wf small = true := by decide
theorem witness_BranchEqualityResults :
    (Instr.beq 1 2 8#13).wf small = true ∧ (Instr.bne 1 2 8#13).wf small = true ∧ (base small 0#32).reg 1 = (base small 0#32).reg 2 ∧
    (base small 1#32).reg 1 ≠ (base small 1#32).reg 2 ∧
    (plusSigned (base small 0#32).pc (0x1000#13).toInt).toNat % 4 = 0 := by decide
theorem witness_BranchSignedResults :
    (∀ c ∈ [small, { small with branchFunc3 := .asPrinted }], (Instr.blt 1 2 16#13).wf c = true) ∧
    ((base small 0xFFFFFFFF#32).reg 1).toInt < ((base small 0xFFFFFFFF#32).reg 2).toInt ∧
    ((base small 0#32).reg 2).toInt ≤ ((base small 0#32).reg 1).toInt ∧
    (plusSigned (base small 0#32).pc (16#13).toInt).toNat % 4 = 0 := by decide
theorem witness_BranchUnsignedResults :
    (∀ c ∈ [small, { small with branchFunc3 := .asPrinted }], (Instr.bltu 1 2 16#13).wf c = true) ∧
    ((base small 0xFFFFFFFF#32).reg 2).toNat < ((base small 0xFFFFFFFF#32).reg 1).toNat ∧
    ((base small 0#32).reg 2).toNat ≤ ((base small 0#32).reg 1).toNat ∧
    (plusSigned (base small 0#32).pc (16#13).toInt).toNat % 4 = 0 := by decide
theorem witness_MisalignedBranchTarget :
    (base small 0#32).pc.toNat % 4 = 0 ∧ (2#13).getLsbD 0 = false ∧ (2#13).getLsbD 1 = true ∧
    Taken (base small 0#32) (.beq 1 2 2#13) ∧ ¬ Taken (base small 0#32) (.bne 1 2 2#13) ∧
    Taken (base small 0#32) (.bge 1 2 2#13) ∧ ¬ Taken (base small 0#32) (.blt 1 2 2#13) ∧
    Taken (base small 0#32) (.bgeu 1 2 2#13) ∧ ¬ Taken (base small 0#32) (.bltu 1 2 2#13) := by
  unfold Taken
  decide
theorem witness_MisalignedBranchTarget_aligned :
    (0x1000#13).getLsbD 0 = false ∧ (0x1000#13).getLsbD 1 = false ∧ Taken (base small 0#32) (.beq 1 2 0x1000#13) ∧
    Taken (base small 0#32) (.bge 1 2 0x1000#13) ∧ Taken (base small 0#32) (.bgeu 1 2 0x1000#13) ∧
    Taken (base small 1#32) (.bne 1 2 0x1000#13) ∧ Taken (base small 0xFFFFFFFF#32) (.blt 1 2 0x1000#13) ∧
    Taken (base small 1#32) (.bltu 2 1 0x1000#13) := by
  unfold Taken
  decide
theorem witness_JumpAndLinkResult :
    (Instr.jal 1 8#21).wf small = true ∧ (plusSigned (base small 0#32).pc (8#21).toInt).toNat % 4 = 0 ∧
    (plusSigned (base small 0#32).pc (2#21).toInt).toNat % 4 ≠ 0 ∧ (base small 0#32).pc.toNat % 4 = 0 ∧
    (2#21).getLsbD 0 = false := by decide
theorem witness_JumpAndLinkRegisterResult :
    (Instr.jalr 1 1 0#12).wf small = true ∧ (base small 0x1001#32).cfg.jalrClearBit0 = true ∧
    (jalrTo (base small 0x1001#32) 1 0#12 = 0x1000#32 ∧ (0x1000#32).toNat % 4 = 0) ∧
    (jalrTo (base small 0x1003#32) 1 0#12 = 0x1002#32 ∧ (0x1002#32).toNat % 4 ≠ 0) ∧
    (base { small with jalrClearBit0 := false } 0x1001#32).cfg.jalrClearBit0 = false ∧
    (jalrTo (base { small with jalrClearBit0 := false } 0x1001#32) 1 0#12 = 0x1001#32 ∧ (0x1001#32).toNat % 4 ≠ 0) := by decide
theorem witness_FenceOnlyAdvances :
    (Instr.fence 15 15 15 31 31).wf small = true ∧ (0x0000100F#32).extractLsb' 0 7 = 0b0001111#7 ∧
    (0x0000100F#32).extractLsb' 12 3 = 0b001#3 := by decide
theorem witness_EnvironmentCallEndsRun :
    Instr.ecall.wf small = true ∧ (0x00200073#32).extractLsb' 0 7 = 0b1110011#7 ∧ (0x00200073#32).extractLsb' 12 3 = 0b000#3 ∧
    fetch (at' small 0x100#32 0x00000073#32 [] []) = .ok 0x00000073#32 ∧
    decode (at' small 0x100#32 0x00000073#32 [] []).cfg 0x00000073#32 = .ok .ecall := ⟨rfl, by decide, by decide, rfl, by decide⟩
theorem witness_BreakpointEndsRun :
    Instr.ebreak.wf small = true ∧ fetch (at' small 0x100#32 0x00100073#32 [] []) = .ok 0x00100073#32 ∧
    decode (at' small 0x100#32 0x00100073#32 [] []).cfg 0x00100073#32 = .ok .ebreak := ⟨rfl, rfl, by decide⟩

end Sys2Proof.Tests
end

section
/-! CERTIFICATE. `pc` is a multiple of 4 along every run (10_state.md R26). -/

namespace Sys2Proof.Machine

/-! ## Invariants along a run -/

theorem run_running_succ {k : Nat} {s t : State} (h : run (k + 1) s = .running t) :
    ∃ u, step s = .next u ∧ run k u = .running t := by
  unfold run at h
  split at h
  · next u hu => exact ⟨u, hu, h⟩
  · cases h
  · cases h

/-- What every step keeps holds of every state reached from one where it holds. -/
theorem reaches_keeps {P : State → Prop} (hstep : ∀ s t, P s → step s = .next t → P t) {s t : State}
    (hr : Reaches s t) (hs : P s) : P t := by
  obtain ⟨k, hk⟩ := hr
  induction k generalizing s with
  | zero =>
    cases hk
    exact hs
  | succ k ih =>
    obtain ⟨u, hu, hrun⟩ := run_running_succ hk
    exact ih (hstep s u hs hu) hrun

/-! ## What keeps `pc` aligned -/

theorem advance_pc_aligned {s : State} (h : s.pc.toNat % 4 = 0) : s.advance.pc.toNat % 4 = 0 := by
  simp only [advance_pc, BitVec.toNat_add, BitVec.toNat_ofNat]
  omega

/-- An instruction that completes at an aligned `pc` advances by 4 or goes to a target it has checked. -/
theorem effect_pc_aligned {i : Instr} {s t : State} (he : Effect i s t) (h : s.pc.toNat % 4 = 0) :
    t.pc.toNat % 4 = 0 := by
  cases he with
  | writes | advances => exact advance_pc_aligned h
  | stores => exact advance_pc_aligned (by simpa using h)
  | branches target h4 | links rd target h4 => exact h4

theorem step_keeps_pc_aligned {s t : State} (h : s.pc.toNat % 4 = 0) (hs : step s = .next t) : t.pc.toNat % 4 = 0 := by
  obtain ⟨_, i, _, _, he⟩ := step_next hs
  exact effect_pc_aligned (exec_next he) h

/-! ## What a misaligned `pc` or target raises -/

theorem fetch_of_misaligned {s : State} (h : s.pc.toNat % 4 ≠ 0) :
    fetch s = .error (.instructionAddressMisaligned s.pc) := if_pos h

/-- A fetch that raises decides the step (70_reset_and_hazards.md R245). -/
theorem step_of_fetch_error {s : State} {f : Fault} (h : fetch s = .error f) : step s = .fault f := by
  simp [step, h, raise]

theorem branch_of_misaligned {s : State} {offset : BitVec 13} (h : (branchTarget s offset).toNat % 4 ≠ 0) :
    branch true offset s = .fault (.instructionAddressMisaligned (branchTarget s offset)) := if_pos h

theorem jump_of_misaligned {s : State} {rd : Reg} {target : Word} (h : target.toNat % 4 ≠ 0) :
    jump rd target s = .fault (.instructionAddressMisaligned target) := if_pos h

/-- Each of the six branches is the shared form under its own condition (46_branches.md R180). -/
theorem exec_branch {i : Instr} {rs1 rs2 : Reg} {o : BitVec 13}
    (hi : i ∈ [Instr.beq rs1 rs2 o, .bne rs1 rs2 o, .blt rs1 rs2 o, .bge rs1 rs2 o, .bltu rs1 rs2 o, .bgeu rs1 rs2 o])
    (s : State) : ∃ cond, exec i s = branch cond o s ∧ (cond = true ↔ Taken s i) := by
  simp only [List.mem_cons, List.not_mem_nil, or_false] at hi
  obtain rfl | rfl | rfl | rfl | rfl | rfl := hi
  · exact ⟨_, rfl, by simp [Taken]⟩
  · exact ⟨_, rfl, by simp [Taken]⟩
  · exact ⟨_, rfl, lessSigned_iff _ _⟩
  · exact ⟨_, rfl, by simp [Taken, lessSigned]⟩
  · exact ⟨_, rfl, lessUnsigned_iff _ _⟩
  · exact ⟨_, rfl, by simp [Taken, lessUnsigned]⟩

/-- Settles O4: each completed instruction advances by 4 or goes to a checked target, so alignment is an invariant of runs;
the checks themselves are those of `fetch`, `branch` and `jump`. -/
theorem programCounterStaysAligned : Obligations.ProgramCounterStaysAligned := by
  refine ⟨?reachable, fun s t => step_keeps_pc_aligned, ?fetched, ?branched, ?jumped⟩
  case reachable =>
    intro c regs mem s hc hr
    exact reaches_keeps (P := fun s => s.pc.toNat % 4 = 0) (fun _ _ => step_keeps_pc_aligned) hr hc
  case fetched =>
    intro s h
    exact step_of_fetch_error (fetch_of_misaligned h)
  case branched =>
    intro s rs1 rs2 o target i hi ht h
    obtain ⟨cond, hexec, hcond⟩ := exec_branch hi s
    have hb : branchTarget s o = target := branchTarget_eq s o
    rw [hexec, hcond.2 ht, ← hb]
    exact branch_of_misaligned (hb ▸ h)
  case jumped =>
    intro s rd rs1 o imm
    rw [← jumpTarget_eq, ← jalrTarget_eq]
    exact ⟨jump_of_misaligned, jump_of_misaligned⟩

end Sys2Proof.Machine
end

section
/-! CERTIFICATE. `NREGS` decides which words are legal, and nothing of what an instruction does (10_state.md R28). -/

namespace Sys2Proof

/-- The decoder accepts a word exactly when the choice by `op` gives an instruction that passes both checks (R103). -/
theorem decode_ok_iff {c : Config} {w : Word} {i : Instr} :
    decode c w = .ok i ↔ decodeByOp c.branchFunc3 w = .ok i ∧ i.admitted c = true ∧ i.registersExist c = true :=
  ⟨decode_ok, fun ⟨hb, ha, hr⟩ => decode_of_byOp ha hr hb⟩

/-- With 32 registers every register number exists. -/
theorem registersExist_rv32i (c : Config) (i : Instr) : i.registersExist { c with baseIsa := .rv32i } = true := by
  simp [Instr.registersExist, Config.nregs]

theorem registersExist_rv32e_iff (c : Config) (i : Instr) :
    i.registersExist { c with baseIsa := .rv32e } = true ↔ ∀ r ∈ i.registers, r.val < 16 := by
  simp only [Instr.registersExist, List.all_eq_true, decide_eq_true_eq]
  rfl

theorem decode_rv32e_iff (c : Config) (w : Word) (i : Instr) :
    decode { c with baseIsa := .rv32e } w = .ok i ↔
      decode { c with baseIsa := .rv32i } w = .ok i ∧ ∀ r ∈ i.registers, r.val < 16 := by
  have hadm : i.admitted { c with baseIsa := .rv32e } = i.admitted { c with baseIsa := .rv32i } := rfl
  simp only [decode_ok_iff, registersExist_rv32i, registersExist_rv32e_iff, hadm]
  tauto

end Sys2Proof

namespace Sys2Proof.Machine

/-- The same state under another value of `NREGS`. -/
def State.withBase (b : BaseIsa) (s : State) : State := { s with cfg := { s.cfg with baseIsa := b } }

/-- The outcome with its next state changed. -/
def mapNext (g : State → State) : Result → Result
  | .next t => .next (g t)
  | .fault f => .fault f
  | .refused r => .refused r

section WithBase

variable (b : BaseIsa) (s : State)

theorem storeBytes_withBase (addr : Word) (bs : List Byte) :
    (s.withBase b).storeBytes addr bs = (s.storeBytes addr bs).withBase b := by
  induction bs generalizing s addr with
  | nil => rfl
  | cons x bs ih => exact ih (s.storeByte addr.toNat x) (addr + 1#32)

theorem memRead_withBase (w : Width) (addr : Word) : memRead (s.withBase b) w addr = memRead s w addr := by
  cases w <;> rfl

theorem memWrite_withBase (w : Width) (addr : Word) (v : BitVec w.bits) :
    memWrite (s.withBase b) w addr v = (memWrite s w addr v).map (State.withBase b) := by
  have hm : misalignedFaults (s.withBase b).cfg w addr = misalignedFaults s.cfg w addr := rfl
  have hv : accessValid (s.withBase b).cfg addr w.bytes = accessValid s.cfg addr w.bytes := rfl
  simp only [memWrite, hm, hv, storeBytes_withBase]
  split
  · rfl
  · split <;> rfl

theorem load_withBase (w : Width) (ext : BitVec w.bits → Word) (rd : Reg) (imm : BitVec 12) (rs1 : Reg) :
    load w ext rd imm rs1 (s.withBase b) = mapNext (State.withBase b) (load w ext rd imm rs1 s) := by
  have ha : loadAddress (s.withBase b) rs1 imm = loadAddress s rs1 imm := rfl
  simp only [load, ha, memRead_withBase]
  cases memRead s w (loadAddress s rs1 imm) <;> rfl

theorem store_withBase (w : Width) (rs2 : Reg) (imm : BitVec 12) (rs1 : Reg) :
    store w rs2 imm rs1 (s.withBase b) = mapNext (State.withBase b) (store w rs2 imm rs1 s) := by
  have ha : storeAddress (s.withBase b) rs1 imm = storeAddress s rs1 imm := rfl
  have hr : (s.withBase b).reg rs2 = s.reg rs2 := rfl
  simp only [store, ha, hr, memWrite_withBase]
  cases memWrite s w (storeAddress s rs1 imm) (lowBits w (s.reg rs2)) <;> rfl

theorem branch_withBase (cond : Bool) (offset : BitVec 13) :
    branch cond offset (s.withBase b) = mapNext (State.withBase b) (branch cond offset s) := by
  have ht : branchTarget (s.withBase b) offset = branchTarget s offset := rfl
  simp only [branch, ht]
  split
  · split <;> rfl
  · rfl

theorem jump_withBase (rd : Reg) (target : Word) :
    jump rd target (s.withBase b) = mapNext (State.withBase b) (jump rd target s) := by
  unfold jump
  split <;> rfl

/-- No instruction looks at `NREGS` or writes it: execution commutes with changing its value. -/
theorem exec_withBase (i : Instr) : exec i (s.withBase b) = mapNext (State.withBase b) (exec i s) := by
  cases i
  case lb | lh | lw | lbu | lhu => exact load_withBase ..
  case sb | sh | sw => exact store_withBase ..
  case beq | bne | blt | bge | bltu | bgeu => exact branch_withBase ..
  case jalr | jal => exact jump_withBase ..
  all_goals rfl

end WithBase

/-- Settles O11: the decoder's register check is the one place where `NREGS` counts, and execution commutes with changing
it. -/
theorem rv32eIsRv32iWithoutHighRegisters : Obligations.Rv32eIsRv32iWithoutHighRegisters := by
  refine ⟨rfl, decode_rv32e_iff, fun i s b => ⟨?next, ?fault⟩⟩
  case next =>
    intro t h
    exact (exec_withBase b s i).trans (by rw [h]; rfl)
  case fault =>
    intro f h
    exact (exec_withBase b s i).trans (by rw [h]; rfl)

end Sys2Proof.Machine
end

section
/-! CERTIFICATE. Memory (20_memory.md): the access primitives and the fetch by their rules, and what memory and the record of
stored bytes are after a run, in terms of the stores of its instructions. -/

namespace Sys2Proof.Machine

/-! ## When a check fails -/

theorem misalignedFaults_true_iff (s : State) (w : Width) (addr : Word) :
    misalignedFaults s.cfg w addr = true ↔ ¬ AlignmentOk s addr w.bytes := by
  rw [← misalignedFaults_iff, Bool.not_eq_false]

theorem accessValid_false_iff (s : State) (addr : Word) (n : Nat) :
    accessValid s.cfg addr n = false ↔ ¬ InMemory s addr n := by
  rw [← accessValid_iff, Bool.not_eq_true]

section Checks

variable {s : State} {w : Width} {addr : Word}

theorem memRead_of_misaligned (ha : ¬ AlignmentOk s addr w.bytes) :
    memRead s w addr = .error (.loadAddressMisaligned addr) :=
  if_pos ((misalignedFaults_true_iff s w addr).2 ha)

theorem memRead_of_outside (ha : AlignmentOk s addr w.bytes) (hv : ¬ InMemory s addr w.bytes) :
    memRead s w addr = .error (.loadAccessFault addr) := by
  simp [memRead, (misalignedFaults_iff s w addr).2 ha, (accessValid_false_iff s addr w.bytes).2 hv]

theorem memWrite_of_misaligned (v : BitVec w.bits) (ha : ¬ AlignmentOk s addr w.bytes) :
    memWrite s w addr v = .error (.storeAddressMisaligned addr) :=
  if_pos ((misalignedFaults_true_iff s w addr).2 ha)

theorem memWrite_of_outside (v : BitVec w.bits) (ha : AlignmentOk s addr w.bytes) (hv : ¬ InMemory s addr w.bytes) :
    memWrite s w addr v = .error (.storeAccessFault addr) := by
  simp [memWrite, (misalignedFaults_iff s w addr).2 ha, (accessValid_false_iff s addr w.bytes).2 hv]

theorem fetch_of_outside (h4 : s.pc.toNat % 4 = 0) (hv : ¬ InMemory s s.pc 4) :
    fetch s = .error (.instructionAccessFault s.pc) := by
  simp [fetch, h4, (accessValid_false_iff s s.pc 4).2 hv]

theorem fetch_of_stored (h4 : s.pc.toNat % 4 = 0) (hv : InMemory s s.pc 4) (hs : WrittenByStore s s.pc 4) :
    fetch s = .error (.fetchAfterStore s.pc) := by
  simp [fetch, h4, (accessValid_iff s s.pc 4).2 hv, (accessStored_iff s s.pc 4).2 hs]

end Checks

/-! ## What a completed access reads and writes, byte by byte -/

/-- The fetched word is the little-endian value a word access reads (20_memory.md R42, R46). -/
theorem instAt_extract (s : State) (addr : Word) {i : Nat} (hi : i < 4) :
    (s.instAt addr).extractLsb' (8 * i) 8 = s.byteAt (nthByte addr i) :=
  valueAt_extract s addr .word hi

/-- Byte `i` of a stored value lands at `(addr + i) mod 2^32` (20_memory.md R45). -/
theorem storeBytes_valueBytes_byteAt (s : State) (addr : Word) (w : Width) (v : BitVec w.bits) {i : Nat} (hi : i < w.bytes) :
    (s.storeBytes addr (valueBytes w v)).byteAt (nthByte addr i) = v.extractLsb' (8 * i) 8 := by
  have hw := (bytes_pos_le w).2
  rw [storeBytes_byteAt _ _ _ (by rw [valueBytes_length]; omega) (by simpa using hi), valueBytes_getElem w v hi]

theorem storeBytes_valueBytes_byteAt_other (s : State) (addr : Word) (w : Width) (v : BitVec w.bits) {a : Nat}
    (ha : ∀ i < w.bytes, a ≠ nthByte addr i) : (s.storeBytes addr (valueBytes w v)).byteAt a = s.byteAt a :=
  storeBytes_byteAt_other _ _ _ (by simpa using ha)

/-! ## The latest of a list of stores -/

/-- What the fold has found so far stays unless a later store replaces it. -/
theorem foldl_latestStore (l : List (Nat × Byte)) (a : Nat) (v : Option Byte) :
    l.foldl (fun v c => if c.1 = a then some c.2 else v) v = (latestStore l a).or v := by
  induction l generalizing v with
  | nil => rfl
  | cons c l ih =>
    simp only [latestStore, List.foldl_cons]
    rw [ih, ih (if c.1 = a then some c.2 else none)]
    split <;> simp

@[simp] theorem latestStore_nil (a : Nat) : latestStore [] a = none := rfl

theorem latestStore_append (l m : List (Nat × Byte)) (a : Nat) :
    latestStore (l ++ m) a = (latestStore m a).or (latestStore l a) := by
  rw [latestStore, List.foldl_append, foldl_latestStore]
  rfl

theorem latestStore_cons (c : Nat × Byte) (l : List (Nat × Byte)) (a : Nat) :
    latestStore (c :: l) a = (latestStore l a).or (if c.1 = a then some c.2 else none) :=
  latestStore_append [c] l a

theorem mem_of_latestStore_eq_some {l : List (Nat × Byte)} {a : Nat} {v : Byte} (h : latestStore l a = some v) :
    (a, v) ∈ l := by
  induction l with
  | nil => cases h
  | cons c l ih =>
    rw [latestStore_cons, Option.or_eq_some_iff] at h
    rcases h with h | ⟨-, h⟩
    · exact List.mem_cons_of_mem _ (ih h)
    · obtain ⟨rfl, rfl⟩ : c.1 = a ∧ c.2 = v := by simpa using h
      exact List.mem_cons_self

theorem latestStore_eq_none_iff (l : List (Nat × Byte)) (a : Nat) : latestStore l a = none ↔ ∀ c ∈ l, c.1 ≠ a := by
  induction l with
  | nil => simp
  | cons c l ih => simp [latestStore_cons, ih, and_comm]

/-! ## What an instruction does to memory and to the record of stored bytes -/

/-- After an instruction each byte holds the latest of its stores there, or what it held. -/
theorem effect_byteAt {i : Instr} {s t : State} (he : Effect i s t) (a : Nat) :
    t.byteAt a = (latestStore (storesOf s i) a).getD (s.byteAt a) := by
  cases he with
  | writes _ _ _ _ hs | advances _ hs | branches _ _ _ hs | links _ _ _ _ _ hs => simp [hs]
  | stores w addr v _ _ _ hs =>
    rw [advance_byteAt]
    cases hl : latestStore (storesOf s i) a with
    | none =>
      rw [hs, latestStore_eq_none_iff] at hl
      refine storeBytes_valueBytes_byteAt_other s addr w v (fun k hk h => ?_)
      exact hl _ (List.mem_map_of_mem (List.mem_range.2 hk)) h.symm
    | some b =>
      have hmem := mem_of_latestStore_eq_some hl
      rw [hs, List.mem_map] at hmem
      obtain ⟨k, hk, hb⟩ := hmem
      cases hb
      exact storeBytes_valueBytes_byteAt s addr w v (List.mem_range.1 hk)

/-- After an instruction the record of stored bytes has gained exactly the addresses it stored to. -/
theorem effect_stored {i : Instr} {s t : State} (he : Effect i s t) (a : Nat) :
    a ∈ t.stored ↔ a ∈ s.stored ∨ ∃ c ∈ storesOf s i, c.1 = a := by
  cases he with
  | writes _ _ _ _ hs | advances _ hs | branches _ _ _ hs | links _ _ _ _ _ hs => simp [hs]
  | stores w addr v _ _ _ hs => simp [hs, storeBytes_stored, eq_comm]

/-! ## What a run does to them -/

/-- A step that completes has the effect of one instruction, whose stores are those of the step. -/
theorem step_effect {s t : State} (h : step s = .next t) : ∃ i, stepStores s = storesOf s i ∧ Effect i s t := by
  obtain ⟨inst, i, hf, hd, he⟩ := step_next h
  exact ⟨i, by simp [stepStores, hf, hd], exec_next he⟩

theorem runStores_succ {s t : State} (h : step s = .next t) (k : Nat) :
    runStores (k + 1) s = stepStores s ++ runStores k t := by
  simp [runStores, h]

/-- After a run each byte holds the latest store of the run to it, or what it held at the start (20_memory.md R52). -/
theorem run_byteAt {k : Nat} {s t : State} (h : run k s = .running t) (a : Nat) :
    t.byteAt a = (latestStore (runStores k s) a).getD (s.byteAt a) := by
  induction k generalizing s with
  | zero =>
    cases h
    rfl
  | succ k ih =>
    obtain ⟨u, hu, hrun⟩ := run_running_succ h
    obtain ⟨i, hi, he⟩ := step_effect hu
    rw [runStores_succ hu, latestStore_append, ih hrun, effect_byteAt he, hi]
    cases latestStore (runStores k u) a <;> rfl

/-- After a run the record of stored bytes has gained exactly the addresses the run stored to (log entry 5). -/
theorem run_stored {k : Nat} {s t : State} (h : run k s = .running t) (a : Nat) :
    a ∈ t.stored ↔ a ∈ s.stored ∨ ∃ c ∈ runStores k s, c.1 = a := by
  induction k generalizing s with
  | zero =>
    cases h
    simp [runStores]
  | succ k ih =>
    obtain ⟨u, hu, hrun⟩ := run_running_succ h
    obtain ⟨i, hi, he⟩ := step_effect hu
    rw [ih hrun, effect_stored he, runStores_succ hu, hi]
    simp only [List.mem_append, or_and_right, exists_or, or_assoc]

/-- A byte that the record lacks after a run is the byte of the start state. -/
theorem run_byteAt_of_not_stored {k : Nat} {s t : State} (h : run k s = .running t) {a : Nat} (ha : a ∉ t.stored) :
    t.byteAt a = s.byteAt a := by
  have hnone : latestStore (runStores k s) a = none :=
    (latestStore_eq_none_iff _ _).2 (fun c hc hca => ha ((run_stored h a).2 (.inr ⟨c, hc, hca⟩)))
  rw [run_byteAt h, hnone]
  rfl

/-! ## The statements -/

/-- Settles O18: the record at a state of the run lists every byte the run has stored to, so fetch refuses those, and a byte
it does not list is as at the start. -/
theorem selfModifiedCodeIsRefused : Obligations.SelfModifiedCodeIsRefused := by
  refine fun k s₀ s hrun => ⟨?refused, ?unmodified⟩
  case refused =>
    rintro ⟨c, hc, i, hi, hci⟩ h4 hv
    have hw : WrittenByStore s s.pc 4 := ⟨i, hi, (run_stored hrun _).2 (.inr ⟨c, hc, hci⟩)⟩
    exact step_of_fetch_error (fetch_of_stored h4 hv hw)
  case unmodified =>
    intro _ w hw i hi
    obtain ⟨-, -, hnot, rfl⟩ := fetch_ok hw
    rw [instAt_extract s s.pc hi]
    exact run_byteAt_of_not_stored hrun (fun hmem => hnot ⟨i, hi, hmem⟩)

/-- Settles O19: memory after the run, by induction over its steps; a read gives the bytes there. -/
theorem loadsReturnLatestStores : Obligations.LoadsReturnLatestStores := by
  refine fun k s₀ s hrun => ⟨run_byteAt hrun, fun w addr v hread i hi => ?_⟩
  obtain ⟨-, -, rfl⟩ := memRead_ok hread
  rw [valueAt_extract s addr w hi, run_byteAt hrun]

/-- Settles O14: one clause for each outcome of the two checks. -/
theorem memReadFollowsRule : Obligations.MemReadFollowsRule :=
  fun s w addr => ⟨memRead_of_misaligned, memRead_of_outside,
    fun ha hv => ⟨_, memRead_of_ok ha hv, fun _ => valueAt_extract s addr w⟩⟩

/-- Settles O15: one clause for each outcome of the two checks, and the frame of a completed write. -/
theorem memWriteFollowsRule : Obligations.MemWriteFollowsRule := by
  refine fun s w addr v => ⟨memWrite_of_misaligned v, memWrite_of_outside v, fun ha hv => ⟨_, memWrite_of_ok v ha hv, ?_⟩⟩
  exact ⟨storeBytes_reg s addr _, storeBytes_pc s addr _, storeBytes_cfg s addr _,
    fun _ => storeBytes_valueBytes_byteAt s addr w v, fun _ => storeBytes_valueBytes_byteAt_other s addr w v⟩

/-- Settles O17: one clause for each outcome of the three checks. -/
theorem fetchFollowsRule : Obligations.FetchFollowsRule :=
  fun s => ⟨fetch_of_misaligned, fetch_of_outside, fetch_of_stored,
    fun h4 hv hs => ⟨_, fetch_of_ok h4 hv hs, fun _ => instAt_extract s s.pc⟩⟩

end Sys2Proof.Machine
end

section
/-! CERTIFICATE. The decoder (30_encoding.md sections 4 and 5): the words that are illegal under every setting of the
parameters (R104), the branches by `func3` (R99), and the supplement's switch (R102). -/

namespace Sys2Proof

/-! ## The choice by `op` (30_encoding.md R88, R102) -/

/-- The values of `op` that R88 and R102 list. -/
def listedOps : List (BitVec 7) := [3#7, 19#7, 23#7, 35#7, 51#7, 55#7, 99#7, 103#7, 111#7, 15#7, 115#7]

section ByOp

variable {b : BranchFunc3} {w : Word}

theorem decodeByOp_load (h : opField w = 3#7) : decodeByOp b w = decodeLoad w := if_pos h

theorem decodeByOp_opImm (h : opField w = 19#7) : decodeByOp b w = decodeOpImm w := by simp [decodeByOp, h]

theorem decodeByOp_store (h : opField w = 35#7) : decodeByOp b w = decodeStore w := by simp [decodeByOp, h]

theorem decodeByOp_op (h : opField w = 51#7) : decodeByOp b w = decodeOp w := by simp [decodeByOp, h]

theorem decodeByOp_branch (h : opField w = 99#7) : decodeByOp b w = decodeBranch b w := by simp [decodeByOp, h]

theorem decodeByOp_fence (h : opField w = 15#7) : decodeByOp b w = decodeFence w := by simp [decodeByOp, h]

theorem decodeByOp_system (h : opField w = 115#7) : decodeByOp b w = decodeSystem w := by simp [decodeByOp, h]

theorem decodeByOp_jalr_rejects (h : opField w = 103#7) (hf : func3Field w ≠ 0#3) :
    decodeByOp b w = .error .func3 := by simp [decodeByOp, h, hf]

theorem decodeByOp_unlisted (h : opField w ∉ listedOps) : decodeByOp b w = .error .opcode := by
  simp only [listedOps, List.mem_cons, List.not_mem_nil, or_false, not_or] at h
  simp [decodeByOp, h]

end ByOp

/-! ## What each group rejects (30_encoding.md R104) -/

section Rejects

variable {w : Word}

theorem decodeLoad_rejects (h : func3Field w ∈ [3#3, 6#3, 7#3]) : decodeLoad w = .error .func3 := by
  simp only [List.mem_cons, List.not_mem_nil, or_false] at h
  obtain h | h | h := h <;> simp [decodeLoad, h]

theorem decodeOpImm_rejects_slli (hf : func3Field w = 1#3) (h7 : func7Field w ≠ 0#7) :
    decodeOpImm w = .error .func7 := by simp [decodeOpImm, hf, h7]

theorem decodeOpImm_rejects_shiftRight (hf : func3Field w = 5#3) (h7 : func7Field w ∉ [0#7, 0b0100000#7]) :
    decodeOpImm w = .error .func7 := by
  simp only [List.mem_cons, List.not_mem_nil, or_false, not_or] at h7
  simp [decodeOpImm, hf, h7]

theorem decodeStore_rejects (h : func3Field w ∉ [0#3, 1#3, 2#3]) : decodeStore w = .error .func3 := by
  simp only [List.mem_cons, List.not_mem_nil, or_false, not_or] at h
  simp [decodeStore, h]

theorem decodeOp_rejects_func7 (h7 : func7Field w ∉ [0#7, 0b0100000#7]) : decodeOp w = .error .func7 := by
  simp only [List.mem_cons, List.not_mem_nil, or_false, not_or] at h7
  simp [decodeOp, h7]

theorem decodeOp_rejects_func3 (h7 : func7Field w = 0b0100000#7) (h : func3Field w ∉ [0#3, 5#3]) :
    decodeOp w = .error .func7 := by
  simp only [List.mem_cons, List.not_mem_nil, or_false, not_or] at h
  simp [decodeOp, h7, h]

theorem decodeFence_rejects (h : func3Field w ≠ 0#3) : decodeFence w = .error .func3 := if_neg h

theorem decodeSystem_rejects (hc : w ≠ 0x00000073#32) (hb : w ≠ 0x00100073#32) : decodeSystem w = .error .system := by
  simp [decodeSystem, hc, hb]

end Rejects

/-! ## The branches by `func3` (30_encoding.md R99) -/

/-- The `func3` values of the six branches. -/
def branchCodes (b : BranchFunc3) : List (BitVec 3) := [0#3, 1#3, func3Blt b, func3Bge b, func3Bltu b, func3Bgeu b]

section Branch

variable {b : BranchFunc3} {w : Word}

theorem decodeBranch_beq (h : func3Field w = 0#3) :
    decodeBranch b w = .ok (.beq (rs1Field w) (rs2Field w) (immBField w)) := if_pos h

theorem decodeBranch_bne (h : func3Field w = 1#3) :
    decodeBranch b w = .ok (.bne (rs1Field w) (rs2Field w) (immBField w)) := by simp [decodeBranch, h]

theorem decodeBranch_blt (h : func3Field w = func3Blt b) :
    decodeBranch b w = .ok (.blt (rs1Field w) (rs2Field w) (immBField w)) := by
  cases b <;> simp [decodeBranch, h, func3Blt]

theorem decodeBranch_bge (h : func3Field w = func3Bge b) :
    decodeBranch b w = .ok (.bge (rs1Field w) (rs2Field w) (immBField w)) := by
  cases b <;> simp [decodeBranch, h, func3Blt, func3Bge]

theorem decodeBranch_bltu (h : func3Field w = func3Bltu b) :
    decodeBranch b w = .ok (.bltu (rs1Field w) (rs2Field w) (immBField w)) := by
  cases b <;> simp [decodeBranch, h, func3Blt, func3Bge, func3Bltu]

theorem decodeBranch_bgeu (h : func3Field w = func3Bgeu b) :
    decodeBranch b w = .ok (.bgeu (rs1Field w) (rs2Field w) (immBField w)) := by
  cases b <;> simp [decodeBranch, h, func3Blt, func3Bge, func3Bltu, func3Bgeu]

theorem decodeBranch_rejects (h : func3Field w ∉ branchCodes b) : decodeBranch b w = .error .func3 := by
  simp only [branchCodes, List.mem_cons, List.not_mem_nil, or_false, not_or] at h
  simp [decodeBranch, h]

theorem decodeBranch_rejects_ratified (h : func3Field w ∈ [2#3, 3#3]) : decodeBranch .ratified w = .error .func3 :=
  decodeBranch_rejects ((by decide : ∀ f ∈ [2#3, 3#3], f ∉ branchCodes .ratified) _ h)

theorem decodeBranch_rejects_asPrinted (h : func3Field w ∈ [6#3, 7#3]) : decodeBranch .asPrinted w = .error .func3 :=
  decodeBranch_rejects ((by decide : ∀ f ∈ [6#3, 7#3], f ∉ branchCodes .asPrinted) _ h)

/-- Each of the six branches is checked alike: it is no instruction of the supplement, and uses the word's two registers. -/
theorem decodeBranch_ok {i : Instr} (h : decodeBranch b w = .ok i) :
    i.isSupplement = false ∧ i.registers = [rs1Field w, rs2Field w] := by
  simp only [decodeBranch] at h
  split_ifs at h <;> cases h <;> exact ⟨rfl, rfl⟩

end Branch

/-- Whether a branch word whose registers exist is legal, and what it gives, is decided by `func3` alone. -/
theorem decode_of_branch {c : Config} {w : Word} (hop : opField w = 99#7) (h1 : (rs1Field w).val < c.nregs)
    (h2 : (rs2Field w).val < c.nregs) : decode c w = decodeBranch c.branchFunc3 w := by
  cases hb : decodeBranch c.branchFunc3 w with
  | error e => simp [decode, decodeByOp_branch hop, hb]
  | ok i =>
    obtain ⟨hs, hr⟩ := decodeBranch_ok hb
    exact decode_of_byOp (by simp [Instr.admitted, hs]) (by simp [Instr.registersExist, hr, h1, h2])
      ((decodeByOp_branch hop).trans hb)

/-! ## Words that give no instruction -/

/-- A word the choice by `op` rejects is illegal whatever `ADMIT_SUPPLEMENT` and `NREGS` are. -/
theorem decode_ne_ok_of_byOp_error {c : Config} {w : Word} {e : Reject} (h : decodeByOp c.branchFunc3 w = .error e)
    (i : Instr) : decode c w ≠ .ok i := by simp [decode, h]

/-- The low two bits of every listed `op` are 11, so a word with others has an `op` of no row (30_encoding.md R88, R104). -/
theorem opField_not_listed_of_low_bits {w : Word} (h : w.extractLsb' 0 2 ≠ 0b11#2) : opField w ∉ listedOps := by
  have hlow : w.extractLsb' 0 2 = (opField w).extractLsb' 0 2 :=
    (BitVec.extractLsb'_extractLsb'_of_le (by decide)).symm
  rw [hlow] at h
  exact fun hmem => h ((by decide : ∀ op ∈ listedOps, op.extractLsb' 0 2 = 0b11#2) _ hmem)

/-! ## The supplement (30_encoding.md R102) -/

theorem admitted_of_not_supplement (c : Config) {i : Instr} (h : i.isSupplement = false) : i.admitted c = true := by
  simp [Instr.admitted, h]

theorem not_supplement_of_admitted {c : Config} {i : Instr} (hc : c.admitSupplement = false) (h : i.admitted c = true) :
    i.isSupplement = false := by simpa [Instr.admitted, hc] using h

/-- An instruction of the supplement names no register, so with `ADMIT_SUPPLEMENT` the choice by `op` decides. -/
theorem decode_supplement {c : Config} {w : Word} {i : Instr} (hc : c.admitSupplement = true) (hr : i.registers = [])
    (h : decodeByOp c.branchFunc3 w = .ok i) : decode c w = .ok i :=
  decode_of_byOp (by simp [Instr.admitted, hc]) (by simp [Instr.registersExist, hr]) h

end Sys2Proof

namespace Sys2Proof.Machine

/-- A fetched word that decodes to no instruction decides the step (70_reset_and_hazards.md R245). -/
theorem step_of_decode_error {s : State} {w : Word} {e : Reject} (hf : fetch s = .ok w) (hd : decode s.cfg w = .error e) :
    step s = .fault (.illegalInstruction w) := by
  simp [step, hf, hd, raise]

/-- Settles O10: each word named is rejected by the choice by `op` or by the decoder of its group, before any check that depends
on `ADMIT_SUPPLEMENT` or `NREGS`. -/
theorem unlistedWordsAreIllegal : Obligations.UnlistedWordsAreIllegal := by
  refine ⟨fun s w hf hnone => ?_, fun c w h => ?_⟩
  · cases hd : decode s.cfg w with
    | error e => exact step_of_decode_error hf hd
    | ok i => exact absurd hd (hnone i)
  · obtain hlow | hones | hop | ⟨hop, h3⟩ | ⟨hop, h3, h7⟩ | ⟨hop, h3, h7⟩ | ⟨hop, h3⟩ | ⟨hop, h7⟩ | ⟨hop, h7, h3⟩ |
      ⟨hop, hb, h3⟩ | ⟨hop, hb, h3⟩ | ⟨hop, h3⟩ | ⟨hop, h3⟩ | ⟨hop, hcall, hbreak⟩ := h
    all_goals apply decode_ne_ok_of_byOp_error
    · exact decodeByOp_unlisted (opField_not_listed_of_low_bits hlow)
    · exact decodeByOp_unlisted (by rw [hones]; decide)
    · exact decodeByOp_unlisted hop
    · exact (decodeByOp_load hop).trans (decodeLoad_rejects h3)
    · exact (decodeByOp_opImm hop).trans (decodeOpImm_rejects_slli h3 h7)
    · exact (decodeByOp_opImm hop).trans (decodeOpImm_rejects_shiftRight h3 h7)
    · exact (decodeByOp_store hop).trans (decodeStore_rejects h3)
    · exact (decodeByOp_op hop).trans (decodeOp_rejects_func7 h7)
    · exact (decodeByOp_op hop).trans (decodeOp_rejects_func3 h7 h3)
    · exact (decodeByOp_branch hop).trans (hb ▸ decodeBranch_rejects_ratified h3)
    · exact (decodeByOp_branch hop).trans (hb ▸ decodeBranch_rejects_asPrinted h3)
    · exact decodeByOp_jalr_rejects hop h3
    · exact (decodeByOp_fence hop).trans (decodeFence_rejects h3)
    · exact (decodeByOp_system hop).trans (decodeSystem_rejects hcall hbreak)

/-- Settles O12: both tables are the one reading of `func3` by `func3Blt`, `func3Bge`, `func3Bltu` and `func3Bgeu`. -/
theorem branchFunc3Tables : Obligations.BranchFunc3Tables := by
  intro c w hop h1 h2
  rw [decode_of_branch hop h1 h2]
  refine ⟨decodeBranch_beq, decodeBranch_bne, fun hb => ?ratified, fun hb => ?asPrinted⟩ <;> rw [hb]
  case ratified =>
    exact ⟨decodeBranch_blt (b := .ratified), decodeBranch_bge (b := .ratified), decodeBranch_bltu (b := .ratified),
      decodeBranch_bgeu (b := .ratified), fun h3 i => by simp [decodeBranch_rejects_ratified h3]⟩
  case asPrinted =>
    exact ⟨decodeBranch_blt (b := .asPrinted), decodeBranch_bge (b := .asPrinted), decodeBranch_bltu (b := .asPrinted),
      decodeBranch_bgeu (b := .asPrinted), fun h3 i => by simp [decodeBranch_rejects_asPrinted h3]⟩

/-- Settles O13: `ADMIT_SUPPLEMENT` counts only where the decoder asks whether an instruction is admitted, and there only for
the supplement's three. -/
theorem supplementIsSwitchable : Obligations.SupplementIsSwitchable := by
  refine fun c w => ⟨fun hc hop h3 => ?fence, fun hc => ⟨?ecall, ?ebreak⟩, fun hc i hd => ?off, fun i hi => ?others⟩
  case fence => exact decode_supplement hc rfl ((decodeByOp_fence hop).trans (if_pos h3))
  case ecall => exact decode_supplement hc rfl ((decodeByOp_system rfl).trans rfl)
  case ebreak => exact decode_supplement hc rfl ((decodeByOp_system rfl).trans rfl)
  case off =>
    obtain ⟨-, hadm, -⟩ := decode_ok hd
    exact not_supplement_of_admitted hc hadm
  case others =>
    have hreg : i.registersExist { c with admitSupplement := true } = i.registersExist c := rfl
    simp only [decode_ok_iff, admitted_of_not_supplement _ hi, hreg]

end Sys2Proof.Machine
end

section
/-! CERTIFICATE. The five immediates (30_encoding.md R80 to R84): their bits, and their ranges. -/

namespace Sys2Proof

/-! ## The bits of the immediate fields -/

theorem immIField_getLsbD (w : Word) {k : Nat} (hk : k < 12) : (immIField w).getLsbD k = w.getLsbD (k + 20) := by
  simp [immIField, hk, Nat.add_comm]

theorem immSField_getLsbD (w : Word) {k : Nat} (hk : k < 12) :
    (immSField w).getLsbD k = if k ≤ 4 then w.getLsbD (k + 7) else w.getLsbD (k + 20) := by
  simp only [immSField, BitVec.getLsbD_append, BitVec.getLsbD_extractLsb']
  by_cases h : k ≤ 4
  · simp [h, show k < 5 by omega, Nat.add_comm]
  · simp [h, show ¬ k < 5 by omega, show k - 5 < 7 by omega, show 25 + (k - 5) = k + 20 by omega]

theorem immBField_getLsbD (w : Word) {k : Nat} (hk : k < 13) :
    (immBField w).getLsbD k = if k = 0 then false else if k ≤ 4 then w.getLsbD (k + 7)
      else if k ≤ 10 then w.getLsbD (k + 20) else if k = 11 then w.getLsbD 7 else w.getLsbD 31 := by
  simp only [immBField, BitVec.getLsbD_append, BitVec.getLsbD_extractLsb']
  rcases k with _ | k
  · simp
  · by_cases h4 : k < 4
    · simp [h4, show k + 1 ≤ 4 by omega, show 8 + k = k + 1 + 7 by omega]
    · by_cases h10 : k < 10
      · simp [h4, show ¬ k + 1 ≤ 4 by omega, show k - 4 < 6 by omega, show k + 1 ≤ 10 by omega,
          show 25 + (k - 4) = k + 1 + 20 by omega]
      · obtain rfl | rfl : k = 10 ∨ k = 11 := by omega
        · simp
        · simp

theorem immUField_getLsbD (w : Word) {k : Nat} (hk : k < 20) : (immUField w).getLsbD k = w.getLsbD (k + 12) := by
  simp [immUField, hk, Nat.add_comm]

theorem immJField_getLsbD (w : Word) {k : Nat} (hk : k < 21) :
    (immJField w).getLsbD k = if k = 0 then false else if k ≤ 10 then w.getLsbD (k + 20)
      else if k = 11 then w.getLsbD 20 else if k ≤ 19 then w.getLsbD k else w.getLsbD 31 := by
  simp only [immJField, BitVec.getLsbD_append, BitVec.getLsbD_extractLsb']
  rcases k with _ | k
  · simp
  · by_cases h10 : k < 10
    · simp [h10, show k + 1 ≤ 10 by omega, show 21 + k = k + 1 + 20 by omega]
    · by_cases h11 : k = 10
      · simp [h11]
      · by_cases h19 : k < 19
        · simp [h10, h11, show ¬ k + 1 ≤ 10 by omega, show ¬ k - 10 < 1 by omega, show k - 10 - 1 < 8 by omega,
            show k + 1 ≤ 19 by omega, show 12 + (k - 10 - 1) = k + 1 by omega]
        · obtain rfl : k = 19 := by omega
          simp

/-! ## Sign extension to a word -/

/-- Above the bits of a field, its top bit is repeated (00_scope.md R9). -/
theorem signExtend_getLsbD {n : Nat} (x : BitVec n) {k : Nat} (hk : k < 32) :
    (x.signExtend 32).getLsbD k = x.getLsbD (min k (n - 1)) := by
  rw [BitVec.getLsbD_signExtend, BitVec.msb_eq_getLsbD_last]
  by_cases h : k < n
  · simp [hk, h, show min k (n - 1) = k by omega]
  · simp [hk, h, show min k (n - 1) = n - 1 by omega]

/-- Sign extension keeps the value of a field as a signed number, so the field's width bounds it. -/
theorem signExtend_toInt_range {n : Nat} (x : BitVec n) (hn : n ≤ 32) :
    -2 ^ (n - 1) ≤ (x.signExtend 32).toInt ∧ (x.signExtend 32).toInt < 2 ^ (n - 1) := by
  rw [BitVec.toInt_signExtend_of_le hn]
  exact ⟨x.le_toInt, x.toInt_lt⟩

theorem toInt_even {w : Word} (h : w.getLsbD 0 = false) : w.toInt % 2 = 0 := by
  have hnat : w.toNat % 2 = 0 := by simpa [BitVec.getLsbD, Nat.testBit_zero] using h
  rw [BitVec.toInt_eq_toNat_cond]
  split <;> omega

end Sys2Proof

namespace Sys2Proof.Machine

/-! ## The bits of the immediates -/

theorem immI_getLsbD (w : Word) {k : Nat} (hk : k < 32) :
    (immI (immIField w)).getLsbD k = if k ≤ 10 then w.getLsbD (k + 20) else w.getLsbD 31 := by
  rw [immI, signExtend_getLsbD _ hk, immIField_getLsbD w (by omega)]
  by_cases h : k ≤ 10
  · simp [h, show min k 11 = k by omega]
  · simp [h, show min k 11 = 11 by omega]

theorem immS_getLsbD (w : Word) {k : Nat} (hk : k < 32) :
    (immS (immSField w)).getLsbD k =
      if k ≤ 4 then w.getLsbD (k + 7) else if k ≤ 10 then w.getLsbD (k + 20) else w.getLsbD 31 := by
  rw [immS, signExtend_getLsbD _ hk, immSField_getLsbD w (by omega)]
  by_cases h : k ≤ 10
  · simp [h, show min k 11 = k by omega]
  · simp [h, show min k 11 = 11 by omega, show ¬ k ≤ 4 by omega]

theorem immB_getLsbD (w : Word) {k : Nat} (hk : k < 32) :
    (immB (immBField w)).getLsbD k =
      if k = 0 then false else if k ≤ 4 then w.getLsbD (k + 7) else if k ≤ 10 then w.getLsbD (k + 20)
      else if k = 11 then w.getLsbD 7 else w.getLsbD 31 := by
  rw [immB, signExtend_getLsbD _ hk, immBField_getLsbD w (by omega)]
  by_cases h : k ≤ 11
  · simp [show min k 12 = k by omega]
  · simp [show min k 12 = 12 by omega, show k ≠ 0 by omega, show ¬ k ≤ 4 by omega, show ¬ k ≤ 10 by omega,
      show k ≠ 11 by omega]

theorem immU_getLsbD (w : Word) {k : Nat} (hk : k < 32) :
    (immU (immUField w)).getLsbD k = if k ≤ 11 then false else w.getLsbD k := by
  rw [immU, BitVec.getLsbD_append]
  by_cases h : k ≤ 11
  · simp [h, show k < 12 by omega]
  · simp [h, show ¬ k < 12 by omega, immUField_getLsbD w (show k - 12 < 20 by omega), show k - 12 + 12 = k by omega]

theorem immJ_getLsbD (w : Word) {k : Nat} (hk : k < 32) :
    (immJ (immJField w)).getLsbD k =
      if k = 0 then false else if k ≤ 10 then w.getLsbD (k + 20) else if k = 11 then w.getLsbD 20
      else if k ≤ 19 then w.getLsbD k else w.getLsbD 31 := by
  rw [immJ, signExtend_getLsbD _ hk, immJField_getLsbD w (by omega)]
  by_cases h : k ≤ 19
  · simp [h, show min k 20 = k by omega]
  · simp [h, show min k 20 = 20 by omega, show k ≠ 0 by omega, show ¬ k ≤ 10 by omega, show k ≠ 11 by omega]

/-! ## Their ranges -/

theorem immI_range (imm : BitVec 12) : -2048 ≤ (immI imm).toInt ∧ (immI imm).toInt ≤ 2047 := by
  have hrange := signExtend_toInt_range imm (by decide)
  simp only [immI]
  omega

theorem immS_range (imm : BitVec 12) : -2048 ≤ (immS imm).toInt ∧ (immS imm).toInt ≤ 2047 := immI_range imm

theorem immB_even (w : Word) : (immB (immBField w)).toInt % 2 = 0 := toInt_even (immB_getLsbD w (by decide))

theorem immJ_even (w : Word) : (immJ (immJField w)).toInt % 2 = 0 := toInt_even (immJ_getLsbD w (by decide))

theorem immB_range (w : Word) : -4096 ≤ (immB (immBField w)).toInt ∧ (immB (immBField w)).toInt ≤ 4094 := by
  have hrange := signExtend_toInt_range (immBField w) (by decide)
  have heven := immB_even w
  simp only [immB] at heven ⊢
  omega

theorem immJ_range (w : Word) : -1048576 ≤ (immJ (immJField w)).toInt ∧ (immJ (immJField w)).toInt ≤ 1048574 := by
  have hrange := signExtend_toInt_range (immJField w) (by decide)
  have heven := immJ_even w
  simp only [immJ] at heven ⊢
  omega

/-- Settles O9: each bit of an immediate is a bit of its field or the field's top bit; the width bounds the value, and the
zero bit 0 of a branch or jump offset makes it even. -/
theorem immediateBits : Obligations.ImmediateBits := by
  intro w
  obtain ⟨hBlow, hBhigh⟩ := immB_range w
  obtain ⟨hJlow, hJhigh⟩ := immJ_range w
  exact ⟨fun _ => immI_getLsbD w, fun _ => immS_getLsbD w, fun _ => immB_getLsbD w, fun _ => immU_getLsbD w,
    fun _ => immJ_getLsbD w, immI_range _, immS_range _, ⟨hBlow, hBhigh, immB_even w⟩, ⟨hJlow, hJhigh, immJ_even w⟩⟩

end Sys2Proof.Machine
end

section
/-! CERTIFICATE. The loads (40_loads.md): their encoding, the value each reads in plain arithmetic, what they raise, and that they
write nothing but `rd` and `pc`. -/

namespace Sys2Proof

/-! ## The words of the loads (30_encoding.md R73, R93) -/

/-- The operands the decoder reads from an I-TYPE word. -/
theorem encodeI_operands (imm : BitVec 12) (rs1 : Reg) (func3 : BitVec 3) (rd : Reg) (op : BitVec 7) :
    rdField (encodeI imm rs1 func3 rd op) = rd ∧ rs1Field (encodeI imm rs1 func3 rd op) = rs1 ∧
      immIField (encodeI imm rs1 func3 rd op) = imm := by
  obtain ⟨-, hrd, -, hrs1, himm⟩ := encodeI_fields imm rs1 rd func3 op
  exact ⟨by rw [rdField, hrd, regOfBits_regBits], by rw [rs1Field, hrs1, regOfBits_regBits], himm⟩

section LoadFunc3

variable {w : Word}

theorem decodeLoad_lb (h : func3Field w = 0#3) : decodeLoad w = .ok (.lb (rdField w) (immIField w) (rs1Field w)) := if_pos h

theorem decodeLoad_lh (h : func3Field w = 1#3) : decodeLoad w = .ok (.lh (rdField w) (immIField w) (rs1Field w)) := by
  simp [decodeLoad, h]

theorem decodeLoad_lw (h : func3Field w = 2#3) : decodeLoad w = .ok (.lw (rdField w) (immIField w) (rs1Field w)) := by
  simp [decodeLoad, h]

theorem decodeLoad_lbu (h : func3Field w = 4#3) : decodeLoad w = .ok (.lbu (rdField w) (immIField w) (rs1Field w)) := by
  simp [decodeLoad, h]

theorem decodeLoad_lhu (h : func3Field w = 5#3) : decodeLoad w = .ok (.lhu (rdField w) (immIField w) (rs1Field w)) := by
  simp [decodeLoad, h]

end LoadFunc3

end Sys2Proof

namespace Sys2Proof.Machine

/-- A word is the encoding of the instruction that the choice by `op` gives: a well-formed one passes the checks. -/
theorem encodedAs_of_byOp {i : Instr} {w : Word} (h : ∀ b, decodeByOp b w = .ok i) : EncodedAs i w := by
  intro c hwf
  simp only [decode, h, checkAdmitted_of_wf hwf]

/-- An I-TYPE word of `op` 0000011 encodes the load that its `func3` selects. -/
theorem encodedAs_load (mk : Reg → BitVec 12 → Reg → Instr) {func3 : BitVec 3}
    (h : ∀ {w}, func3Field w = func3 → decodeLoad w = .ok (mk (rdField w) (immIField w) (rs1Field w)))
    (rd rs1 : Reg) (imm : BitVec 12) : EncodedAs (mk rd imm rs1) (encodeI imm rs1 func3 rd 3#7) := by
  obtain ⟨hop, -, hf, -, -⟩ := encodeI_fields imm rs1 rd func3 3#7
  obtain ⟨hrd, hrs1, himm⟩ := encodeI_operands imm rs1 func3 rd 3#7
  exact encodedAs_of_byOp fun b => by rw [decodeByOp_load hop, h hf, hrd, hrs1, himm]

/-! ## The value an access reads, in plain arithmetic (20_memory.md R42) -/

theorem toNat_append_byte {n : Nat} (x : BitVec n) (b : Byte) : (x ++ b).toNat = x.toNat * 2 ^ 8 + b.toNat := by
  rw [BitVec.toNat_append, ← Nat.shiftLeft_add_eq_or_of_lt b.isLt, Nat.shiftLeft_eq]

section Values

variable (s : State) (a : Word)

theorem valueAt_byte : s.valueAt a .byte = s.byteAt a.toNat := by
  rw [State.valueAt, byteAddr_eq, nthByte_zero]

/-- Signed, only the byte at the higher address counts as signed. -/
theorem valueAt_half_toInt :
    (s.valueAt a .half).toInt = (s.byteAt (nthByte a 1)).toInt * 256 + (s.byteAt (nthByte a 0)).toNat := by
  simp only [State.valueAt, byteAddr_eq]
  rw [BitVec.toInt_append, if_neg (by decide)]
  omega

theorem valueAt_half_toNat :
    (s.valueAt a .half).toNat = (s.byteAt (nthByte a 1)).toNat * 256 + (s.byteAt (nthByte a 0)).toNat := by
  simp only [State.valueAt, byteAddr_eq, toNat_append_byte, Nat.reducePow]

theorem valueAt_word_toNat :
    (s.valueAt a .word).toNat = (s.byteAt (nthByte a 3)).toNat * 2 ^ 24 + (s.byteAt (nthByte a 2)).toNat * 2 ^ 16 +
      (s.byteAt (nthByte a 1)).toNat * 2 ^ 8 + (s.byteAt (nthByte a 0)).toNat := by
  simp only [State.valueAt, byteAddr_eq, toNat_append_byte]
  omega

end Values

/-! ## What a load does (40_loads.md R120) -/

/-- Writing `rd` and advancing changes nothing else (10_state.md R21, R25). -/
theorem onlyRdAndPc_setReg_advance (s : State) (rd : Reg) (v : Word) :
    OnlyRdAndPc s (s.setReg rd v).advance rd v (s.pc + 4#32) :=
  ⟨fun r => setReg_reg s rd r v, rfl, fun _ => rfl, rfl, rfl⟩

section Loads

variable {s : State} {w : Width} {ext : BitVec w.bits → Word} {rd rs1 : Reg} {imm : BitVec 12}

theorem load_of_memRead_error {f : Fault} (h : memRead s w (plusSigned (s.reg rs1) imm.toInt) = .error f) :
    load w ext rd imm rs1 s = .fault f := by
  rw [load, loadAddress_eq, h]
  rfl

theorem load_of_misaligned (ha : ¬ AlignmentOk s (plusSigned (s.reg rs1) imm.toInt) w.bytes) :
    load w ext rd imm rs1 s = .fault (.loadAddressMisaligned (plusSigned (s.reg rs1) imm.toInt)) :=
  load_of_memRead_error (memRead_of_misaligned ha)

theorem load_of_outside (ha : AlignmentOk s (plusSigned (s.reg rs1) imm.toInt) w.bytes)
    (hv : ¬ InMemory s (plusSigned (s.reg rs1) imm.toInt) w.bytes) :
    load w ext rd imm rs1 s = .fault (.loadAccessFault (plusSigned (s.reg rs1) imm.toInt)) :=
  load_of_memRead_error (memRead_of_outside ha hv)

/-- A load that passes both checks completes, with the extended value in `rd`. -/
theorem load_completes {v : Word} (ha : AlignmentOk s (plusSigned (s.reg rs1) imm.toInt) w.bytes)
    (hv : InMemory s (plusSigned (s.reg rs1) imm.toInt) w.bytes)
    (hval : ext (s.valueAt (plusSigned (s.reg rs1) imm.toInt) w) = v) :
    ∃ t, load w ext rd imm rs1 s = .next t ∧ OnlyRdAndPc s t rd v (s.pc + 4#32) := by
  subst hval
  refine ⟨_, ?_, onlyRdAndPc_setReg_advance s rd _⟩
  rw [load, loadAddress_eq, memRead_of_ok ha hv]

end Loads

/-! ## The statements -/

/-- Settles O31: a byte access is always aligned, so only its place in memory decides. -/
theorem loadByteResults : Obligations.LoadByteResults := by
  intro s rd rs1 imm a
  have ha : AlignmentOk s a 1 := fun _ => Nat.mod_one _
  refine ⟨encodedAs_load .lb decodeLoad_lb rd rs1 imm, encodedAs_load .lbu decodeLoad_lbu rd rs1 imm, ?completes, ?outside⟩
  case completes =>
    intro hv
    exact ⟨load_completes (w := .byte) ha hv (by rw [valueAt_byte, BitVec.signExtend]),
      load_completes (w := .byte) ha hv (by rw [valueAt_byte, BitVec.ofNat_toNat])⟩
  case outside => exact fun hv => ⟨load_of_outside (w := .byte) ha hv, load_of_outside (w := .byte) ha hv⟩

/-- Settles O32: one clause for each outcome of the two checks. -/
theorem loadHalfResults : Obligations.LoadHalfResults := by
  intro s rd rs1 imm a
  refine ⟨encodedAs_load .lh decodeLoad_lh rd rs1 imm, encodedAs_load .lhu decodeLoad_lhu rd rs1 imm,
    ?completes, ?misaligned, ?outside⟩
  case completes =>
    intro ha hv
    exact ⟨load_completes (w := .half) ha hv (by rw [← valueAt_half_toInt, BitVec.signExtend]),
      load_completes (w := .half) ha hv (by rw [← valueAt_half_toNat, BitVec.ofNat_toNat])⟩
  case misaligned => exact fun ha => ⟨load_of_misaligned (w := .half) ha, load_of_misaligned (w := .half) ha⟩
  case outside => exact fun ha hv => ⟨load_of_outside (w := .half) ha hv, load_of_outside (w := .half) ha hv⟩

/-- Settles O33: one clause for each outcome of the two checks; the word fills the register. -/
theorem loadWordResult : Obligations.LoadWordResult := by
  intro s rd rs1 imm a
  refine ⟨encodedAs_load .lw decodeLoad_lw rd rs1 imm, ?completes, load_of_misaligned (w := .word),
    load_of_outside (w := .word)⟩
  case completes =>
    intro ha hv
    exact load_completes (w := .word) ha hv (by rw [← valueAt_word_toNat, BitVec.ofNat_toNat, BitVec.setWidth_eq])

end Sys2Proof.Machine
end

section
/-! CERTIFICATE. The immediate ALU (41_op_imm.md): the encoding of its instructions, their results bit by bit or in plain
arithmetic, and that they write nothing but `rd` and `pc`. -/

namespace Sys2Proof

/-! ## The words of the immediate ALU (30_encoding.md R85, R94) -/

/-- The operands the decoder reads from an I-TYPE word with a shift amount. -/
theorem encodeShift_operands (func7 : BitVec 7) (uimm : BitVec 5) (rs1 : Reg) (func3 : BitVec 3) (rd : Reg) (op : BitVec 7) :
    rdField (encodeShift func7 uimm rs1 func3 rd op) = rd ∧ rs1Field (encodeShift func7 uimm rs1 func3 rd op) = rs1 ∧
      rs2Bits (encodeShift func7 uimm rs1 func3 rd op) = uimm := by
  obtain ⟨-, hrd, -, hrs1, huimm, -⟩ := encodeShift_fields func7 uimm rs1 rd func3 op
  exact ⟨by rw [rdField, hrd, regOfBits_regBits], by rw [rs1Field, hrs1, regOfBits_regBits], huimm⟩

section OpImmFunc3

variable {w : Word}

theorem decodeOpImm_addi (h : func3Field w = 0#3) :
    decodeOpImm w = .ok (.addi (rdField w) (rs1Field w) (immIField w)) := if_pos h

theorem decodeOpImm_xori (h : func3Field w = 4#3) :
    decodeOpImm w = .ok (.xori (rdField w) (rs1Field w) (immIField w)) := by simp [decodeOpImm, h]

theorem decodeOpImm_ori (h : func3Field w = 6#3) :
    decodeOpImm w = .ok (.ori (rdField w) (rs1Field w) (immIField w)) := by simp [decodeOpImm, h]

theorem decodeOpImm_andi (h : func3Field w = 7#3) :
    decodeOpImm w = .ok (.andi (rdField w) (rs1Field w) (immIField w)) := by simp [decodeOpImm, h]

theorem decodeOpImm_slli (h : func3Field w = 1#3) (h7 : func7Field w = 0#7) :
    decodeOpImm w = .ok (.slli (rdField w) (rs1Field w) (rs2Bits w)) := by simp [decodeOpImm, h, h7]

theorem decodeOpImm_srli (h : func3Field w = 5#3) (h7 : func7Field w = 0#7) :
    decodeOpImm w = .ok (.srli (rdField w) (rs1Field w) (rs2Bits w)) := by simp [decodeOpImm, h, h7]

theorem decodeOpImm_srai (h : func3Field w = 5#3) (h7 : func7Field w = 0b0100000#7) :
    decodeOpImm w = .ok (.srai (rdField w) (rs1Field w) (rs2Bits w)) := by simp [decodeOpImm, h, h7]

end OpImmFunc3

end Sys2Proof

namespace Sys2Proof.Machine

/-- An I-TYPE word of `op` 0010011 encodes the instruction that its `func3` selects. -/
theorem encodedAs_opImm (mk : Reg → Reg → BitVec 12 → Instr) {func3 : BitVec 3}
    (h : ∀ {w}, func3Field w = func3 → decodeOpImm w = .ok (mk (rdField w) (rs1Field w) (immIField w)))
    (rd rs1 : Reg) (imm : BitVec 12) : EncodedAs (mk rd rs1 imm) (encodeI imm rs1 func3 rd 19#7) := by
  obtain ⟨hop, -, hf, -, -⟩ := encodeI_fields imm rs1 rd func3 19#7
  obtain ⟨hrd, hrs1, himm⟩ := encodeI_operands imm rs1 func3 rd 19#7
  exact encodedAs_of_byOp fun b => by rw [decodeByOp_opImm hop, h hf, hrd, hrs1, himm]

/-- A word of `op` 0010011 with a shift amount encodes the shift that its `func3` and `func7` select. -/
theorem encodedAs_shiftImm (mk : Reg → Reg → BitVec 5 → Instr) {func3 : BitVec 3} {func7 : BitVec 7}
    (h : ∀ {w}, func3Field w = func3 → func7Field w = func7 → decodeOpImm w = .ok (mk (rdField w) (rs1Field w) (rs2Bits w)))
    (rd rs1 : Reg) (uimm : BitVec 5) : EncodedAs (mk rd rs1 uimm) (encodeShift func7 uimm rs1 func3 rd 19#7) := by
  obtain ⟨hop, -, hf, -, -, h7⟩ := encodeShift_fields func7 uimm rs1 rd func3 19#7
  obtain ⟨hrd, hrs1, huimm⟩ := encodeShift_operands func7 uimm rs1 func3 rd 19#7
  exact encodedAs_of_byOp fun b => by rw [decodeByOp_opImm hop, h hf h7, hrd, hrs1, huimm]

/-! ## The results, in plain arithmetic and bit by bit -/

theorem addWord_immI (a : Word) (imm : BitVec 12) : addWord a (immI imm) = plusSigned a imm.toInt := by
  rw [plusSigned_eq]
  rfl

/-- Bits 31:11 of the immediate are its sign (30_encoding.md R80). -/
theorem immI_bit (imm : BitVec 12) {k : Nat} (hk : k < 32) : (immI imm).getLsbD k = imm.getLsbD (min k 11) :=
  signExtend_getLsbD imm hk

theorem shiftLeft_eq_mul (a : Word) (n : Nat) : shiftLeft a n = BitVec.ofNat 32 (a.toNat * 2 ^ n) := by
  apply BitVec.eq_of_toNat_eq
  rw [shiftLeft, BitVec.toNat_shiftLeft, Nat.shiftLeft_eq, BitVec.toNat_ofNat]

theorem shiftRightLogical_eq_div (a : Word) (n : Nat) : shiftRightLogical a n = BitVec.ofNat 32 (a.toNat / 2 ^ n) := by
  rw [shiftRightLogical, ← Nat.shiftRight_eq_div_pow, ← BitVec.toNat_ushiftRight, BitVec.ofNat_toNat, BitVec.setWidth_eq]

/-- Division of integers by a positive number rounds down, as the copies of bit 31 do. -/
theorem shiftRightArith_eq_div (a : Word) (n : Nat) : shiftRightArith a n = BitVec.ofInt 32 (a.toInt / 2 ^ n) := by
  rw [shiftRightArith, BitVec.sshiftRight, Int.shiftRight_eq_div_pow]
  norm_cast

/-! ## The form these instructions share (41_op_imm.md R130) -/

section WriteRd

variable {s : State} {rd : Reg} {v : Word}

/-- `writeRd` completes in every state, and changes `rd` and `pc` only. -/
theorem writeRd_completes {u : Word} (h : v = u) :
    ∃ t, writeRd rd v s = .next t ∧ OnlyRdAndPc s t rd u (s.pc + 4#32) :=
  ⟨_, rfl, h ▸ onlyRdAndPc_setReg_advance s rd v⟩

/-- `writeRd` of a value that is known by its bits. -/
theorem writeRd_completes_bits {bit : Nat → Bool} (h : ∀ k < 32, v.getLsbD k = bit k) :
    ∃ t u, writeRd rd v s = .next t ∧ OnlyRdAndPc s t rd u (s.pc + 4#32) ∧ ∀ k < 32, u.getLsbD k = bit k :=
  ⟨_, v, rfl, onlyRdAndPc_setReg_advance s rd v, h⟩

end WriteRd

/-! ## The statements -/

/-- Settles O37: adding the sign-extended immediate is adding its signed value modulo 2^32. -/
theorem addImmediateResult : Obligations.AddImmediateResult := by
  intro s rd rs1 imm
  exact ⟨encodedAs_opImm .addi decodeOpImm_addi rd rs1 imm, writeRd_completes (addWord_immI (s.reg rs1) imm)⟩

/-- Settles O38: each operation works bit by bit, and each bit of the operand is a bit of the immediate. -/
theorem logicalImmediateResults : Obligations.LogicalImmediateResults := by
  intro s rd rs1 imm
  refine ⟨encodedAs_opImm .xori decodeOpImm_xori rd rs1 imm, encodedAs_opImm .ori decodeOpImm_ori rd rs1 imm,
    encodedAs_opImm .andi decodeOpImm_andi rd rs1 imm, ?xori, ?ori, ?andi⟩
  case xori => exact writeRd_completes_bits fun k hk => by rw [BitVec.getLsbD_xor, immI_bit imm hk]
  case ori => exact writeRd_completes_bits fun k hk => by rw [BitVec.getLsbD_or, immI_bit imm hk]
  case andi => exact writeRd_completes_bits fun k hk => by rw [BitVec.getLsbD_and, immI_bit imm hk]

/-- Settles O40: a shift is a product or a quotient by a power of two; `func7` tells `srai` from `srli`. -/
theorem shiftImmediateResults : Obligations.ShiftImmediateResults := by
  intro s rd rs1 uimm
  refine ⟨encodedAs_shiftImm .slli decodeOpImm_slli rd rs1 uimm, encodedAs_shiftImm .srli decodeOpImm_srli rd rs1 uimm,
    encodedAs_shiftImm .srai decodeOpImm_srai rd rs1 uimm, ?slli, ?srli, ?srai⟩
  case slli => exact writeRd_completes (shiftLeft_eq_mul (s.reg rs1) uimm.toNat)
  case srli => exact writeRd_completes (shiftRightLogical_eq_div (s.reg rs1) uimm.toNat)
  case srai => exact writeRd_completes (shiftRightArith_eq_div (s.reg rs1) uimm.toNat)

end Sys2Proof.Machine
end

section
/-! CERTIFICATE. Add upper immediate to pc (42_auipc.md): the encoding of `auipc`, its sum in plain arithmetic, and that it writes
nothing but `rd` and `pc`. -/

namespace Sys2Proof

/-! ## The words with an upper immediate (30_encoding.md R76) -/

/-- The operands the decoder reads from a U-TYPE word. -/
theorem encodeU_operands (upimm : BitVec 20) (rd : Reg) (op : BitVec 7) :
    rdField (encodeU upimm rd op) = rd ∧ immUField (encodeU upimm rd op) = upimm := by
  obtain ⟨-, hrd, himm⟩ := encodeU_fields upimm rd op
  exact ⟨by rw [rdField, hrd, regOfBits_regBits], himm⟩

theorem decodeByOp_auipc {b : BranchFunc3} {w : Word} (h : opField w = 23#7) :
    decodeByOp b w = .ok (.auipc (rdField w) (immUField w)) := by simp [decodeByOp, h]

end Sys2Proof

namespace Sys2Proof.Machine

/-- A U-TYPE word of `op` 0010111 encodes `auipc`. -/
theorem encodedAs_auipc (rd : Reg) (upimm : BitVec 20) : EncodedAs (.auipc rd upimm) (encodeU upimm rd 23#7) := by
  obtain ⟨hop, -, -⟩ := encodeU_fields upimm rd 23#7
  obtain ⟨hrd, himm⟩ := encodeU_operands upimm rd 23#7
  exact encodedAs_of_byOp fun b => by rw [decodeByOp_auipc hop, hrd, himm]

/-! ## The sum, in plain arithmetic (30_encoding.md R83) -/

/-- Twelve zero bits below `upimm` multiply it by 2^12; the product fits a word, so nothing is lost. -/
theorem immU_toNat (upimm : BitVec 20) : (immU upimm).toNat = upimm.toNat * 2 ^ 12 := by
  rw [immU, BitVec.toNat_append, BitVec.toNat_ofNat, Nat.zero_mod, Nat.or_zero, Nat.shiftLeft_eq]

theorem addWord_immU (a : Word) (upimm : BitVec 20) :
    addWord a (immU upimm) = BitVec.ofNat 32 (a.toNat + upimm.toNat * 2 ^ 12) := by
  apply BitVec.eq_of_toNat_eq
  rw [addWord, BitVec.toNat_add, immU_toNat, BitVec.toNat_ofNat]

/-! ## The statement -/

/-- Settles O46: `auipc` writes the sum of its own address and the shifted immediate, modulo 2^32. -/
theorem addUpperImmediateToPcResult : Obligations.AddUpperImmediateToPcResult := by
  intro s rd upimm
  exact ⟨encodedAs_auipc rd upimm, writeRd_completes (addWord_immU s.pc upimm)⟩

end Sys2Proof.Machine
end

section
/-! CERTIFICATE. The register-register ALU (44_op.md): the encoding of its instructions, their results bit by bit or in plain
arithmetic, and that they write nothing but `rd` and `pc`. -/

namespace Sys2Proof

/-! ## The words of the register-register ALU (30_encoding.md R72, R97) -/

/-- The operands the decoder reads from an R-TYPE word. -/
theorem encodeR_operands (func7 : BitVec 7) (rs2 rs1 : Reg) (func3 : BitVec 3) (rd : Reg) (op : BitVec 7) :
    rdField (encodeR func7 rs2 rs1 func3 rd op) = rd ∧ rs1Field (encodeR func7 rs2 rs1 func3 rd op) = rs1 ∧
      rs2Field (encodeR func7 rs2 rs1 func3 rd op) = rs2 := by
  obtain ⟨-, hrd, -, hrs1, hrs2, -⟩ := encodeR_fields func7 rs2 rs1 rd func3 op
  exact ⟨by rw [rdField, hrd, regOfBits_regBits], by rw [rs1Field, hrs1, regOfBits_regBits],
    by rw [rs2Field, hrs2, regOfBits_regBits]⟩

section OpFunc3

variable {w : Word}

theorem decodeOp_add (h : func3Field w = 0#3) (h7 : func7Field w = 0#7) :
    decodeOp w = .ok (.add (rdField w) (rs1Field w) (rs2Field w)) := by simp [decodeOp, h, h7]

theorem decodeOp_sub (h : func3Field w = 0#3) (h7 : func7Field w = 0b0100000#7) :
    decodeOp w = .ok (.sub (rdField w) (rs1Field w) (rs2Field w)) := by simp [decodeOp, h, h7]

theorem decodeOp_sll (h : func3Field w = 1#3) (h7 : func7Field w = 0#7) :
    decodeOp w = .ok (.sll (rdField w) (rs1Field w) (rs2Field w)) := by simp [decodeOp, h, h7]

theorem decodeOp_xor (h : func3Field w = 4#3) (h7 : func7Field w = 0#7) :
    decodeOp w = .ok (.xor (rdField w) (rs1Field w) (rs2Field w)) := by simp [decodeOp, h, h7]

theorem decodeOp_srl (h : func3Field w = 5#3) (h7 : func7Field w = 0#7) :
    decodeOp w = .ok (.srl (rdField w) (rs1Field w) (rs2Field w)) := by simp [decodeOp, h, h7]

theorem decodeOp_sra (h : func3Field w = 5#3) (h7 : func7Field w = 0b0100000#7) :
    decodeOp w = .ok (.sra (rdField w) (rs1Field w) (rs2Field w)) := by simp [decodeOp, h, h7]

theorem decodeOp_or (h : func3Field w = 6#3) (h7 : func7Field w = 0#7) :
    decodeOp w = .ok (.or (rdField w) (rs1Field w) (rs2Field w)) := by simp [decodeOp, h, h7]

theorem decodeOp_and (h : func3Field w = 7#3) (h7 : func7Field w = 0#7) :
    decodeOp w = .ok (.and (rdField w) (rs1Field w) (rs2Field w)) := by simp [decodeOp, h, h7]

end OpFunc3

end Sys2Proof

namespace Sys2Proof.Machine

/-- An R-TYPE word of `op` 0110011 encodes the instruction that its `func3` and `func7` select. -/
theorem encodedAs_op (mk : Reg → Reg → Reg → Instr) {func3 : BitVec 3} {func7 : BitVec 7}
    (h : ∀ {w}, func3Field w = func3 → func7Field w = func7 → decodeOp w = .ok (mk (rdField w) (rs1Field w) (rs2Field w)))
    (rd rs1 rs2 : Reg) : EncodedAs (mk rd rs1 rs2) (encodeR func7 rs2 rs1 func3 rd 51#7) := by
  obtain ⟨hop, -, hf, -, -, h7⟩ := encodeR_fields func7 rs2 rs1 rd func3 51#7
  obtain ⟨hrd, hrs1, hrs2⟩ := encodeR_operands func7 rs2 rs1 func3 rd 51#7
  exact encodedAs_of_byOp fun b => by rw [decodeByOp_op hop, h hf h7, hrd, hrs1, hrs2]

/-! ## The results, in plain arithmetic -/

theorem addWord_eq_ofNat_add (a b : Word) : addWord a b = BitVec.ofNat 32 (a.toNat + b.toNat) :=
  BitVec.add_def a b

/-- The signed readings differ from the unsigned ones by multiples of 2^32, which the word does not keep (44_op.md R162). -/
theorem subWord_eq_ofInt_sub (a b : Word) : subWord a b = BitVec.ofInt 32 (a.toInt - b.toInt) := by
  apply BitVec.eq_of_toInt_eq
  rw [subWord, BitVec.toInt_sub, BitVec.toInt_ofInt]

/-! ## The statements -/

/-- Settles O41: the sum is taken of the unsigned readings, the difference of the signed ones, both modulo 2^32. -/
theorem addSubResults : Obligations.AddSubResults := by
  intro s rd rs1 rs2
  refine ⟨encodedAs_op .add decodeOp_add rd rs1 rs2, encodedAs_op .sub decodeOp_sub rd rs1 rs2, ?add, ?sub⟩
  case add => exact writeRd_completes (addWord_eq_ofNat_add (s.reg rs1) (s.reg rs2))
  case sub => exact writeRd_completes (subWord_eq_ofInt_sub (s.reg rs1) (s.reg rs2))

/-- Settles O42: each operation of the model works bit by bit. -/
theorem logicalRegisterResults : Obligations.LogicalRegisterResults := by
  intro s rd rs1 rs2
  refine ⟨encodedAs_op .xor decodeOp_xor rd rs1 rs2, encodedAs_op .or decodeOp_or rd rs1 rs2,
    encodedAs_op .and decodeOp_and rd rs1 rs2, ?xor, ?or, ?and⟩
  case xor => exact writeRd_completes_bits fun _ _ => BitVec.getLsbD_xor
  case or => exact writeRd_completes_bits fun _ _ => BitVec.getLsbD_or
  case and => exact writeRd_completes_bits fun _ _ => BitVec.getLsbD_and

/-- Settles O44: the low five bits of `x[rs2]` are its remainder by 32, and a shift is a product or a quotient by a power of
two. -/
theorem shiftRegisterResults : Obligations.ShiftRegisterResults := by
  intro s rd rs1 rs2 n
  have hn : shamtReg (s.reg rs2) = n := shamtReg_eq (s.reg rs2)
  refine ⟨encodedAs_op .sll decodeOp_sll rd rs1 rs2, encodedAs_op .srl decodeOp_srl rd rs1 rs2,
    encodedAs_op .sra decodeOp_sra rd rs1 rs2, ?sll, ?srl, ?sra⟩
  case sll => exact writeRd_completes (by rw [hn, shiftLeft_eq_mul])
  case srl => exact writeRd_completes (by rw [hn, shiftRightLogical_eq_div])
  case sra => exact writeRd_completes (by rw [hn, shiftRightArith_eq_div])

end Sys2Proof.Machine
end

section
/-! CERTIFICATE. Load upper immediate (45_lui.md): the encoding of `lui`, its result in plain arithmetic, and that it writes
nothing but `rd` and `pc`. -/

namespace Sys2Proof

/-! ## The words of `lui` (30_encoding.md R76) -/

theorem decodeByOp_lui {b : BranchFunc3} {w : Word} (h : opField w = 55#7) :
    decodeByOp b w = .ok (.lui (rdField w) (immUField w)) := by simp [decodeByOp, h]

end Sys2Proof

namespace Sys2Proof.Machine

/-- A U-TYPE word of `op` 0110111 encodes `lui`. -/
theorem encodedAs_lui (rd : Reg) (upimm : BitVec 20) : EncodedAs (.lui rd upimm) (encodeU upimm rd 55#7) := by
  obtain ⟨hop, -, -⟩ := encodeU_fields upimm rd 55#7
  obtain ⟨hrd, himm⟩ := encodeU_operands upimm rd 55#7
  exact encodedAs_of_byOp fun b => by rw [decodeByOp_lui hop, hrd, himm]

/-! ## The result, in plain arithmetic (30_encoding.md R83) -/

theorem immU_eq_ofNat (upimm : BitVec 20) : immU upimm = BitVec.ofNat 32 (upimm.toNat * 2 ^ 12) := by
  rw [← immU_toNat, BitVec.ofNat_toNat, BitVec.setWidth_eq]

/-! ## The statement -/

/-- Settles O45: `lui` writes the shifted immediate, whatever the registers hold. -/
theorem loadUpperImmediateResult : Obligations.LoadUpperImmediateResult := by
  intro s rd upimm
  exact ⟨encodedAs_lui rd upimm, writeRd_completes (immU_eq_ofNat upimm)⟩

end Sys2Proof.Machine
end

section
/-! CERTIFICATE. The conditional branches (46_branches.md): their encoding, where each goes, that they write nothing but `pc`,
and when one raises. -/

namespace Sys2Proof

/-! ## The words of the branches (30_encoding.md R75, R99) -/

/-- The operands the decoder reads from an SB-TYPE word; the word does not hold bit 0 of the offset. -/
theorem encodeB_operands {o : BitVec 13} (h0 : o.getLsbD 0 = false) (rs2 rs1 : Reg) (func3 : BitVec 3) (op : BitVec 7) :
    rs1Field (encodeB o rs2 rs1 func3 op) = rs1 ∧ rs2Field (encodeB o rs2 rs1 func3 op) = rs2 ∧
      immBField (encodeB o rs2 rs1 func3 op) = o := by
  obtain ⟨-, -, hrs1, hrs2, himm⟩ := encodeB_fields rs2 rs1 func3 op o
  exact ⟨by rw [rs1Field, hrs1, regOfBits_regBits], by rw [rs2Field, hrs2, regOfBits_regBits], by rw [himm, immB_parts o h0]⟩

theorem offsetEven_of_wf {c : Config} {i : Instr} (h : i.wf c = true) : i.offsetEven = true := by
  simp only [Instr.wf, Bool.and_eq_true] at h
  obtain ⟨⟨-, heven⟩, -⟩ := h
  exact heven

/-- An SB-TYPE word of `op` 1100011 decodes to the branch that its `func3` selects under `BRANCH_FUNC3`, when that branch has an
encoding. -/
theorem decode_encodeB (mk : Reg → Reg → BitVec 13 → Instr) {c : Config} {func3 : BitVec 3}
    (h : ∀ {w}, func3Field w = func3 → decodeBranch c.branchFunc3 w = .ok (mk (rs1Field w) (rs2Field w) (immBField w)))
    {rs1 rs2 : Reg} {o : BitVec 13} (hmk : (mk rs1 rs2 o).offsetEven = !o.getLsbD 0) (hwf : (mk rs1 rs2 o).wf c = true) :
    decode c (encodeB o rs2 rs1 func3 99#7) = .ok (mk rs1 rs2 o) := by
  have h0 : o.getLsbD 0 = false := by simpa [hmk] using offsetEven_of_wf hwf
  obtain ⟨hop, hf, -⟩ := encodeB_fields rs2 rs1 func3 99#7 o
  obtain ⟨hrs1, hrs2, himm⟩ := encodeB_operands h0 rs2 rs1 func3 99#7
  simp only [decode, decodeByOp_branch hop, h hf, hrs1, hrs2, himm, checkAdmitted_of_wf hwf]

theorem func3Bltu_eq (b : BranchFunc3) : func3Bltu b = if b = .ratified then 0b110#3 else 0b100#3 := by
  cases b <;> rfl

theorem func3Bgeu_eq (b : BranchFunc3) : func3Bgeu b = if b = .ratified then 0b111#3 else 0b101#3 := by
  cases b <;> rfl

/-! ## Multiples of 4 (46_branches.md R181) -/

theorem toNat_even_iff {n : Nat} (x : BitVec n) : x.toNat % 2 = 0 ↔ x.getLsbD 0 = false := by
  simp [BitVec.getLsbD, Nat.testBit_zero]

/-- An even number is a multiple of 4 unless bit 1 is set. -/
theorem toNat_mod_four_ne_zero_iff {n : Nat} {x : BitVec n} (h0 : x.getLsbD 0 = false) :
    x.toNat % 4 ≠ 0 ↔ x.getLsbD 1 = true := by
  have heven := (toNat_even_iff x).2 h0
  rw [BitVec.getLsbD, Nat.testBit_eq_decide_div_mod_eq, decide_eq_true_eq]
  omega

end Sys2Proof

namespace Sys2Proof.Machine

/-- The signed reading of an immediate and the wrap at 2^32 both change a sum by multiples of 4 only. -/
theorem plusSigned_toNat_mod_four {n : Nat} (hn : 2 ≤ n) (a : Word) (d : BitVec n) :
    (plusSigned a d.toInt).toNat % 4 = (a.toNat + d.toNat) % 4 := by
  obtain ⟨k, hk⟩ : 2 ^ 2 ∣ 2 ^ n := pow_dvd_pow 2 hn
  have hk' : (2 ^ n : Int) = 2 ^ 2 * k := by exact_mod_cast hk
  rw [plusSigned, BitVec.toNat_ofInt, BitVec.toInt_eq_toNat_cond]
  push_cast
  split <;> omega

/-! ## What a branch does (46_branches.md R180, R181) -/

/-- Setting `pc` changes nothing else. -/
theorem onlyPc_setPc (s : State) (target : Word) : OnlyPc s (s.setPc target) target :=
  ⟨fun _ => rfl, rfl, fun _ => rfl, rfl, rfl⟩

theorem branch_of_aligned {s : State} {o : BitVec 13} (h4 : (branchTarget s o).toNat % 4 = 0) :
    branch true o s = .next (s.setPc (branchTarget s o)) := by
  simp [branch, h4]

theorem branch_not_taken (s : State) (o : BitVec 13) : branch false o s = .next (s.setPc (s.pc + 4#32)) := rfl

/-- The six branches on the same operands. -/
abbrev branchesOn (rs1 rs2 : Reg) (o : BitVec 13) : List Instr :=
  [.beq rs1 rs2 o, .bne rs1 rs2 o, .blt rs1 rs2 o, .bge rs1 rs2 o, .bltu rs1 rs2 o, .bgeu rs1 rs2 o]

section Branches

variable {s : State} {rs1 rs2 : Reg} {o : BitVec 13} {i : Instr} (hi : i ∈ branchesOn rs1 rs2 o)

include hi

theorem exec_branch_taken (ht : Taken s i) (h4 : (plusSigned s.pc o.toInt).toNat % 4 = 0) :
    ∃ t, exec i s = .next t ∧ OnlyPc s t (plusSigned s.pc o.toInt) := by
  obtain ⟨cond, hexec, hcond⟩ := exec_branch hi s
  rw [← branchTarget_eq] at h4 ⊢
  exact ⟨_, by rw [hexec, hcond.2 ht, branch_of_aligned h4], onlyPc_setPc s _⟩

theorem exec_branch_misaligned (ht : Taken s i) (h4 : (plusSigned s.pc o.toInt).toNat % 4 ≠ 0) :
    exec i s = .fault (.instructionAddressMisaligned (plusSigned s.pc o.toInt)) := by
  obtain ⟨cond, hexec, hcond⟩ := exec_branch hi s
  rw [← branchTarget_eq] at h4 ⊢
  rw [hexec, hcond.2 ht, branch_of_misaligned h4]

theorem exec_branch_not_taken (ht : ¬ Taken s i) : ∃ t, exec i s = .next t ∧ OnlyPc s t (s.pc + 4#32) := by
  obtain ⟨cond, hexec, hcond⟩ := exec_branch hi s
  have hfalse : cond = false := by simpa [← hcond] using ht
  exact ⟨_, by rw [hexec, hfalse, branch_not_taken], onlyPc_setPc s _⟩

end Branches

/-! ## The statements -/

/-- Settles O47: equality of the registers takes `beq` and not `bne`, inequality `bne` and not `beq`. -/
theorem branchEqualityResults : Obligations.BranchEqualityResults := by
  intro s rs1 rs2 o target
  have hbeq : .beq rs1 rs2 o ∈ branchesOn rs1 rs2 o := by simp
  have hbne : .bne rs1 rs2 o ∈ branchesOn rs1 rs2 o := by simp
  refine ⟨fun c => decode_encodeB .beq decodeBranch_beq rfl, fun c => decode_encodeB .bne decodeBranch_bne rfl, ?eq, ?ne⟩
  case eq =>
    intro h
    exact ⟨exec_branch_taken hbeq h, exec_branch_not_taken hbne (· h)⟩
  case ne =>
    intro h
    exact ⟨exec_branch_not_taken hbeq h, exec_branch_taken hbne h⟩

/-- Settles O49: the two conditions are each other's negation, read unsigned; `bltu` and `bgeu` have an encoding under the same
parameters. -/
theorem branchUnsignedResults : Obligations.BranchUnsignedResults := by
  intro s rs1 rs2 o target
  have hbltu : .bltu rs1 rs2 o ∈ branchesOn rs1 rs2 o := by simp
  have hbgeu : .bgeu rs1 rs2 o ∈ branchesOn rs1 rs2 o := by simp
  refine ⟨fun c hwf => ?encoded, ?lt, ?ge⟩
  case encoded =>
    rw [← func3Bltu_eq, ← func3Bgeu_eq]
    exact ⟨decode_encodeB .bltu decodeBranch_bltu rfl hwf, decode_encodeB .bgeu decodeBranch_bgeu rfl hwf⟩
  case lt =>
    intro h
    exact ⟨exec_branch_taken hbltu h, exec_branch_not_taken hbgeu (Nat.not_le.2 h)⟩
  case ge =>
    intro h
    exact ⟨exec_branch_not_taken hbltu (Nat.not_lt.2 h), exec_branch_taken hbgeu h⟩

/-- Settles O50: from an aligned `pc` the target and the offset have the same remainder by 4, which bit 1 of an even offset
decides. -/
theorem misalignedBranchTarget : Obligations.MisalignedBranchTarget := by
  intro s rs1 rs2 o hpc h0 target
  have hmod : target.toNat % 4 = o.toNat % 4 := by
    have hsum : target.toNat % 4 = (s.pc.toNat + o.toNat) % 4 := plusSigned_toNat_mod_four (by decide) s.pc o
    omega
  have heven : target.toNat % 2 = 0 := by
    have ho := (toNat_even_iff o).2 h0
    omega
  have hbit1 : target.toNat % 4 ≠ 0 ↔ o.getLsbD 1 = true := by
    rw [hmod]
    exact toNat_mod_four_ne_zero_iff h0
  refine ⟨heven, hbit1, fun i hi => ⟨?misaligned, ?taken, ?notTaken⟩⟩
  case misaligned =>
    intro ht h1
    exact exec_branch_misaligned hi ht (hbit1.2 h1)
  case taken =>
    intro ht h1
    have h4 : target.toNat % 4 = 0 := not_not.1 fun hne => Bool.false_ne_true (h1.symm.trans (hbit1.1 hne))
    obtain ⟨t, hexec, -⟩ := exec_branch_taken hi ht h4
    exact ⟨t, hexec⟩
  case notTaken =>
    intro ht
    obtain ⟨t, hexec, -⟩ := exec_branch_not_taken hi ht
    exact ⟨t, hexec⟩

end Sys2Proof.Machine
end

section
/-! CERTIFICATE. The jumps (47_jumps.md): their encoding, the link and the target in plain arithmetic, when they raise, and that
they write nothing but `rd` and `pc`. -/

namespace Sys2Proof

/-! ## The words of the jumps (30_encoding.md R73, R77) -/

/-- The operands the decoder reads from a UJ-TYPE word; the word does not hold bit 0 of the offset. -/
theorem encodeJ_operands {o : BitVec 21} (h0 : o.getLsbD 0 = false) (rd : Reg) (op : BitVec 7) :
    rdField (encodeJ o rd op) = rd ∧ immJField (encodeJ o rd op) = o := by
  obtain ⟨-, hrd, himm⟩ := encodeJ_fields rd op o
  exact ⟨by rw [rdField, hrd, regOfBits_regBits], by rw [himm, immJ_parts o h0]⟩

section ByOp

variable {b : BranchFunc3} {w : Word}

theorem decodeByOp_jal (h : opField w = 111#7) : decodeByOp b w = .ok (.jal (rdField w) (immJField w)) := by
  simp [decodeByOp, h]

theorem decodeByOp_jalr (h : opField w = 103#7) (hf : func3Field w = 0#3) :
    decodeByOp b w = .ok (.jalr (rdField w) (rs1Field w) (immIField w)) := by simp [decodeByOp, h, hf]

end ByOp

end Sys2Proof

namespace Sys2Proof.Machine

/-- A UJ-TYPE word of `op` 1101111 encodes `jal`, when the offset is even as a well-formed one is. -/
theorem encodedAs_jal (rd : Reg) (o : BitVec 21) : EncodedAs (.jal rd o) (encodeJ o rd 111#7) := by
  intro c hwf
  have h0 : o.getLsbD 0 = false := by simpa [Instr.offsetEven] using offsetEven_of_wf hwf
  obtain ⟨hop, -, -⟩ := encodeJ_fields rd 111#7 o
  obtain ⟨hrd, himm⟩ := encodeJ_operands h0 rd 111#7
  simp only [decode, decodeByOp_jal hop, hrd, himm, checkAdmitted_of_wf hwf]

/-- An I-TYPE word of `op` 1100111 and `func3` 000 encodes `jalr`. -/
theorem encodedAs_jalr (rd rs1 : Reg) (imm : BitVec 12) : EncodedAs (.jalr rd rs1 imm) (encodeI imm rs1 0#3 rd 103#7) := by
  obtain ⟨hop, -, hf, -, -⟩ := encodeI_fields imm rs1 rd 0#3 103#7
  obtain ⟨hrd, hrs1, himm⟩ := encodeI_operands imm rs1 0#3 rd 103#7
  exact encodedAs_of_byOp fun b => by rw [decodeByOp_jalr hop hf, hrd, hrs1, himm]

/-! ## When a target is no multiple of 4 -/

/-- From an aligned address, bit 1 of an even offset decides. -/
theorem plusSigned_misaligned_iff {n : Nat} (hn : 2 ≤ n) {a : Word} {d : BitVec n} (ha : a.toNat % 4 = 0)
    (h0 : d.getLsbD 0 = false) : (plusSigned a d.toInt).toNat % 4 ≠ 0 ↔ d.getLsbD 1 = true := by
  have hmod : (plusSigned a d.toInt).toNat % 4 = d.toNat % 4 := by
    rw [plusSigned_toNat_mod_four hn]
    omega
  rw [hmod]
  exact toNat_mod_four_ne_zero_iff h0

/-- With `JALR_CLEAR_BIT0` the target of `jalr` is even (47_jumps.md R191). -/
theorem jalrTo_even {s : State} (hclear : s.cfg.jalrClearBit0 = true) (rs1 : Reg) (imm : BitVec 12) :
    (jalrTo s rs1 imm).getLsbD 0 = false := by
  rw [← toNat_even_iff]
  simp only [jalrTo, if_pos hclear, BitVec.toNat_ofNat]
  omega

/-! ## What a jump does (47_jumps.md R190) -/

/-- A jump to a multiple of 4 completes: it links, goes to its target, and changes nothing else. -/
theorem jump_completes {s : State} {rd : Reg} {target : Word} (h4 : target.toNat % 4 = 0) :
    ∃ t, jump rd target s = .next t ∧ OnlyRdAndPc s t rd (s.pc + 4#32) target :=
  ⟨_, if_neg (not_not.2 h4), fun r => setReg_reg s rd r _, rfl, fun _ => rfl, rfl, rfl⟩

/-! ## The statements -/

/-- Settles O51: `jal` is the shared form at `pc` plus the offset. -/
theorem jumpAndLinkResult : Obligations.JumpAndLinkResult := by
  intro s rd o target
  have hexec : exec (.jal rd o) s = jump rd target s := congrArg (jump rd · s) (jumpTarget_eq s o)
  rw [hexec]
  exact ⟨encodedAs_jal rd o, jump_completes, jump_of_misaligned, plusSigned_misaligned_iff (by decide)⟩

/-- Settles O52: `jalr` is the shared form at a target computed before the link is written, so `rd` = `rs1` needs no case of
its own. -/
theorem jumpAndLinkRegisterResult : Obligations.JumpAndLinkRegisterResult := by
  intro s rd rs1 imm sum
  refine ⟨encodedAs_jalr rd rs1 imm, fun target htarget => ?_⟩
  have hto : jalrTo s rs1 imm = target := htarget.symm
  have hexec : exec (.jalr rd rs1 imm) s = jump rd target s :=
    congrArg (jump rd · s) ((jalrTarget_eq s rs1 imm).trans hto)
  rw [hexec]
  refine ⟨jump_completes, jump_of_misaligned, fun hclear => ?bit1⟩
  case bit1 => exact toNat_mod_four_ne_zero_iff (hto ▸ jalrTo_even hclear rs1 imm)

end Sys2Proof.Machine
end

section
/-! CERTIFICATE. The supplement (48_supplement_system.md): the words of `fence`, `ecall` and `ebreak`, that `fence` writes nothing
but `pc`, and that a run ends at `ecall` and at `ebreak`. -/

namespace Sys2Proof

/-! ## The words of the supplement (30_encoding.md R102) -/

/-- `func3` 000 is all that `op` 0001111 asks for; the other fields are read as they stand. -/
theorem decodeFence_accepts {w : Word} (h : func3Field w = 0#3) :
    decodeFence w = .ok (.fence (w.extractLsb' 28 4) (w.extractLsb' 24 4) (w.extractLsb' 20 4) (rs1Bits w) (rdBits w)) :=
  if_pos h

end Sys2Proof

namespace Sys2Proof.Machine

theorem encodedAs_fence (fm pred succ : BitVec 4) (rs1 rd : BitVec 5) :
    EncodedAs (.fence fm pred succ rs1 rd) (encodeFence fm pred succ rs1 rd) := by
  obtain ⟨hop, hf, hrd, hrs1, hsucc, hpred, hfm⟩ := encodeFence_fields fm pred succ rs1 rd
  exact encodedAs_of_byOp fun b => by
    rw [decodeByOp_fence hop, decodeFence_accepts hf, hrd, hrs1, hsucc, hpred, hfm]

theorem encodedAs_ecall : EncodedAs .ecall 0x00000073#32 :=
  encodedAs_of_byOp fun _ => (decodeByOp_system (by decide)).trans (if_pos rfl)

theorem encodedAs_ebreak : EncodedAs .ebreak 0x00100073#32 :=
  encodedAs_of_byOp fun _ => (decodeByOp_system (by decide)).trans ((if_neg (by decide)).trans (if_pos rfl))

/-! ## How an instruction that raises ends a run (70_reset_and_hazards.md R242, R245) -/

/-- A fetched word that decodes to an instruction leaves the step to it (70_reset_and_hazards.md R245). -/
theorem step_of_decode_ok {s : State} {w : Word} {i : Instr} (hf : fetch s = .ok w) (hd : decode s.cfg w = .ok i) :
    step s = exec i s := by
  simp [step, hf, hd]

theorem run_of_step_fault {s : State} {f : Fault} (h : step s = .fault f) (k : Nat) : run (k + 1) s = .ended s f := by
  simp [run, h]

/-- A run at an instruction that raises ends there, with the state before it. -/
theorem run_of_exec_fault {s : State} {w : Word} {i : Instr} {f : Fault} (hx : exec i s = .fault f) (hf : fetch s = .ok w)
    (hd : decode s.cfg w = .ok i) (k : Nat) : run (k + 1) s = .ended s f :=
  run_of_step_fault ((step_of_decode_ok hf hd).trans hx) k

/-! ## What the three instructions do -/

theorem exec_fence (fm pred succ : BitVec 4) (rs1 rd : BitVec 5) (s : State) :
    exec (.fence fm pred succ rs1 rd) s = .next (s.setPc (s.pc + 4#32)) := rfl

theorem exec_ecall (s : State) : exec .ecall s = .fault (.environmentCall s.pc) := rfl

theorem exec_ebreak (s : State) : exec .ebreak s = .fault (.breakpoint s.pc) := rfl

/-! ## The statements -/

/-- Settles O53: a word of `op` 0001111 is `fence` when its `func3` is 000 and illegal otherwise, and `fence` sets `pc` alone. -/
theorem fenceOnlyAdvances : Obligations.FenceOnlyAdvances := by
  refine fun s fm pred succ rs1 rd => ⟨encodedAs_fence fm pred succ rs1 rd, fun c w i hop h3 => ?fenceI, ?advances⟩
  case fenceI =>
    have hne : func3Field w ≠ 0#3 := by rw [func3Field, h3]; decide
    exact decode_ne_ok_of_byOp_error ((decodeByOp_fence hop).trans (decodeFence_rejects hne)) i
  case advances => exact ⟨_, exec_fence fm pred succ rs1 rd s, onlyPc_setPc s _⟩

/-- Settles O54: `op` 1110011 has two words, and the step that executes `ecall` raises, so the run ends at its state. -/
theorem environmentCallEndsRun : Obligations.EnvironmentCallEndsRun := by
  refine ⟨encodedAs_ecall, fun c w i hop _ hcall hbreak => ?neighbours, fun s => ⟨exec_ecall s, fun w hf hd k => ?ends⟩⟩
  case neighbours =>
    exact decode_ne_ok_of_byOp_error ((decodeByOp_system hop).trans (decodeSystem_rejects hcall hbreak)) i
  case ends => exact ⟨run_of_exec_fault (exec_ecall s) hf hd k, rfl⟩

/-- Settles O55: the step that executes `ebreak` raises, so the run ends at its state. -/
theorem breakpointEndsRun : Obligations.BreakpointEndsRun := by
  refine ⟨encodedAs_ebreak, fun s => ⟨exec_ebreak s, fun w hf hd k => ?ends⟩⟩
  case ends => exact ⟨run_of_exec_fault (exec_ebreak s) hf hd k, rfl⟩

end Sys2Proof.Machine
end

section
/-! CERTIFICATE. The stores (43_stores.md): their encoding, the bytes each stores, what they raise, and that they change nothing
but those bytes, their record and `pc`. -/

namespace Sys2Proof

/-! ## The words of the stores (30_encoding.md R74, R96) -/

/-- The operands the decoder reads from an S-TYPE word. -/
theorem encodeS_operands (imm : BitVec 12) (rs2 rs1 : Reg) (func3 : BitVec 3) (op : BitVec 7) :
    rs2Field (encodeS imm rs2 rs1 func3 op) = rs2 ∧ rs1Field (encodeS imm rs2 rs1 func3 op) = rs1 ∧
      immSField (encodeS imm rs2 rs1 func3 op) = imm := by
  obtain ⟨-, -, hrs1, hrs2, himm⟩ := encodeS_fields imm rs2 rs1 func3 op
  exact ⟨by rw [rs2Field, hrs2, regOfBits_regBits], by rw [rs1Field, hrs1, regOfBits_regBits], by rw [himm, immS_parts]⟩

section StoreFunc3

variable {w : Word}

theorem decodeStore_sb (h : func3Field w = 0#3) : decodeStore w = .ok (.sb (rs2Field w) (immSField w) (rs1Field w)) :=
  if_pos h

theorem decodeStore_sh (h : func3Field w = 1#3) : decodeStore w = .ok (.sh (rs2Field w) (immSField w) (rs1Field w)) := by
  simp [decodeStore, h]

theorem decodeStore_sw (h : func3Field w = 2#3) : decodeStore w = .ok (.sw (rs2Field w) (immSField w) (rs1Field w)) := by
  simp [decodeStore, h]

end StoreFunc3

end Sys2Proof

namespace Sys2Proof.Machine

/-- An S-TYPE word of `op` 0100011 encodes the store that its `func3` selects. -/
theorem encodedAs_store (mk : Reg → BitVec 12 → Reg → Instr) {func3 : BitVec 3}
    (h : ∀ {w}, func3Field w = func3 → decodeStore w = .ok (mk (rs2Field w) (immSField w) (rs1Field w)))
    (rs2 rs1 : Reg) (imm : BitVec 12) : EncodedAs (mk rs2 imm rs1) (encodeS imm rs2 rs1 func3 35#7) := by
  obtain ⟨hop, hf, -⟩ := encodeS_fields imm rs2 rs1 func3 35#7
  obtain ⟨hrs2, hrs1, himm⟩ := encodeS_operands imm rs2 rs1 func3 35#7
  exact encodedAs_of_byOp fun b => by rw [decodeByOp_store hop, h hf, hrs2, hrs1, himm]

/-! ## What a store does (43_stores.md R150) -/

theorem byte_alignmentOk (s : State) (addr : Word) : AlignmentOk s addr 1 := fun _ => Nat.mod_one _

/-- Storing the low bytes of a register and advancing changes nothing else (20_memory.md R45; 10_state.md R25). -/
theorem onlyStored_storeBytes_advance (s : State) (addr : Word) (w : Width) (v : Word) :
    OnlyStored s (s.storeBytes addr (valueBytes w (lowBits w v))).advance addr w.bytes v := by
  refine ⟨storeBytes_reg s addr _, ?pc, storeBytes_cfg s addr _, fun i hi => ?stored, fun a ha => ?other, fun a => ?record⟩
  case pc => rw [advance_pc, storeBytes_pc]
  case stored => rw [advance_byteAt, storeBytes_valueBytes_byteAt s addr w _ hi, lowBits_extract w v hi]
  case other => rw [advance_byteAt, storeBytes_valueBytes_byteAt_other s addr w _ ha]
  case record => rw [advance_stored, storeBytes_stored, valueBytes_length]

section Stores

variable {s : State} {w : Width} {rs2 rs1 : Reg} {imm : BitVec 12}

theorem store_of_memWrite_error {f : Fault}
    (h : memWrite s w (plusSigned (s.reg rs1) imm.toInt) (lowBits w (s.reg rs2)) = .error f) :
    store w rs2 imm rs1 s = .fault f := by
  rw [store, storeAddress_eq, h]
  rfl

theorem store_of_misaligned (ha : ¬ AlignmentOk s (plusSigned (s.reg rs1) imm.toInt) w.bytes) :
    store w rs2 imm rs1 s = .fault (.storeAddressMisaligned (plusSigned (s.reg rs1) imm.toInt)) :=
  store_of_memWrite_error (memWrite_of_misaligned _ ha)

theorem store_of_outside (ha : AlignmentOk s (plusSigned (s.reg rs1) imm.toInt) w.bytes)
    (hv : ¬ InMemory s (plusSigned (s.reg rs1) imm.toInt) w.bytes) :
    store w rs2 imm rs1 s = .fault (.storeAccessFault (plusSigned (s.reg rs1) imm.toInt)) :=
  store_of_memWrite_error (memWrite_of_outside _ ha hv)

/-- A store that passes both checks completes, and changes the bytes it stores, their record and `pc` only. -/
theorem store_completes (ha : AlignmentOk s (plusSigned (s.reg rs1) imm.toInt) w.bytes)
    (hv : InMemory s (plusSigned (s.reg rs1) imm.toInt) w.bytes) :
    ∃ t, store w rs2 imm rs1 s = .next t ∧
      OnlyStored s t (plusSigned (s.reg rs1) imm.toInt) w.bytes (s.reg rs2) := by
  refine ⟨_, ?_, onlyStored_storeBytes_advance s _ w (s.reg rs2)⟩
  rw [store, storeAddress_eq, memWrite_of_ok _ ha hv]

end Stores

/-! ## The statements -/

/-- Settles O34: a byte access is always aligned, so only its place in memory decides. -/
theorem storeByteResult : Obligations.StoreByteResult := by
  intro s rs2 rs1 imm a
  have ha : AlignmentOk s a 1 := byte_alignmentOk s a
  exact ⟨encodedAs_store .sb decodeStore_sb rs2 rs1 imm, store_completes (w := .byte) ha, store_of_outside (w := .byte) ha⟩

/-- Settles O35: one clause for each outcome of the two checks. -/
theorem storeHalfResult : Obligations.StoreHalfResult := by
  intro s rs2 rs1 imm a
  exact ⟨encodedAs_store .sh decodeStore_sh rs2 rs1 imm, store_completes (w := .half), store_of_misaligned (w := .half),
    store_of_outside (w := .half)⟩

/-- Settles O36: one clause for each outcome of the two checks. -/
theorem storeWordResult : Obligations.StoreWordResult := by
  intro s rs2 rs1 imm a
  exact ⟨encodedAs_store .sw decodeStore_sw rs2 rs1 imm, store_completes (w := .word), store_of_misaligned (w := .word),
    store_of_outside (w := .word)⟩

end Sys2Proof.Machine
end

section
/-! CERTIFICATE. The comparisons: `slti` and `sltiu` (41_op_imm.md), `slt` and `sltu` (44_op.md), `blt` and `bge`
(46_branches.md): their encoding, signed or unsigned reading, and that nothing else changes. -/

namespace Sys2Proof

/-! ## The words of the comparisons (30_encoding.md R94, R97, R99) -/

section Func3

variable {w : Word}

theorem decodeOpImm_slti (h : func3Field w = 2#3) :
    decodeOpImm w = .ok (.slti (rdField w) (rs1Field w) (immIField w)) := by simp [decodeOpImm, h]

theorem decodeOpImm_sltiu (h : func3Field w = 3#3) :
    decodeOpImm w = .ok (.sltiu (rdField w) (rs1Field w) (immIField w)) := by simp [decodeOpImm, h]

theorem decodeOp_slt (h : func3Field w = 2#3) (h7 : func7Field w = 0#7) :
    decodeOp w = .ok (.slt (rdField w) (rs1Field w) (rs2Field w)) := by simp [decodeOp, h, h7]

theorem decodeOp_sltu (h : func3Field w = 3#3) (h7 : func7Field w = 0#7) :
    decodeOp w = .ok (.sltu (rdField w) (rs1Field w) (rs2Field w)) := by simp [decodeOp, h, h7]

end Func3

theorem func3Blt_eq (b : BranchFunc3) : func3Blt b = if b = .ratified then 0b100#3 else 0b010#3 := by
  cases b <;> rfl

theorem func3Bge_eq (b : BranchFunc3) : func3Bge b = if b = .ratified then 0b101#3 else 0b011#3 := by
  cases b <;> rfl

end Sys2Proof

namespace Sys2Proof.Machine

/-! ## The results, in plain arithmetic -/

theorem boolWord_decide (p : Prop) [Decidable p] : boolWord (decide p) = if p then 1#32 else 0#32 := by
  simp [boolWord]

theorem immI_toInt (imm : BitVec 12) : (immI imm).toInt = imm.toInt := BitVec.toInt_signExtend_of_le (by decide)

/-- The unsigned reading of a sign-extended immediate is its signed value modulo 2^32 (41_op_imm.md R134). -/
theorem immI_toNat (imm : BitVec 12) : ((immI imm).toNat : Int) = imm.toInt % 2 ^ 32 := by
  rw [immI, BitVec.signExtend, BitVec.toNat_ofInt, Int.toNat_of_nonneg (Int.emod_nonneg _ (by decide))]
  rfl

/-! ## The statements -/

/-- Settles O39: the sign-extended immediate keeps its signed value, and its unsigned value is that value modulo 2^32. -/
theorem setLessThanImmediateResults : Obligations.SetLessThanImmediateResults := by
  intro s rd rs1 imm
  refine ⟨encodedAs_opImm .slti decodeOpImm_slti rd rs1 imm, encodedAs_opImm .sltiu decodeOpImm_sltiu rd rs1 imm,
    ?slti, ?sltiu⟩
  case slti => exact writeRd_completes (by rw [lessSigned, boolWord_decide, immI_toInt])
  case sltiu => exact writeRd_completes (by simp only [lessUnsigned, boolWord_decide, ← immI_toNat, Int.ofNat_lt])

/-- Settles O43: each comparison is that of the two readings. -/
theorem setLessThanResults : Obligations.SetLessThanResults := by
  intro s rd rs1 rs2
  exact ⟨encodedAs_op .slt decodeOp_slt rd rs1 rs2, encodedAs_op .sltu decodeOp_sltu rd rs1 rs2,
    writeRd_completes (boolWord_decide _), writeRd_completes (boolWord_decide _)⟩

/-- Settles O48: the two conditions are each other's negation, read signed; `blt` and `bge` have an encoding under the same
parameters. -/
theorem branchSignedResults : Obligations.BranchSignedResults := by
  intro s rs1 rs2 o target
  have hblt : .blt rs1 rs2 o ∈ branchesOn rs1 rs2 o := by simp
  have hbge : .bge rs1 rs2 o ∈ branchesOn rs1 rs2 o := by simp
  refine ⟨fun c hwf => ?encoded, ?lt, ?ge⟩
  case encoded =>
    rw [← func3Blt_eq, ← func3Bge_eq]
    exact ⟨decode_encodeB .blt decodeBranch_blt rfl hwf, decode_encodeB .bge decodeBranch_bge rfl hwf⟩
  case lt =>
    intro h
    exact ⟨exec_branch_taken hblt h, exec_branch_not_taken hbge (Int.not_le.2 h)⟩
  case ge =>
    intro h
    exact ⟨exec_branch_not_taken hblt (Int.not_lt.2 h), exec_branch_taken hbge h⟩

end Sys2Proof.Machine
end

section
/-! CERTIFICATE. The encoding (30_encoding.md sections 1 and 4): where the fields of each format stand, and that the decoder and
the encoder are each other's inverse on the words the decoder accepts. -/

namespace Sys2Proof

/-! ## The layouts (30_encoding.md R72 to R77) -/

theorem regBits_toNat (r : Reg) : (regBits r).toNat = r.val := by
  rw [regBits, BitVec.toNat_ofNat]
  exact Nat.mod_eq_of_lt r.isLt

/-- The two parts of the immediate in an S-TYPE word (30_encoding.md R74). -/
theorem encodeS_imm_parts (imm : BitVec 12) (rs2 rs1 : Reg) (func3 : BitVec 3) (op : BitVec 7) :
    (encodeS imm rs2 rs1 func3 op).extractLsb' 25 7 = imm.extractLsb' 5 7 ∧
      (encodeS imm rs2 rs1 func3 op).extractLsb' 7 5 = imm.extractLsb' 0 5 := by
  simp (disch := decide) only [encodeS, BitVec.extractLsb'_append_eq_of_le, BitVec.extractLsb'_append_eq_of_add_le,
    Nat.reduceSub, BitVec.extractLsb'_eq_self, and_self]

/-- The four parts of the offset in an SB-TYPE word (30_encoding.md R75). -/
theorem encodeB_offset_parts (o : BitVec 13) (rs2 rs1 : Reg) (func3 : BitVec 3) (op : BitVec 7) :
    (encodeB o rs2 rs1 func3 op).extractLsb' 31 1 = o.extractLsb' 12 1 ∧
      (encodeB o rs2 rs1 func3 op).extractLsb' 25 6 = o.extractLsb' 5 6 ∧
      (encodeB o rs2 rs1 func3 op).extractLsb' 8 4 = o.extractLsb' 1 4 ∧
      (encodeB o rs2 rs1 func3 op).extractLsb' 7 1 = o.extractLsb' 11 1 := by
  simp (disch := decide) only [encodeB, BitVec.extractLsb'_append_eq_of_le, BitVec.extractLsb'_append_eq_of_add_le,
    Nat.reduceSub, BitVec.extractLsb'_eq_self, and_self]

/-- The four parts of the offset in a UJ-TYPE word (30_encoding.md R77). -/
theorem encodeJ_offset_parts (o : BitVec 21) (rd : Reg) (op : BitVec 7) :
    (encodeJ o rd op).extractLsb' 31 1 = o.extractLsb' 20 1 ∧ (encodeJ o rd op).extractLsb' 21 10 = o.extractLsb' 1 10 ∧
      (encodeJ o rd op).extractLsb' 20 1 = o.extractLsb' 11 1 ∧
      (encodeJ o rd op).extractLsb' 12 8 = o.extractLsb' 12 8 := by
  simp (disch := decide) only [encodeJ, BitVec.extractLsb'_append_eq_of_le, BitVec.extractLsb'_append_eq_of_add_le,
    Nat.reduceSub, BitVec.extractLsb'_eq_self, and_self]

/-- A register number in the field that holds it. -/
theorem toNat_of_eq_regBits {b : BitVec 5} {r : Reg} (h : b = regBits r) : b.toNat = r.val := h ▸ regBits_toNat r

/-- Settles O8: each format is its fields put together from the top bit down, so each field reads back what was put there. -/
theorem formatLayouts : Obligations.FormatLayouts := by
  refine ⟨fun f7 rs2 rs1 rd f3 op => ?R, fun imm rs1 rd f3 op => ?I, fun imm rs2 rs1 f3 op => ?S, fun o rs2 rs1 f3 op => ?SB,
    fun u rd op => ?U, fun o rd op => ?UJ⟩
  case R =>
    obtain ⟨hop, hrd, hf3, hrs1, hrs2, hf7⟩ := encodeR_fields f7 rs2 rs1 rd f3 op
    exact ⟨hf7, toNat_of_eq_regBits hrs2, toNat_of_eq_regBits hrs1, hf3, toNat_of_eq_regBits hrd, hop⟩
  case I =>
    obtain ⟨hop, hrd, hf3, hrs1, himm⟩ := encodeI_fields imm rs1 rd f3 op
    exact ⟨himm, toNat_of_eq_regBits hrs1, hf3, toNat_of_eq_regBits hrd, hop⟩
  case S =>
    obtain ⟨hop, hf3, hrs1, hrs2, -⟩ := encodeS_fields imm rs2 rs1 f3 op
    obtain ⟨hhigh, hlow⟩ := encodeS_imm_parts imm rs2 rs1 f3 op
    exact ⟨hhigh, toNat_of_eq_regBits hrs2, toNat_of_eq_regBits hrs1, hf3, hlow, hop⟩
  case SB =>
    obtain ⟨hop, hf3, hrs1, hrs2, -⟩ := encodeB_fields rs2 rs1 f3 op o
    obtain ⟨h12, h10, h4, h11⟩ := encodeB_offset_parts o rs2 rs1 f3 op
    exact ⟨h12, h10, toNat_of_eq_regBits hrs2, toNat_of_eq_regBits hrs1, hf3, h4, h11, hop⟩
  case U =>
    obtain ⟨hop, hrd, himm⟩ := encodeU_fields u rd op
    exact ⟨himm, toNat_of_eq_regBits hrd, hop⟩
  case UJ =>
    obtain ⟨hop, hrd, -⟩ := encodeJ_fields rd op o
    obtain ⟨h20, h10, h11, h19⟩ := encodeJ_offset_parts o rd op
    exact ⟨h20, h10, h11, h19, toNat_of_eq_regBits hrd, hop⟩

/-! ## A word is its fields, put together in any format that fits its `op` -/

section Assembled

variable (w : Word)

theorem encodeR_of_fields :
    encodeR (func7Field w) (rs2Field w) (rs1Field w) (func3Field w) (rdField w) (opField w) = w := by
  simp (disch := decide) only [encodeR, func7Field, rs2Field, rs1Field, func3Field, rdField, opField, regBits_regOfBits,
    rs2Bits, rs1Bits, rdBits, BitVec.extractLsb'_append_extractLsb'_eq_extractLsb', BitVec.extractLsb'_eq_self]

theorem encodeI_of_fields : encodeI (immIField w) (rs1Field w) (func3Field w) (rdField w) (opField w) = w := by
  simp (disch := decide) only [encodeI, immIField, rs1Field, func3Field, rdField, opField, regBits_regOfBits,
    rs1Bits, rdBits, BitVec.extractLsb'_append_extractLsb'_eq_extractLsb', BitVec.extractLsb'_eq_self]

theorem encodeShift_of_fields :
    encodeShift (func7Field w) (rs2Bits w) (rs1Field w) (func3Field w) (rdField w) (opField w) = w := by
  simp (disch := decide) only [encodeShift, func7Field, rs1Field, func3Field, rdField, opField, regBits_regOfBits,
    rs2Bits, rs1Bits, rdBits, BitVec.extractLsb'_append_extractLsb'_eq_extractLsb', BitVec.extractLsb'_eq_self]

theorem encodeS_of_fields : encodeS (immSField w) (rs2Field w) (rs1Field w) (func3Field w) (opField w) = w := by
  simp (disch := decide) only [encodeS, immSField, rs2Field, rs1Field, func3Field, opField, regBits_regOfBits,
    rs2Bits, rs1Bits, BitVec.extractLsb'_append_eq_of_le, BitVec.extractLsb'_append_eq_of_add_le, Nat.reduceSub,
    BitVec.extractLsb'_eq_self, BitVec.extractLsb'_append_extractLsb'_eq_extractLsb']

theorem encodeB_of_fields : encodeB (immBField w) (rs2Field w) (rs1Field w) (func3Field w) (opField w) = w := by
  simp (disch := decide) only [encodeB, immBField, rs2Field, rs1Field, func3Field, opField, regBits_regOfBits,
    rs2Bits, rs1Bits, BitVec.extractLsb'_append_eq_of_le, BitVec.extractLsb'_append_eq_of_add_le, Nat.reduceSub,
    BitVec.extractLsb'_eq_self, BitVec.extractLsb'_append_extractLsb'_eq_extractLsb']

theorem encodeU_of_fields : encodeU (immUField w) (rdField w) (opField w) = w := by
  simp (disch := decide) only [encodeU, immUField, rdField, opField, regBits_regOfBits, rdBits,
    BitVec.extractLsb'_append_extractLsb'_eq_extractLsb', BitVec.extractLsb'_eq_self]

theorem encodeJ_of_fields : encodeJ (immJField w) (rdField w) (opField w) = w := by
  simp (disch := decide) only [encodeJ, immJField, rdField, opField, regBits_regOfBits, rdBits,
    BitVec.extractLsb'_append_eq_of_le, BitVec.extractLsb'_append_eq_of_add_le, Nat.reduceSub,
    BitVec.extractLsb'_eq_self, BitVec.extractLsb'_append_extractLsb'_eq_extractLsb']

end Assembled

/-! ## What each group of the decoder accepts (30_encoding.md R93 to R102) -/

/-- The word is the encoding of the instruction, whose offset, if it has one, is even. -/
def EvenEncoding (c : Config) (w : Word) (i : Instr) : Prop := i.offsetEven = true ∧ encode c i = w

theorem immBField_even (w : Word) : (!(immBField w).getLsbD 0) = true := by
  rw [immBField_getLsbD w (by decide), if_pos rfl]
  rfl

theorem immJField_even (w : Word) : (!(immJField w).getLsbD 0) = true := by
  rw [immJField_getLsbD w (by decide), if_pos rfl]
  rfl

section Accepts

variable {c : Config} {w : Word} {i : Instr}

section Formats

variable {op : BitVec 7} {func3 : BitVec 3} {func7 : BitVec 7} (hop : opField w = op)

include hop

theorem encodeI_of_func3 (h3 : func3Field w = func3) : encodeI (immIField w) (rs1Field w) func3 (rdField w) op = w := by
  rw [← hop, ← h3, encodeI_of_fields]

theorem encodeS_of_func3 (h3 : func3Field w = func3) : encodeS (immSField w) (rs2Field w) (rs1Field w) func3 op = w := by
  rw [← hop, ← h3, encodeS_of_fields]

theorem encodeB_of_func3 (h3 : func3Field w = func3) : encodeB (immBField w) (rs2Field w) (rs1Field w) func3 op = w := by
  rw [← hop, ← h3, encodeB_of_fields]

theorem encodeShift_of_func (h3 : func3Field w = func3) (h7 : func7Field w = func7) :
    encodeShift func7 (rs2Bits w) (rs1Field w) func3 (rdField w) op = w := by
  rw [← hop, ← h3, ← h7, encodeShift_of_fields]

theorem encodeR_of_func (h3 : func3Field w = func3) (h7 : func7Field w = func7) :
    encodeR func7 (rs2Field w) (rs1Field w) func3 (rdField w) op = w := by
  rw [← hop, ← h3, ← h7, encodeR_of_fields]

theorem encodeU_of_op : encodeU (immUField w) (rdField w) op = w := by rw [← hop, encodeU_of_fields]

theorem encodeJ_of_op : encodeJ (immJField w) (rdField w) op = w := by rw [← hop, encodeJ_of_fields]

end Formats

theorem decodeLoad_evenEncoding (hop : opField w = 3#7) (h : decodeLoad w = .ok i) : EvenEncoding c w i := by
  simp only [decodeLoad] at h
  split_ifs at h with h0 h1 h2 h4 h5 <;> cases h
  · exact ⟨rfl, encodeI_of_func3 hop h0⟩
  · exact ⟨rfl, encodeI_of_func3 hop h1⟩
  · exact ⟨rfl, encodeI_of_func3 hop h2⟩
  · exact ⟨rfl, encodeI_of_func3 hop h4⟩
  · exact ⟨rfl, encodeI_of_func3 hop h5⟩

/-- `func3` 101 is what the other seven tests leave to the right shifts. -/
theorem func3_eq_five {f : BitVec 3} (h0 : f ≠ 0#3) (h1 : f ≠ 1#3) (h2 : f ≠ 2#3) (h3 : f ≠ 3#3) (h4 : f ≠ 4#3)
    (h6 : f ≠ 6#3) (h7 : f ≠ 7#3) : f = 5#3 := by
  bv_omega

theorem decodeOpImm_evenEncoding (hop : opField w = 19#7) (h : decodeOpImm w = .ok i) : EvenEncoding c w i := by
  simp only [decodeOpImm] at h
  split_ifs at h with h0 h2 h3 h4 h6 h7 h1 hslli hsrli hsrai <;> cases h
  · exact ⟨rfl, encodeI_of_func3 hop h0⟩
  · exact ⟨rfl, encodeI_of_func3 hop h2⟩
  · exact ⟨rfl, encodeI_of_func3 hop h3⟩
  · exact ⟨rfl, encodeI_of_func3 hop h4⟩
  · exact ⟨rfl, encodeI_of_func3 hop h6⟩
  · exact ⟨rfl, encodeI_of_func3 hop h7⟩
  · exact ⟨rfl, encodeShift_of_func hop h1 hslli⟩
  · exact ⟨rfl, encodeShift_of_func hop (func3_eq_five h0 h1 h2 h3 h4 h6 h7) hsrli⟩
  · exact ⟨rfl, encodeShift_of_func hop (func3_eq_five h0 h1 h2 h3 h4 h6 h7) hsrai⟩

theorem decodeStore_evenEncoding (hop : opField w = 35#7) (h : decodeStore w = .ok i) : EvenEncoding c w i := by
  simp only [decodeStore] at h
  split_ifs at h with h0 h1 h2 <;> cases h
  · exact ⟨rfl, encodeS_of_func3 hop h0⟩
  · exact ⟨rfl, encodeS_of_func3 hop h1⟩
  · exact ⟨rfl, encodeS_of_func3 hop h2⟩

/-- `func3` 111 is what the other seven tests leave to `and`. -/
theorem func3_eq_seven {f : BitVec 3} (h0 : f ≠ 0#3) (h1 : f ≠ 1#3) (h2 : f ≠ 2#3) (h3 : f ≠ 3#3) (h4 : f ≠ 4#3)
    (h5 : f ≠ 5#3) (h6 : f ≠ 6#3) : f = 7#3 := by
  bv_omega

theorem decodeOp_evenEncoding (hop : opField w = 51#7) (h : decodeOp w = .ok i) : EvenEncoding c w i := by
  simp only [decodeOp] at h
  split_ifs at h with h7 h0 h1 h2 h3 h4 h5 h6 h7' hsub hsra <;> cases h
  · exact ⟨rfl, encodeR_of_func hop h0 h7⟩
  · exact ⟨rfl, encodeR_of_func hop h1 h7⟩
  · exact ⟨rfl, encodeR_of_func hop h2 h7⟩
  · exact ⟨rfl, encodeR_of_func hop h3 h7⟩
  · exact ⟨rfl, encodeR_of_func hop h4 h7⟩
  · exact ⟨rfl, encodeR_of_func hop h5 h7⟩
  · exact ⟨rfl, encodeR_of_func hop h6 h7⟩
  · exact ⟨rfl, encodeR_of_func hop (func3_eq_seven h0 h1 h2 h3 h4 h5 h6) h7⟩
  · exact ⟨rfl, encodeR_of_func hop hsub h7'⟩
  · exact ⟨rfl, encodeR_of_func hop hsra h7'⟩

theorem decodeBranch_evenEncoding (hop : opField w = 99#7) (h : decodeBranch c.branchFunc3 w = .ok i) :
    EvenEncoding c w i := by
  simp only [decodeBranch] at h
  split_ifs at h with hbeq hbne hblt hbge hbltu hbgeu <;> cases h
  · exact ⟨immBField_even w, encodeB_of_func3 hop hbeq⟩
  · exact ⟨immBField_even w, encodeB_of_func3 hop hbne⟩
  · exact ⟨immBField_even w, encodeB_of_func3 hop hblt⟩
  · exact ⟨immBField_even w, encodeB_of_func3 hop hbge⟩
  · exact ⟨immBField_even w, encodeB_of_func3 hop hbltu⟩
  · exact ⟨immBField_even w, encodeB_of_func3 hop hbgeu⟩

theorem encodeFence_of_fields (hop : opField w = 15#7) (h3 : func3Field w = 0#3) :
    encodeFence (w.extractLsb' 28 4) (w.extractLsb' 24 4) (w.extractLsb' 20 4) (rs1Bits w) (rdBits w) = w := by
  rw [encodeFence, ← hop, ← h3]
  simp (disch := decide) only [func3Field, opField, rs1Bits, rdBits,
    BitVec.extractLsb'_append_extractLsb'_eq_extractLsb', BitVec.extractLsb'_eq_self]

theorem decodeFence_evenEncoding (hop : opField w = 15#7) (h : decodeFence w = .ok i) : EvenEncoding c w i := by
  simp only [decodeFence] at h
  split_ifs at h with h0
  cases h
  exact ⟨rfl, encodeFence_of_fields hop h0⟩

theorem decodeSystem_evenEncoding (h : decodeSystem w = .ok i) : EvenEncoding c w i := by
  simp only [decodeSystem] at h
  split_ifs at h with hcall hbreak <;> cases h
  · exact ⟨rfl, hcall.symm⟩
  · exact ⟨rfl, hbreak.symm⟩

theorem decodeJalr_evenEncoding {b : BranchFunc3} (hop : opField w = 103#7) (h : decodeByOp b w = .ok i) :
    EvenEncoding c w i := by
  by_cases h3 : func3Field w = 0#3
  · rw [decodeByOp_jalr hop h3] at h
    cases h
    exact ⟨rfl, encodeI_of_func3 hop h3⟩
  · rw [decodeByOp_jalr_rejects hop h3] at h
    cases h

/-- A word accepted has a listed `op`, and each group, or the row that is alone in its `op`, gives its even encoding. -/
theorem decodeByOp_evenEncoding (h : decodeByOp c.branchFunc3 w = .ok i) : EvenEncoding c w i := by
  have hlisted : opField w ∈ listedOps := by
    by_contra hnot
    rw [decodeByOp_unlisted hnot] at h
    cases h
  simp only [listedOps, List.mem_cons, List.not_mem_nil, or_false] at hlisted
  obtain hop | hop | hop | hop | hop | hop | hop | hop | hop | hop | hop := hlisted
  · exact decodeLoad_evenEncoding hop (decodeByOp_load hop ▸ h)
  · exact decodeOpImm_evenEncoding hop (decodeByOp_opImm hop ▸ h)
  · rw [decodeByOp_auipc hop] at h
    cases h
    exact ⟨rfl, encodeU_of_op hop⟩
  · exact decodeStore_evenEncoding hop (decodeByOp_store hop ▸ h)
  · exact decodeOp_evenEncoding hop (decodeByOp_op hop ▸ h)
  · rw [decodeByOp_lui hop] at h
    cases h
    exact ⟨rfl, encodeU_of_op hop⟩
  · exact decodeBranch_evenEncoding hop (decodeByOp_branch hop ▸ h)
  · exact decodeJalr_evenEncoding hop h
  · rw [decodeByOp_jal hop] at h
    cases h
    exact ⟨immJField_even w, encodeJ_of_op hop⟩
  · exact decodeFence_evenEncoding hop (decodeByOp_fence hop ▸ h)
  · exact decodeSystem_evenEncoding (decodeByOp_system hop ▸ h)

/-- A word the decoder accepts is the encoding of what it gives, which is well-formed. -/
theorem wf_and_encode_of_decode (h : decode c w = .ok i) : i.wf c = true ∧ encode c i = w := by
  obtain ⟨hbyOp, hadm, hreg⟩ := decode_ok h
  obtain ⟨heven, henc⟩ := decodeByOp_evenEncoding hbyOp
  exact ⟨by simp [Instr.wf, hreg, heven, hadm], henc⟩

end Accepts

end Sys2Proof

namespace Sys2Proof.Machine

/-! ## The encoder's words (30_encoding.md R93 to R102) -/

/-- Decoding the encoding of a well-formed instruction gives the instruction back: each row has its own word. -/
theorem decode_encode {c : Config} {i : Instr} (h : i.wf c = true) : decode c (encode c i) = .ok i := by
  cases i
  case lb rd imm rs1 => exact encodedAs_load .lb decodeLoad_lb rd rs1 imm c h
  case lh rd imm rs1 => exact encodedAs_load .lh decodeLoad_lh rd rs1 imm c h
  case lw rd imm rs1 => exact encodedAs_load .lw decodeLoad_lw rd rs1 imm c h
  case lbu rd imm rs1 => exact encodedAs_load .lbu decodeLoad_lbu rd rs1 imm c h
  case lhu rd imm rs1 => exact encodedAs_load .lhu decodeLoad_lhu rd rs1 imm c h
  case addi rd rs1 imm => exact encodedAs_opImm .addi decodeOpImm_addi rd rs1 imm c h
  case slli rd rs1 uimm => exact encodedAs_shiftImm .slli decodeOpImm_slli rd rs1 uimm c h
  case slti rd rs1 imm => exact encodedAs_opImm .slti decodeOpImm_slti rd rs1 imm c h
  case sltiu rd rs1 imm => exact encodedAs_opImm .sltiu decodeOpImm_sltiu rd rs1 imm c h
  case xori rd rs1 imm => exact encodedAs_opImm .xori decodeOpImm_xori rd rs1 imm c h
  case srli rd rs1 uimm => exact encodedAs_shiftImm .srli decodeOpImm_srli rd rs1 uimm c h
  case srai rd rs1 uimm => exact encodedAs_shiftImm .srai decodeOpImm_srai rd rs1 uimm c h
  case ori rd rs1 imm => exact encodedAs_opImm .ori decodeOpImm_ori rd rs1 imm c h
  case andi rd rs1 imm => exact encodedAs_opImm .andi decodeOpImm_andi rd rs1 imm c h
  case auipc rd upimm => exact encodedAs_auipc rd upimm c h
  case sb rs2 imm rs1 => exact encodedAs_store .sb decodeStore_sb rs2 rs1 imm c h
  case sh rs2 imm rs1 => exact encodedAs_store .sh decodeStore_sh rs2 rs1 imm c h
  case sw rs2 imm rs1 => exact encodedAs_store .sw decodeStore_sw rs2 rs1 imm c h
  case add rd rs1 rs2 => exact encodedAs_op .add decodeOp_add rd rs1 rs2 c h
  case sub rd rs1 rs2 => exact encodedAs_op .sub decodeOp_sub rd rs1 rs2 c h
  case sll rd rs1 rs2 => exact encodedAs_op .sll decodeOp_sll rd rs1 rs2 c h
  case slt rd rs1 rs2 => exact encodedAs_op .slt decodeOp_slt rd rs1 rs2 c h
  case sltu rd rs1 rs2 => exact encodedAs_op .sltu decodeOp_sltu rd rs1 rs2 c h
  case xor rd rs1 rs2 => exact encodedAs_op .xor decodeOp_xor rd rs1 rs2 c h
  case srl rd rs1 rs2 => exact encodedAs_op .srl decodeOp_srl rd rs1 rs2 c h
  case sra rd rs1 rs2 => exact encodedAs_op .sra decodeOp_sra rd rs1 rs2 c h
  case or rd rs1 rs2 => exact encodedAs_op .or decodeOp_or rd rs1 rs2 c h
  case and rd rs1 rs2 => exact encodedAs_op .and decodeOp_and rd rs1 rs2 c h
  case lui rd upimm => exact encodedAs_lui rd upimm c h
  case beq => exact decode_encodeB .beq decodeBranch_beq rfl h
  case bne => exact decode_encodeB .bne decodeBranch_bne rfl h
  case blt => exact decode_encodeB .blt decodeBranch_blt rfl h
  case bge => exact decode_encodeB .bge decodeBranch_bge rfl h
  case bltu => exact decode_encodeB .bltu decodeBranch_bltu rfl h
  case bgeu => exact decode_encodeB .bgeu decodeBranch_bgeu rfl h
  case jalr rd rs1 imm => exact encodedAs_jalr rd rs1 imm c h
  case jal rd o => exact encodedAs_jal rd o c h
  case fence fm pred succ rs1 rd => exact encodedAs_fence fm pred succ rs1 rd c h
  case ecall => exact encodedAs_ecall c h
  case ebreak => exact encodedAs_ebreak c h

theorem decode_of_encode_eq {c : Config} {w : Word} {i : Instr} (hwf : i.wf c = true) (hw : encode c i = w) :
    decode c w = .ok i := hw ▸ decode_encode hwf

/-! ## The statements -/

/-- Settles O5: the decoder inverts the encoder row by row, and the four bytes of a word are the word. -/
theorem decodeOfEncode : Obligations.DecodeOfEncode := by
  intro c i hwf
  refine ⟨decode_encode hwf, ?bytes⟩
  case bytes =>
    rw [decodeBytes_bytesOfWord, decode_encode hwf]
    rfl

/-- Settles O6: what the decoder tests and what it reads are together all bits of the word. -/
theorem encodeOfDecode : Obligations.EncodeOfDecode := fun _ _ _ => wf_and_encode_of_decode

/-- Settles O7: each word is the encoding of its instruction under the default parameters. -/
theorem sampleWordsDecode : Obligations.SampleWordsDecode :=
  ⟨decode_of_encode_eq (by decide) (by decide), decode_of_encode_eq (by decide) (by decide),
    decode_of_encode_eq (by decide) (by decide), decode_of_encode_eq (by decide) (by decide),
    decode_of_encode_eq (by decide) (by decide), decode_of_encode_eq (by decide) (by decide),
    decode_of_encode_eq (by decide) (by decide)⟩

end Sys2Proof.Machine
end

section
/-! CERTIFICATE. The start state (70_reset_and_hazards.md R240) and the invariant: it holds at every legal start state, and every
step keeps it (10_state.md R26, R32, R35). -/

namespace Sys2Proof.Machine

/-! ## The invariant, in parts -/

theorem inv_iff (s : State) :
    s.inv = true ↔ s.pc.toNat % 4 = 0 ∧ s.mem.wf = true ∧ s.stored.wf = true ∧ (∀ c ∈ s.mem, validAt s.cfg c.1 = true) ∧
      ∀ a ∈ s.stored, validAt s.cfg a = true := by
  simp only [State.inv, Bool.and_eq_true, beq_iff_eq, List.all_eq_true, and_assoc]

/-- The invariant looks at `pc`, memory, the record and the parameters only. -/
theorem inv_of_same_memory {s t : State} (h : s.inv = true) (h4 : t.pc.toNat % 4 = 0) (hmem : t.mem = s.mem)
    (hstored : t.stored = s.stored) (hcfg : t.cfg = s.cfg) : t.inv = true := by
  obtain ⟨-, hrest⟩ := (inv_iff s).1 h
  rw [inv_iff, hmem, hstored, hcfg]
  exact ⟨h4, hrest⟩

/-! ## Start states -/

theorem resetPc_aligned {c : Config} (h : c.wf = true) : c.resetPc.toNat % 4 = 0 := by
  simp only [Config.wf, Bool.and_eq_true, beq_iff_eq] at h
  exact h.1

theorem start_inv {c : Config} {mem : Memory} (regs : Vector Word 31) (hc : c.wf = true) (hm : mem.wf = true)
    (hv : ∀ cell ∈ mem, validAt c cell.1 = true) : (State.start c regs mem).inv = true :=
  (inv_iff _).2 ⟨resetPc_aligned hc, hm, rfl, hv, fun _ ha => nomatch ha⟩

/-- `x1` to `x31` are the given values, in order (10_state.md R34). -/
theorem start_reg_succ (c : Config) (regs : Vector Word 31) (mem : Memory) (k : Fin 31) :
    (State.start c regs mem).reg k.succ = regs.get k := by
  rw [reg_of_ne_zero _ _ (by simp)]
  rfl

/-! ## What an instruction keeps -/

theorem storeBytes_inv {s : State} {addr : Word} {bs : List Byte} (h : s.inv = true) (hv : InMemory s addr bs.length) :
    (s.storeBytes addr bs).inv = true := by
  obtain ⟨h4, hmem, hstored, hcells, hrecord⟩ := (inv_iff s).1 h
  rw [inv_iff, storeBytes_pc, storeBytes_cfg]
  refine ⟨h4, storeBytes_mem_wf s addr bs hmem, storeBytes_stored_wf s addr bs hstored, fun c hc => ?cells, fun a ha => ?record⟩
  case cells =>
    obtain ⟨i, hi, hci⟩ | hold := storeBytes_mem_cell s addr bs hc
    · exact hci ▸ hv i hi
    · exact hcells c hold
  case record =>
    obtain hold | ⟨i, hi, rfl⟩ := (storeBytes_stored s addr bs a).1 ha
    · exact hrecord a hold
    · exact hv i hi

/-- An instruction leaves memory alone or stores bytes that it has checked to be in `MEM_VALID`. -/
theorem effect_inv {i : Instr} {s t : State} (he : Effect i s t) (h : s.inv = true) : t.inv = true := by
  obtain ⟨h4, -⟩ := (inv_iff s).1 h
  have ht4 := effect_pc_aligned he h4
  cases he with
  | writes | advances | branches | links => exact inv_of_same_memory h ht4 rfl rfl rfl
  | stores w addr v hv =>
    exact inv_of_same_memory (storeBytes_inv h (valueBytes_length w v ▸ hv)) ht4 rfl rfl rfl

theorem step_inv {s t : State} (h : s.inv = true) (hs : step s = .next t) : t.inv = true := by
  obtain ⟨_, _, he⟩ := step_effect hs
  exact effect_inv he h

/-! ## The statements -/

/-- Settles O1: the start state is made of the given values; `x0` is none of them. -/
theorem startStateFollowsReset : Obligations.StartStateFollowsReset := by
  intro c regs mem hc
  exact ⟨start_pc c regs mem, resetPc_aligned hc, reg_zero _, start_reg_succ c regs mem, fun _ _ => rfl⟩

/-- Settles O2: `State.reset` is the start state of the default parameters with no byte listed. -/
theorem resetSatisfiesInvariant : Obligations.ResetSatisfiesInvariant :=
  ⟨start_inv _ (by decide) rfl (fun _ hc => nomatch hc), fun _ regs _ => start_inv regs⟩

/-- Settles O3: `pc` goes to a checked address, and the bytes stored are put in order and have been checked. -/
theorem stepKeepsInvariant : Obligations.StepKeepsInvariant := fun _ _ => step_inv

end Sys2Proof.Machine
end

section
/-! CERTIFICATE. Reads inside a word that was written (20_memory.md section 2). -/

namespace Sys2Proof

/-- A value is its bytes. -/
theorem eq_of_bytes_eq {n : Nat} {x y : BitVec (8 * n)} (h : ∀ i < n, x.extractLsb' (8 * i) 8 = y.extractLsb' (8 * i) 8) :
    x = y := by
  apply BitVec.eq_of_getLsbD_eq
  intro j hj
  have hbit := congrArg (BitVec.getLsbD · (j % 8)) (h (j / 8) (by omega))
  simpa [show j % 8 < 8 by omega, show 8 * (j / 8) + j % 8 = j by omega] using hbit

/-- A byte of a part of a word is a byte of the word. -/
theorem extractLsb'_byte_of_part (x : Word) {start len a : Nat} (h : a + 8 ≤ len) :
    (x.extractLsb' start len).extractLsb' a 8 = x.extractLsb' (start + a) 8 := by
  apply BitVec.eq_of_getLsbD_eq
  intro j hj
  simp [hj, show a + j < len by omega, Nat.add_assoc]

end Sys2Proof

namespace Sys2Proof.Machine

theorem bits_eq_bytes (w : Width) : w.bits = 8 * w.bytes := by cases w <;> rfl

theorem value_eq_of_bytes_eq {w : Width} {x y : BitVec w.bits}
    (h : ∀ i < w.bytes, x.extractLsb' (8 * i) 8 = y.extractLsb' (8 * i) 8) : x = y := by
  cases w <;> exact eq_of_bytes_eq h

theorem nthByte_add (addr : Word) (k i : Nat) : nthByte (addr + BitVec.ofNat 32 k) i = nthByte addr (k + i) := by
  simp only [nthByte, BitVec.toNat_add, BitVec.toNat_ofNat]
  omega

/-- A part of an aligned word that starts at a multiple of its own size is aligned (20_memory.md R43). -/
theorem alignmentOk_inside_word {s : State} {addr : Word} {w : Width} {k : Nat} (h : AlignmentOk s addr 4)
    (hk : k % w.bytes = 0) : AlignmentOk s (addr + BitVec.ofNat 32 k) w.bytes := by
  intro hfault
  have h4 := h hfault
  rw [BitVec.toNat_add, BitVec.toNat_ofNat]
  cases w <;> simp only [Width.bytes] at hk ⊢ <;> omega

/-- After a word is written, a read of any width at a multiple of its size inside the word gives the bits that stand there. -/
theorem memRead_inside_written_word {s t : State} {addr v : Word} (h : memWrite s .word addr v = .ok t) {w : Width} {k : Nat}
    (hk : k % w.bytes = 0) (hin : k + w.bytes ≤ 4) :
    memRead t w (addr + BitVec.ofNat 32 k) = .ok (v.extractLsb' (8 * k) w.bits) := by
  obtain ⟨ha, hv, rfl⟩ := memWrite_ok h
  have hcfg : (s.storeBytes addr (valueBytes .word v)).cfg = s.cfg := storeBytes_cfg ..
  have halign : AlignmentOk (s.storeBytes addr (valueBytes .word v)) addr 4 := fun hf => ha (hcfg ▸ hf)
  have hinside : InMemory (s.storeBytes addr (valueBytes .word v)) (addr + BitVec.ofNat 32 k) w.bytes := by
    intro i hi
    rw [hcfg, nthByte_add]
    exact hv (k + i) (show k + i < 4 by omega)
  rw [memRead_of_ok (alignmentOk_inside_word halign hk) hinside]
  refine congrArg _ (value_eq_of_bytes_eq fun i hi => ?_)
  have hbyte : k + i < Width.bytes .word := show k + i < 4 by omega
  have hbits := bits_eq_bytes w
  rw [valueAt_extract _ _ w hi, nthByte_add, storeBytes_valueBytes_byteAt s addr .word v hbyte,
    extractLsb'_byte_of_part v (by omega), Nat.mul_add]

/-- Settles O16: each of the seven reads is at a multiple of its own size inside the word. -/
theorem mixedWidthAccesses : Obligations.MixedWidthAccesses := by
  intro s t a v h
  have hstart : a + BitVec.ofNat 32 0 = a := BitVec.add_zero a
  have hword : v.extractLsb' 0 32 = v := BitVec.extractLsb'_eq_self
  have hbyte : memRead t .byte (a + BitVec.ofNat 32 0) = .ok (v.extractLsb' 0 8) :=
    memRead_inside_written_word h (w := .byte) (k := 0) rfl (by decide)
  have hhalf : memRead t .half (a + BitVec.ofNat 32 0) = .ok (v.extractLsb' 0 16) :=
    memRead_inside_written_word h (w := .half) (k := 0) rfl (by decide)
  have hall : memRead t .word (a + BitVec.ofNat 32 0) = .ok (v.extractLsb' 0 32) :=
    memRead_inside_written_word h (w := .word) (k := 0) rfl (by decide)
  rw [hstart] at hbyte hhalf hall
  rw [hword] at hall
  exact ⟨hbyte, memRead_inside_written_word h (w := .byte) (k := 1) rfl (by decide),
    memRead_inside_written_word h (w := .byte) (k := 2) rfl (by decide),
    memRead_inside_written_word h (w := .byte) (k := 3) rfl (by decide), hhalf,
    memRead_inside_written_word h (w := .half) (k := 2) rfl (by decide), hall⟩

end Sys2Proof.Machine
end

section
/-! CERTIFICATE. The step (70_reset_and_hazards.md R245) and its exceptions (60_exceptions.md): its two outcomes, what each
instruction raises (R212), in which order (R215), and the codes (R210). -/

namespace Sys2Proof.Machine

/-! ## An instruction, and a step, answer a next state or a fault (60_exceptions.md R225) -/

/-- The outcome is a next state or a fault, no refusal. -/
def Answers (x : Result) : Prop := (∃ t, x = .next t) ∨ ∃ f, x = .fault f

theorem answers_next (t : State) : Answers (.next t) := .inl ⟨t, rfl⟩

theorem answers_fault (f : Fault) : Answers (.fault f) := .inr ⟨f, rfl⟩

theorem load_answers (w : Width) (ext : BitVec w.bits → Word) (rd : Reg) (imm : BitVec 12) (rs1 : Reg) (s : State) :
    Answers (load w ext rd imm rs1 s) := by
  unfold load
  split
  · exact answers_fault _
  · exact answers_next _

theorem store_answers (w : Width) (rs2 : Reg) (imm : BitVec 12) (rs1 : Reg) (s : State) :
    Answers (store w rs2 imm rs1 s) := by
  unfold store
  split
  · exact answers_fault _
  · exact answers_next _

theorem branch_answers (cond : Bool) (offset : BitVec 13) (s : State) : Answers (branch cond offset s) := by
  unfold branch
  split
  · dsimp only
    split
    · exact answers_fault _
    · exact answers_next _
  · exact answers_next _

theorem jump_answers (rd : Reg) (target : Word) (s : State) : Answers (jump rd target s) := by
  unfold jump
  split
  · exact answers_fault _
  · exact answers_next _

/-- No instruction is refused. -/
theorem exec_answers (i : Instr) (s : State) : Answers (exec i s) := by
  cases i
  case lb | lh | lw | lbu | lhu => exact load_answers ..
  case sb | sh | sw => exact store_answers ..
  case beq | bne | blt | bge | bltu | bgeu => exact branch_answers ..
  case jalr | jal => exact jump_answers ..
  case ecall | ebreak => exact answers_fault _
  all_goals exact answers_next _

theorem step_answers (s : State) : Answers (step s) := by
  obtain ⟨f, -, hs⟩ | ⟨w, _, -, -, hs⟩ | ⟨_, i, -, -, hs⟩ := step_cases s
  · exact hs ▸ answers_fault f
  · exact hs ▸ answers_fault _
  · exact hs ▸ exec_answers i s

/-! ## When a shared form raises -/

section Forms

variable {s : State} {f : Fault}

theorem load_fault_iff {w : Width} {ext : BitVec w.bits → Word} {rd rs1 : Reg} {imm : BitVec 12} :
    load w ext rd imm rs1 s = .fault f ↔
      AccessRaises s (plusSigned (s.reg rs1) imm.toInt) w.bytes (.loadAddressMisaligned (plusSigned (s.reg rs1) imm.toInt))
        (.loadAccessFault (plusSigned (s.reg rs1) imm.toInt)) f := by
  constructor
  · intro h
    rw [load, loadAddress_eq] at h
    split at h
    · next e he =>
      cases h
      exact memRead_error he
    · cases h
  · rintro (⟨rfl, ha⟩ | ⟨rfl, ha, hv⟩)
    · exact load_of_misaligned ha
    · exact load_of_outside ha hv

theorem store_fault_iff {w : Width} {rs2 rs1 : Reg} {imm : BitVec 12} :
    store w rs2 imm rs1 s = .fault f ↔
      AccessRaises s (plusSigned (s.reg rs1) imm.toInt) w.bytes (.storeAddressMisaligned (plusSigned (s.reg rs1) imm.toInt))
        (.storeAccessFault (plusSigned (s.reg rs1) imm.toInt)) f := by
  constructor
  · intro h
    rw [store, storeAddress_eq] at h
    split at h
    · next e he =>
      cases h
      exact memWrite_error he
    · cases h
  · rintro (⟨rfl, ha⟩ | ⟨rfl, ha, hv⟩)
    · exact store_of_misaligned ha
    · exact store_of_outside ha hv

/-- A byte access is always aligned, so it raises the access fault alone (20_memory.md R43). -/
theorem byte_accessRaises_iff {addr : Word} {misaligned access : Fault} :
    AccessRaises s addr 1 misaligned access f ↔ f = access ∧ ¬ InMemory s addr 1 := by
  simp [AccessRaises, byte_alignmentOk]

theorem jump_fault_iff {rd : Reg} {target : Word} :
    jump rd target s = .fault f ↔ target.toNat % 4 ≠ 0 ∧ f = .instructionAddressMisaligned target := by
  by_cases h4 : target.toNat % 4 = 0
  · obtain ⟨t, ht, -⟩ := jump_completes (s := s) (rd := rd) h4
    simp [ht, h4]
  · simp [jump_of_misaligned h4, h4, eq_comm]

/-- A branch raises exactly when it is taken and, from an aligned `pc`, bit 1 of its even offset is set (46_branches.md R181). -/
theorem branch_fault_iff {cond : Bool} {o : BitVec 13} {p : Prop} (hpc : s.pc.toNat % 4 = 0) (h0 : (!o.getLsbD 0) = true)
    (hcond : cond = true ↔ p) :
    branch cond o s = .fault f ↔ p ∧ TargetRaises (plusSigned s.pc o.toInt) (o.getLsbD 1) f := by
  rw [← hcond, TargetRaises, ← plusSigned_misaligned_iff (by decide) hpc (by simpa using h0), ← branchTarget_eq]
  cases cond with
  | false => simp [branch_not_taken]
  | true =>
    by_cases h4 : (branchTarget s o).toNat % 4 = 0
    · simp [branch_of_aligned h4, h4]
    · simp [branch_of_misaligned h4, h4, eq_comm]

end Forms

/-- The table of 60_exceptions.md R212. -/
theorem exec_fault_iff {i : Instr} {s : State} {f : Fault} (hpc : s.pc.toNat % 4 = 0) (h0 : i.offsetEven = true) :
    exec i s = .fault f ↔ Raises s f i := by
  cases i
  case lb | lbu => exact (load_fault_iff (w := .byte)).trans byte_accessRaises_iff
  case lh | lhu => exact load_fault_iff (w := .half)
  case lw => exact load_fault_iff (w := .word)
  case sb => exact (store_fault_iff (w := .byte)).trans byte_accessRaises_iff
  case sh => exact store_fault_iff (w := .half)
  case sw => exact store_fault_iff (w := .word)
  case beq => exact branch_fault_iff hpc h0 (by simp)
  case bne => exact branch_fault_iff hpc h0 (by simp)
  case blt => exact branch_fault_iff hpc h0 (lessSigned_iff _ _)
  case bge => exact branch_fault_iff hpc h0 (by simp [lessSigned])
  case bltu => exact branch_fault_iff hpc h0 (lessUnsigned_iff _ _)
  case bgeu => exact branch_fault_iff hpc h0 (by simp [lessUnsigned])
  case jalr rd rs1 imm =>
    rw [Raises, ← jalrTarget_eq]
    exact jump_fault_iff
  case jal rd o =>
    rw [Raises, TargetRaises, ← plusSigned_misaligned_iff (by decide) hpc (by simpa [Instr.offsetEven] using h0),
      ← jumpTarget_eq]
    exact jump_fault_iff
  case ecall => simp [exec_ecall, Raises, eq_comm]
  case ebreak => simp [exec_ebreak, Raises, eq_comm]
  all_goals exact ⟨fun h => (nomatch h), False.elim⟩

/-! ## When a step raises -/

theorem fetch_error {s : State} {f : Fault} (h : fetch s = .error f) :
    f ∈ [Fault.instructionAddressMisaligned s.pc, .instructionAccessFault s.pc, .fetchAfterStore s.pc] := by
  unfold fetch at h
  split_ifs at h <;> cases h <;> simp

/-- The instruction that a step decodes raises as the table says: `pc` has passed the fetch, and the decoder gives even
offsets. -/
theorem exec_fault_iff_of_decoded {s : State} {w : Word} {i : Instr} {f : Fault} (hf : fetch s = .ok w)
    (hd : decode s.cfg w = .ok i) : exec i s = .fault f ↔ Raises s f i := by
  obtain ⟨hpc, -⟩ := fetch_ok hf
  obtain ⟨hwf, -⟩ := wf_and_encode_of_decode hd
  exact exec_fault_iff hpc (offsetEven_of_wf hwf)

theorem step_of_raises {s : State} {w : Word} {i : Instr} {f : Fault} (hf : fetch s = .ok w) (hd : decode s.cfg w = .ok i)
    (hr : Raises s f i) : step s = .fault f :=
  (step_of_decode_ok hf hd).trans ((exec_fault_iff_of_decoded hf hd).2 hr)

theorem step_of_no_instr {s : State} {w : Word} (hf : fetch s = .ok w) (hnone : ∀ i, decode s.cfg w ≠ .ok i) :
    step s = .fault (.illegalInstruction w) := by
  cases hd : decode s.cfg w with
  | error e => exact step_of_decode_error hf hd
  | ok i => exact absurd hd (hnone i)

/-- Where the fault of a step comes from. -/
theorem step_fault {s : State} {f : Fault} (h : step s = .fault f) :
    fetch s = .error f ∨ (∃ w, fetch s = .ok w ∧ (∀ i, decode s.cfg w ≠ .ok i) ∧ f = .illegalInstruction w) ∨
      (∃ w i, fetch s = .ok w ∧ decode s.cfg w = .ok i ∧ Raises s f i) := by
  obtain ⟨g, hg, hs⟩ | ⟨w, e, hf, hd, hs⟩ | ⟨w, i, hf, hd, hs⟩ := step_cases s <;> rw [hs] at h
  · cases h
    exact .inl hg
  · cases h
    exact .inr (.inl ⟨w, hf, by simp [hd], rfl⟩)
  · exact .inr (.inr ⟨w, i, hf, hd, (exec_fault_iff_of_decoded hf hd).1 h⟩)

/-- The bytes at `pc`, decoded, are the word that a fetch reads, decoded (20_memory.md R46). -/
theorem decode_instAt_of_decodeBytes {s : State} {c : Config} {i : Instr}
    (h : decodeBytes c ((List.range 4).map (fun k => s.byteAt (nthByte s.pc k))) = .ok (i, [])) :
    decode c (s.instAt s.pc) = .ok i := by
  have hword : decodeBytes c ((List.range 4).map (fun k => s.byteAt (nthByte s.pc k))) =
      (decode c (s.instAt s.pc)).map (fun i => (i, [])) := by
    simp only [State.instAt, byteAddr_eq]
    rw [show List.range 4 = [0, 1, 2, 3] from rfl]
    simp only [List.map_cons, List.map_nil, decodeBytes]
    cases decode c _ <;> rfl
  rw [hword] at h
  cases hd : decode c (s.instAt s.pc) with
  | error e => simp [hd, Except.map] at h
  | ok j => simpa [hd, Except.map] using h

/-! ## The statements -/

/-- Settles O20: the fetch, the decoder and the instruction decide in turn. -/
theorem stepRunsDecodedInstruction : Obligations.StepRunsDecodedInstruction := by
  refine fun s => ⟨fun f => step_of_fetch_error, fun w => step_of_no_instr, fun h4 hv hs i hd => ?decoded⟩
  case decoded => exact step_of_decode_ok (fetch_of_ok h4 hv hs) (decode_instAt_of_decodeBytes hd)

/-- Settles O22: each shared form raises as the table says, and a step raises what its fetch, its decoder or its instruction
raises. -/
theorem exceptionsOfEachInstruction : Obligations.ExceptionsOfEachInstruction := by
  refine ⟨fun i s f => exec_fault_iff, fun s f h => ?sources⟩
  case sources => exact (step_fault h).imp_left fun hf => ⟨hf, fetch_error hf⟩

/-- Settles O23: the fetch is first, in its own order, then the decoder; no instruction that raises a target's exception, `ecall`
or `ebreak` accesses data, and an access checks alignment first. -/
theorem exceptionPriority : Obligations.ExceptionPriority := by
  refine fun s => ⟨fun h4 => step_of_fetch_error (fetch_of_misaligned h4),
    fun h4 hv => step_of_fetch_error (fetch_of_outside h4 hv),
    fun h4 hv hs => step_of_fetch_error (fetch_of_stored h4 hv hs), fun w => step_of_no_instr,
    fun w hf => ⟨fun hd => step_of_raises hf hd rfl, fun hd => step_of_raises hf hd rfl, ?branch, ?jal, ?jalr, ?data⟩⟩
  case branch =>
    intro i rs1 rs2 o hd ht hi h4
    exact (step_of_decode_ok hf hd).trans (exec_branch_misaligned hi ht h4)
  case jal =>
    intro rd o hd h4
    rw [← jumpTarget_eq] at h4 ⊢
    exact (step_of_decode_ok hf hd).trans (jump_of_misaligned h4)
  case jalr =>
    intro rd rs1 imm hd h4
    exact step_of_raises hf hd ⟨h4, rfl⟩
  case data =>
    intro i rd rs1 imm hd a
    refine ⟨?lhMisaligned, ?lhOutside, ?lwMisaligned, ?lwOutside, ?lbOutside, ?shMisaligned, ?shOutside, ?swMisaligned,
      ?swOutside, ?sbOutside⟩
    case lhMisaligned => rintro (rfl | rfl) ha <;> exact step_of_raises hf hd (.inl ⟨rfl, ha⟩)
    case lhOutside => rintro (rfl | rfl) ha hv <;> exact step_of_raises hf hd (.inr ⟨rfl, ha, hv⟩)
    case lwMisaligned | shMisaligned | swMisaligned =>
      rintro rfl ha
      exact step_of_raises hf hd (.inl ⟨rfl, ha⟩)
    case lwOutside | shOutside | swOutside =>
      rintro rfl ha hv
      exact step_of_raises hf hd (.inr ⟨rfl, ha, hv⟩)
    case lbOutside => rintro (rfl | rfl) hv <;> exact step_of_raises hf hd ⟨rfl, hv⟩
    case sbOutside =>
      rintro rfl hv
      exact step_of_raises hf hd ⟨rfl, hv⟩

/-- Settles O24: one code for each exception, by definition. -/
theorem exceptionCodes : Obligations.ExceptionCodes := fun _ => rfl

end Sys2Proof.Machine
end

section
/-! CERTIFICATE. The end of a run (70_reset_and_hazards.md R242): at its first fault, normally at `ecall`, and for good. -/

namespace Sys2Proof.Machine

theorem run_of_step_next {s t : State} (h : step s = .next t) (k : Nat) : run (k + 1) s = run k t := by
  simp [run, h]

/-- A run has ended exactly when one of its steps, reached in fewer, has raised. -/
theorem run_ended_iff {k : Nat} {s t : State} {f : Fault} :
    run k s = .ended t f ↔ ∃ j < k, run j s = .running t ∧ step t = .fault f := by
  induction k generalizing s with
  | zero => simp [run]
  | succ k ih =>
    obtain ⟨u, hu⟩ | ⟨g, hg⟩ := step_answers s
    · rw [run_of_step_next hu, ih]
      constructor
      · rintro ⟨j, hj, hrun, ht⟩
        exact ⟨j + 1, by omega, (run_of_step_next hu j).trans hrun, ht⟩
      · rintro ⟨j, hj, hrun, ht⟩
        cases j with
        | zero =>
          cases hrun
          rw [hu] at ht
          cases ht
        | succ j => exact ⟨j, by omega, run_of_step_next hu j ▸ hrun, ht⟩
    · rw [run_of_step_fault hg]
      constructor
      · intro h
        cases h
        exact ⟨0, by omega, rfl, hg⟩
      · rintro ⟨j, -, hrun, ht⟩
        cases j with
        | zero =>
          cases hrun
          rw [hg] at ht
          cases ht
          rfl
        | succ j =>
          rw [run_of_step_fault hg] at hrun
          cases hrun

/-- A run that no step ends is still going after any number of steps. -/
theorem run_running_of_no_fault {s : State} (h : ∀ j t, run j s = .running t → ∀ f, step t ≠ .fault f) (k : Nat) :
    ∃ t, run k s = .running t := by
  induction k generalizing s with
  | zero => exact ⟨s, rfl⟩
  | succ k ih =>
    obtain ⟨u, hu⟩ | ⟨f, hf⟩ := step_answers s
    · rw [run_of_step_next hu]
      exact ih fun j t hrun => h (j + 1) t ((run_of_step_next hu j).trans hrun)
    · exact absurd hf (h 0 s rfl f)

theorem isNormalEnd_iff (f : Fault) : isNormalEnd f = true ↔ ∃ pc, f = .environmentCall pc := by
  cases f <;> simp [isNormalEnd]

/-- Only `ecall` raises `EnvironmentCall` (60_exceptions.md R212). -/
theorem raises_environmentCall {s : State} {pc : Word} {i : Instr} (h : Raises s (.environmentCall pc) i) : i = .ecall := by
  cases i
  case ecall => rfl
  all_goals simp [Raises, AccessRaises, TargetRaises] at h

/-- A step ends a run normally exactly when it executes `ecall`. -/
theorem step_normal_end_iff {s : State} {f : Fault} (h : step s = .fault f) :
    isNormalEnd f = true ↔ ∃ w, fetch s = .ok w ∧ decode s.cfg w = .ok .ecall := by
  rw [isNormalEnd_iff]
  constructor
  · rintro ⟨pc, rfl⟩
    obtain hf | ⟨w, -, -, hill⟩ | ⟨w, i, hf, hd, hr⟩ := step_fault h
    · simpa using fetch_error hf
    · cases hill
    · exact ⟨w, hf, raises_environmentCall hr ▸ hd⟩
  · rintro ⟨w, hf, hd⟩
    rw [step_of_raises hf hd rfl] at h
    cases h
    exact ⟨_, rfl⟩

/-! ## The statements -/

/-- Settles O21: no part of a step refuses, and the step that ends a run ends every longer one. -/
theorem stepHasTwoOutcomes : Obligations.StepHasTwoOutcomes := by
  refine ⟨step_answers, fun k m s t f h => ?stays⟩
  case stays =>
    obtain ⟨j, hj, hrun, ht⟩ := run_ended_iff.1 h
    exact run_ended_iff.2 ⟨j, by omega, hrun, ht⟩

/-- Settles O25: by induction over the steps of the run; the fault of the last one says whether it was `ecall`. -/
theorem runEndsAtFirstFault : Obligations.RunEndsAtFirstFault := by
  refine ⟨fun k s t f => run_ended_iff, fun k s t f h => ?normal, fun s => run_running_of_no_fault⟩
  case normal =>
    obtain ⟨j, -, -, ht⟩ := run_ended_iff.1 h
    exact step_normal_end_iff ht

end Sys2Proof.Machine
end

section
/-! CERTIFICATE. What an instruction leaves alone (10_state.md): the registers, bytes and parameters it does not name, and which
registers it depends on. -/

namespace Sys2Proof.Machine

/-! ## The frame of an instruction -/

section Frame

variable {i : Instr} {s t : State} (he : Effect i s t)

include he

theorem effect_reg {r : Reg} (hr : destOf i ≠ some r) : t.reg r = s.reg r := by
  cases he with
  | writes rd v hd | links rd target h4 hd =>
    have hne : r ≠ rd := fun h => hr (h ▸ hd)
    simp [setReg_reg, hne]
  | advances | branches => rfl
  | stores => rw [advance_reg, storeBytes_reg]

theorem effect_cfg : t.cfg = s.cfg := by
  cases he with
  | writes | advances | branches | links => rfl
  | stores => rw [advance_cfg, storeBytes_cfg]

theorem effect_byteAt_other {a : Nat} (ha : ∀ c ∈ storesOf s i, c.1 ≠ a) : t.byteAt a = s.byteAt a := by
  rw [effect_byteAt he, (latestStore_eq_none_iff _ _).2 ha]
  rfl

/-- What is no taken branch and no jump advances (10_state.md R25). -/
theorem effect_pc_of_not_taken (ht : ¬ Taken s i) : t.pc = s.pc + 4#32 := by
  cases he with
  | writes | advances => rfl
  | stores => rw [advance_pc, storeBytes_pc]
  | branches _ _ hc | links _ _ _ _ hc => exact absurd hc ht

end Frame

/-- Settles O27: the five effects of an instruction write nothing but what it names. -/
theorem noOtherSideEffects : Obligations.NoOtherSideEffects := by
  intro i s t h
  have he := exec_next h
  exact ⟨fun r => effect_reg he, fun a => effect_byteAt_other he, effect_stored he, effect_cfg he⟩

/-- Settles O30: the effects that do not advance are those of a taken branch and of a jump. -/
theorem otherInstructionsAdvance : Obligations.OtherInstructionsAdvance := by
  intro i s t ht h
  have hpc := effect_pc_of_not_taken (exec_next h) ht
  refine ⟨hpc, fun hlast => ?wraps⟩
  case wraps =>
    rw [hpc, hlast]
    rfl

/-! ## Another register file -/

/-- The same state with another register file. -/
def State.withRegs (regs : Vector Word 31) (s : State) : State := { s with regs := regs }

section WithRegs

variable (regs : Vector Word 31) (s : State)

/-- The registers that two states read are those of their files. -/
theorem reg_of_regs_eq {s t : State} (h : t.regs = s.regs) (r : Reg) : t.reg r = s.reg r := by
  simp only [State.reg, h]

/-- Setting a register of a file is setting it in the state that holds the file. -/
theorem withRegs_writeRegs_reg (d q : Reg) (v : Word) :
    (s.withRegs (writeRegs regs d v)).reg q = if q = d ∧ q ≠ 0 then v else (s.withRegs regs).reg q :=
  setReg_reg (s.withRegs regs) d q v

theorem fetch_withRegs : fetch (s.withRegs regs) = fetch s := rfl

theorem storeBytes_withRegs (addr : Word) (bs : List Byte) :
    (s.withRegs regs).storeBytes addr bs = (s.storeBytes addr bs).withRegs regs := by
  induction bs generalizing s addr with
  | nil => rfl
  | cons b bs ih => exact ih (s.storeByte addr.toNat b) (addr + 1#32)

theorem memRead_withRegs (w : Width) (addr : Word) : memRead (s.withRegs regs) w addr = memRead s w addr := by
  cases w <;> rfl

theorem memWrite_withRegs (w : Width) (addr : Word) (v : BitVec w.bits) :
    memWrite (s.withRegs regs) w addr v = (memWrite s w addr v).map (State.withRegs regs) := by
  have hm : misalignedFaults (s.withRegs regs).cfg w addr = misalignedFaults s.cfg w addr := rfl
  have hv : accessValid (s.withRegs regs).cfg addr w.bytes = accessValid s.cfg addr w.bytes := rfl
  simp only [memWrite, hm, hv, storeBytes_withRegs]
  split
  · rfl
  · split <;> rfl

end WithRegs

/-! ## An instruction depends on its sources alone -/

/-- The other file after the instruction: `rd` is as in the state that the instruction left. -/
def regsAfter (i : Instr) (regs : Vector Word 31) (t : State) : Vector Word 31 :=
  match destOf i with
  | some d => writeRegs regs d (t.reg d)
  | none => regs

theorem regsAfter_reg (i : Instr) (regs : Vector Word 31) (t : State) (r : Reg) :
    (t.withRegs (regsAfter i regs t)).reg r = if destOf i = some r then t.reg r else (t.withRegs regs).reg r := by
  unfold regsAfter
  split
  · next d hd =>
    rw [withRegs_writeRegs_reg, hd]
    by_cases hr : r = d
    · subst hr
      by_cases h0 : r = 0
      · simp [h0]
      · simp [h0]
    · simp [hr, Ne.symm hr]
  · next hd => simp [hd]

theorem setReg_withRegs (regs : Vector Word 31) (s : State) (d : Reg) (v : Word) :
    (s.withRegs regs).setReg d v = (s.setReg d v).withRegs (writeRegs regs d ((s.setReg d v).reg d)) := by
  by_cases h0 : d = 0
  · subst h0
    rfl
  · rw [setReg_reg, if_pos ⟨rfl, h0⟩]
    rfl

section Sources

variable {regs : Vector Word 31} {s : State}

theorem writeRd_withRegs (rd : Reg) (v : Word) :
    writeRd rd v (s.withRegs regs) = mapNext (fun t => t.withRegs (writeRegs regs rd (t.reg rd))) (writeRd rd v s) :=
  congrArg (fun t : State => (.next t.advance : Result)) (setReg_withRegs regs s rd v)

theorem load_withRegs {w : Width} {ext : BitVec w.bits → Word} {rd rs1 : Reg} {imm : BitVec 12}
    (h : (s.withRegs regs).reg rs1 = s.reg rs1) :
    load w ext rd imm rs1 (s.withRegs regs) =
      mapNext (fun t => t.withRegs (writeRegs regs rd (t.reg rd))) (load w ext rd imm rs1 s) := by
  have ha : loadAddress (s.withRegs regs) rs1 imm = loadAddress s rs1 imm := by rw [loadAddress, h, loadAddress]
  simp only [load, ha, memRead_withRegs]
  cases memRead s w (loadAddress s rs1 imm) with
  | error => rfl
  | ok m => exact writeRd_withRegs rd (ext m)

theorem store_withRegs {w : Width} {rs2 rs1 : Reg} {imm : BitVec 12} (h2 : (s.withRegs regs).reg rs2 = s.reg rs2)
    (h1 : (s.withRegs regs).reg rs1 = s.reg rs1) :
    store w rs2 imm rs1 (s.withRegs regs) = mapNext (State.withRegs regs) (store w rs2 imm rs1 s) := by
  have ha : storeAddress (s.withRegs regs) rs1 imm = storeAddress s rs1 imm := by rw [storeAddress, h1, storeAddress]
  simp only [store, ha, h2, memWrite_withRegs]
  cases memWrite s w (storeAddress s rs1 imm) (lowBits w (s.reg rs2)) <;> rfl

theorem branch_withRegs (cond : Bool) (o : BitVec 13) :
    branch cond o (s.withRegs regs) = mapNext (State.withRegs regs) (branch cond o s) := by
  have ht : branchTarget (s.withRegs regs) o = branchTarget s o := rfl
  simp only [branch, ht]
  split
  · split <;> rfl
  · rfl

theorem jump_withRegs (rd : Reg) (target : Word) :
    jump rd target (s.withRegs regs) =
      mapNext (fun t => t.withRegs (writeRegs regs rd (t.reg rd))) (jump rd target s) := by
  unfold jump
  split
  · rfl
  · exact congrArg (fun t : State => (.next (t.setPc target) : Result)) (setReg_withRegs regs s rd (s.pc + 4#32))

/-- Where the sources read alike, the outcome is the same but for the file, and in the file `rd` is the same. -/
theorem exec_withRegs {i : Instr} (h : ∀ r ∈ sourcesOf i, (s.withRegs regs).reg r = s.reg r) :
    exec i (s.withRegs regs) = mapNext (fun t => t.withRegs (regsAfter i regs t)) (exec i s) := by
  cases i
  case lb | lh | lw | lbu | lhu => exact load_withRegs (h _ List.mem_cons_self)
  case sb | sh | sw => exact store_withRegs (h _ List.mem_cons_self) (h _ (List.mem_cons_of_mem _ List.mem_cons_self))
  case addi rd rs1 _ | slli rd rs1 _ | slti rd rs1 _ | sltiu rd rs1 _ | xori rd rs1 _ | srli rd rs1 _ | srai rd rs1 _
      | ori rd rs1 _ | andi rd rs1 _ =>
    simp only [exec, execAddi, execSlli, execSlti, execSltiu, execXori, execSrli, execSrai, execOri, execAndi,
      h rs1 List.mem_cons_self]
    exact writeRd_withRegs rd _
  case add rd rs1 rs2 | sub rd rs1 rs2 | sll rd rs1 rs2 | slt rd rs1 rs2 | sltu rd rs1 rs2 | xor rd rs1 rs2
      | srl rd rs1 rs2 | sra rd rs1 rs2 | or rd rs1 rs2 | and rd rs1 rs2 =>
    simp only [exec, execAdd, execSub, execSll, execSlt, execSltu, execXor, execSrl, execSra, execOr, execAnd,
      h rs1 List.mem_cons_self, h rs2 (List.mem_cons_of_mem _ List.mem_cons_self)]
    exact writeRd_withRegs rd _
  case auipc rd _ | lui rd _ => exact writeRd_withRegs rd _
  case beq rs1 rs2 o | bne rs1 rs2 o | blt rs1 rs2 o | bge rs1 rs2 o | bltu rs1 rs2 o | bgeu rs1 rs2 o =>
    simp only [exec, execBeq, execBne, execBlt, execBge, execBltu, execBgeu,
      h rs1 List.mem_cons_self, h rs2 (List.mem_cons_of_mem _ List.mem_cons_self)]
    exact branch_withRegs _ o
  case jalr rd rs1 imm =>
    have ht : jalrTarget (s.withRegs regs) rs1 imm = jalrTarget s rs1 imm := by
      rw [jalrTarget, h rs1 List.mem_cons_self]
      rfl
    simp only [exec, execJalr, ht]
    exact jump_withRegs rd _
  case jal rd _ => exact jump_withRegs rd _
  case fence | ecall | ebreak => rfl

end Sources

theorem mapNext_eq_next {x : Result} {g : State → State} {u : State} (h : mapNext g x = .next u) :
    ∃ t, x = .next t ∧ u = g t := by
  cases x with
  | next t =>
    cases h
    exact ⟨t, rfl, rfl⟩
  | fault | refused => cases h

/-- Outcomes of which one is the other with another file agree but for the registers. -/
theorem agreeButRegs_mapNext {x : Result} (hx : Answers x) (file : State → Vector Word 31) :
    AgreeButRegs x (mapNext (fun t => t.withRegs (file t)) x) := by
  obtain ⟨t, rfl⟩ | ⟨f, rfl⟩ := hx
  · exact ⟨rfl, rfl, rfl, rfl⟩
  · rfl

/-- Settles O28: the outcome in the other file is the outcome in this one with its own file but for `rd`. -/
theorem noImplicitRegisterRead : Obligations.NoImplicitRegisterRead := by
  intro i s regs h
  have hexec : exec i (s.withRegs regs) = mapNext (fun t => t.withRegs (regsAfter i regs t)) (exec i s) := exec_withRegs h
  refine ⟨?outcome, fun t u ht hu d hd => ?dest⟩
  case outcome => exact (congrArg (AgreeButRegs (exec i s)) hexec).mpr (agreeButRegs_mapNext (exec_answers i s) _)
  case dest =>
    obtain ⟨t', ht', rfl⟩ := mapNext_eq_next (hexec.symm.trans hu)
    rw [ht] at ht'
    cases ht'
    rw [regsAfter_reg, if_pos hd]

/-! ## The destination `x0` (10_state.md R21) -/

theorem setReg_zero (s : State) (v : Word) : s.setReg 0 v = s := rfl

section DestZero

variable {s : State}

/-- Writing `x0` is writing any `rd` and then putting the file back. -/
theorem writeRd_dest_zero {rd : Reg} {v : Word} : writeRd 0 v s = mapNext (State.withRegs s.regs) (writeRd rd v s) := rfl

theorem load_dest_zero {w : Width} {ext : BitVec w.bits → Word} {rd rs1 : Reg} {imm : BitVec 12} :
    load w ext 0 imm rs1 s = mapNext (State.withRegs s.regs) (load w ext rd imm rs1 s) := by
  unfold load
  cases memRead s w (loadAddress s rs1 imm) <;> rfl

theorem jump_dest_zero {rd : Reg} {target : Word} :
    jump 0 target s = mapNext (State.withRegs s.regs) (jump rd target s) := by
  unfold jump
  split <;> rfl

/-- An instruction without `rd` leaves the file as it was. -/
theorem exec_of_no_dest {i : Instr} (hd : destOf i = none) : exec i s = mapNext (State.withRegs s.regs) (exec i s) := by
  obtain ⟨t, ht⟩ | ⟨f, hf⟩ := exec_answers i s
  · have hregs : t.regs = s.regs := regs_ext fun r => effect_reg (exec_next ht) (by simp [hd])
    rw [ht, ← hregs]
    rfl
  · rw [hf]
    rfl

/-- The same instruction with `rd` = `x0` does everything else alike. -/
theorem exec_dest_zero (i : Instr) (s : State) :
    exec (withDest 0 i) s = mapNext (State.withRegs s.regs) (exec i s) := by
  cases i
  case lb | lh | lw | lbu | lhu => exact load_dest_zero
  case jalr | jal => exact jump_dest_zero
  case sb | sh | sw | beq | bne | blt | bge | bltu | bgeu | fence | ecall | ebreak => exact exec_of_no_dest rfl
  all_goals exact writeRd_dest_zero

end DestZero

/-- Settles O26: with `rd` = `x0` the outcome is the same with the file put back. -/
theorem destinationX0OnlyDiscards : Obligations.DestinationX0OnlyDiscards := by
  refine ⟨reg_zero, setReg_zero, fun i s => ⟨?outcome, fun t ht => ?regs⟩⟩
  case outcome =>
    rw [exec_dest_zero]
    exact agreeButRegs_mapNext (exec_answers i s) fun _ => s.regs
  case regs =>
    rw [exec_dest_zero] at ht
    obtain ⟨u, -, rfl⟩ := mapNext_eq_next ht
    exact reg_of_regs_eq rfl

end Sys2Proof.Machine
end

section
/-! CERTIFICATE. With `NREGS` = 16 a run neither changes `x16` to `x31` nor depends on them (10_state.md R28; log entry 8). -/

namespace Sys2Proof.Machine

/-! ## The registers that an instruction names -/

theorem mem_registers_of_source {i : Instr} {r : Reg} (h : r ∈ sourcesOf i) : r ∈ i.registers := by
  cases i
  case sb | sh | sw | beq | bne | blt | bge | bltu | bgeu => exact h
  case auipc | lui | jal | fence | ecall | ebreak => cases h
  all_goals exact List.mem_cons_of_mem _ h

theorem mem_registers_of_dest {i : Instr} {r : Reg} (h : destOf i = some r) : r ∈ i.registers := by
  cases i
  case sb | sh | sw | beq | bne | blt | bge | bltu | bgeu | fence | ecall | ebreak => cases h
  all_goals
    cases h
    exact List.mem_cons_self

theorem registers_low_of_decode {c : Config} {w : Word} {i : Instr} (hc : c.baseIsa = .rv32e) (h : decode c w = .ok i)
    {r : Reg} (hr : r ∈ i.registers) : r.val < 16 := by
  obtain ⟨-, -, hexist⟩ := decode_ok h
  have hlow := List.all_eq_true.1 hexist r hr
  simpa [Config.nregs, hc] using hlow

/-! ## One step from two states that agree below `x16` -/

/-- States that agree but for `x16` to `x31` differ in the file alone. -/
theorem eq_withRegs_of_agree {s u : State} (h : AgreeBelow16 s u) : u = s.withRegs u.regs := by
  obtain ⟨-, hpc, hmem, hstored, hcfg⟩ := h
  rw [State.withRegs, hpc, hmem, hstored, hcfg]

section Step

variable {s u : State} (ha : AgreeBelow16 s u)

include ha

theorem fetch_of_agree : fetch u = fetch s := by rw [eq_withRegs_of_agree ha, fetch_withRegs]

theorem cfg_of_agree : u.cfg = s.cfg := by
  obtain ⟨-, -, -, -, hcfg⟩ := ha
  exact hcfg.symm

/-- What is left in the other file agrees again: `rd` is the same, and every other register is as before. -/
theorem agree_after_exec {i : Instr} {t : State} (h : exec i s = .next t) :
    AgreeBelow16 t (t.withRegs (regsAfter i u.regs t)) := by
  obtain ⟨hlow, -⟩ := ha
  refine ⟨fun r hr => ?_, rfl, rfl, rfl, rfl⟩
  rw [regsAfter_reg]
  split
  · rfl
  · next hd =>
    calc t.reg r = s.reg r := effect_reg (exec_next h) hd
      _ = u.reg r := hlow r hr
      _ = (t.withRegs u.regs).reg r := reg_of_regs_eq rfl r

variable (hc : s.cfg.baseIsa = .rv32e)

include hc

/-- The instruction decoded names no register that differs, so in the other state it has the same outcome but for the file. -/
theorem exec_of_agree {w : Word} {i : Instr} (hd : decode s.cfg w = .ok i) :
    exec i u = mapNext (fun t => t.withRegs (regsAfter i u.regs t)) (exec i s) := by
  have hsources : ∀ r ∈ sourcesOf i, (s.withRegs u.regs).reg r = s.reg r := by
    intro r hr
    obtain ⟨hlow, -⟩ := ha
    exact (hlow r (registers_low_of_decode hc hd (mem_registers_of_source hr))).symm
  rw [← exec_withRegs hsources, ← eq_withRegs_of_agree ha]

theorem step_fault_of_agree {f : Fault} (h : step s = .fault f) : step u = .fault f := by
  obtain ⟨g, hg, hs⟩ | ⟨w, e, hf, hd, hs⟩ | ⟨w, i, hf, hd, hs⟩ := step_cases s
  · rw [step_of_fetch_error ((fetch_of_agree ha).trans hg), ← hs, h]
  · rw [step_of_decode_error ((fetch_of_agree ha).trans hf) (cfg_of_agree ha ▸ hd), ← hs, h]
  · rw [step_of_decode_ok ((fetch_of_agree ha).trans hf) (cfg_of_agree ha ▸ hd), exec_of_agree ha hc hd, ← hs, h]
    rfl

theorem step_next_of_agree {t : State} (h : step s = .next t) : ∃ v, step u = .next v ∧ AgreeBelow16 t v := by
  obtain ⟨w, i, hf, hd, he⟩ := step_next h
  refine ⟨_, ?_, agree_after_exec ha he⟩
  rw [step_of_decode_ok ((fetch_of_agree ha).trans hf) (cfg_of_agree ha ▸ hd), exec_of_agree ha hc hd, he]
  rfl

end Step

theorem step_cfg {s t : State} (h : step s = .next t) : t.cfg = s.cfg := by
  obtain ⟨_, _, he⟩ := step_effect h
  exact effect_cfg he

/-- A step under RV32-E writes no register above `x15`: its instruction's `rd` is below. -/
theorem step_high_reg {s t : State} (hc : s.cfg.baseIsa = .rv32e) (h : step s = .next t) {r : Reg} (hr : 16 ≤ r.val) :
    t.reg r = s.reg r := by
  obtain ⟨w, i, -, hd, he⟩ := step_next h
  have hdest : destOf i ≠ some r := fun hdr =>
    Nat.not_lt.2 hr (registers_low_of_decode hc hd (mem_registers_of_dest hdr))
  exact effect_reg (exec_next he) hdest

/-! ## Runs -/

theorem run_running_of_agree {k : Nat} {s u t : State} (hc : s.cfg.baseIsa = .rv32e) (ha : AgreeBelow16 s u)
    (h : run k s = .running t) :
    (∀ r : Reg, 16 ≤ r.val → t.reg r = s.reg r) ∧ ∃ v, run k u = .running v ∧ AgreeBelow16 t v := by
  induction k generalizing s u with
  | zero =>
    cases h
    exact ⟨fun _ _ => rfl, u, rfl, ha⟩
  | succ k ih =>
    obtain ⟨s', hs, hrun⟩ := run_running_succ h
    obtain ⟨u', hu, ha'⟩ := step_next_of_agree ha hc hs
    obtain ⟨hhigh, v, hv, hagree⟩ := ih (step_cfg hs ▸ hc) ha' hrun
    exact ⟨fun r hr => (hhigh r hr).trans (step_high_reg hc hs hr), v, (run_of_step_next hu k).trans hv, hagree⟩

/-- Settles O29: agreement below `x16` is kept by each step, so the step that ends one run is met, and raises, in the other. -/
theorem highRegistersHiddenUnderRv32e : Obligations.HighRegistersHiddenUnderRv32e := by
  refine fun k s u hc ha => ⟨fun t => run_running_of_agree hc ha, fun t f h => ?ended⟩
  case ended =>
    obtain ⟨j, hj, hrun, ht⟩ := run_ended_iff.1 h
    obtain ⟨-, v, hv, hagree⟩ := run_running_of_agree hc ha hrun
    have hct : t.cfg.baseIsa = .rv32e :=
      reaches_keeps (P := fun s => s.cfg.baseIsa = .rv32e) (fun _ _ hb hs => step_cfg hs ▸ hb) ⟨j, hrun⟩ hc
    exact ⟨v, run_ended_iff.2 ⟨j, hj, hv, step_fault_of_agree hagree hct ht⟩, hagree⟩

end Sys2Proof.Machine
end
